-- ==== Sys2Proof/Word.lean ====
section
/-! DEFINITION. The words of EVB-CORE: bytes and 32-bit words (00_scope.md R10, R11). -/

namespace Sys2Proof

/-- A byte is 8 bits (R10). -/
abbrev Byte := BitVec 8

/-- A word is 32 bits (R10): a command word, and a word of the host bus (R62, R90). -/
abbrev Word32 := BitVec 32

end Sys2Proof
end

