-- ==== Sys2Proof/Config.lean ====
section
/-! DEFINITION. What one EVB-CORE instance fixes: the implementation parameters of 00_scope.md R6 as data that the
model takes (log 5), its open parameters as constants without a body (log 6, log 7), and the free values of the reads
that 20_memory.md R73 leaves unspecified (log 4). -/

namespace Sys2Proof

/-- The parameters of one instance that the model takes as arguments (R6). -/
structure Params where
  /-- `W`, the width in bits of every field register and of P, A, B, GX, GY, N. -/
  w : Nat
  /-- `BUFBYTES`, the capacity of the byte buffer BUF. -/
  bufBytes : Nat
  /-- `STRBYTES`, the capacity of the string buffer STR. -/
  strBytes : Nat
deriving DecidableEq, Repr

/-- The allowed values of R6. The STRBYTES bound, `ceil((BUFBYTES+5)*8 / log2 58)`, is said in exact integers: STR has
room for every number of `BUFBYTES + 5` bytes in base 58 (R7). -/
def Params.allowed (c : Params) : Bool :=
  c.w % 32 == 0 && 64 ≤ c.w && c.w ≤ 512 &&
  5 ≤ c.bufBytes && c.bufBytes ≤ 255 && c.bufBytes % 4 == 0 &&
  256 ^ (c.bufBytes + 5) ≤ 58 ^ c.strBytes && c.strBytes % 4 == 0 && c.strBytes ≤ 255

/-- The values the spec takes (R6): W = 256, BUFBYTES = 64, STRBYTES = 128. -/
def Params.taken : Params := ⟨256, 64, 128⟩

/-- How many words of a 64-byte slot belong to a W-bit register: W / 32 (20_memory.md R66). -/
def Params.slotWords (c : Params) : Nat := c.w / 32

/-- A register value of W bits: a field register or a configuration register holds "an unsigned integer in
[0, 2^W - 1]" (R12, 10_state.md R21, R29), whose bits the host reads and writes by words (20_memory.md R66). The bound
is a clause of `State.Inv` (log 5). -/
abbrev Elem := Nat

/-- `DSHA256` (R9): the double-SHA-256 collaborator, any total function from a byte string to 32 bytes. It has no
body: nothing can be proved of a digest beyond its length and that equal strings have equal digests. Log 6. -/
opaque Config.dsha256 : List Byte → Vector Byte 32

/-- The 4 KiB page at which the platform places the window: `BASE` is 4 KiB aligned and otherwise open (R6).
Log 7. -/
opaque Config.basePage : Nat

/-- `BASE`, the bus address of byte offset 0x000 of the window (R6). -/
def Config.base : Nat := 4096 * Config.basePage

/-- Offset `a` of the window is at bus address `BASE + a` (20_memory.md R62). -/
def Config.busAddress (offset : Nat) : Nat := Config.base + offset

/-- The free value of the `k`-th unspecified read (20_memory.md R73: "a free draw of the right width, independent
for each read"). It has no body. Log 4. -/
opaque Config.freeRead : Nat → Word32

end Sys2Proof
end

