-- ==== Sys2Proof/Syntax.lean ====
section
/-! DEFINITION. The command set (30_encoding.md R92, R93, R96): one constructor per row of the opcode table, with
the fields of its format. -/

namespace Sys2Proof

/-- A field register index, naming F0 to F15 (R93). -/
abbrev FReg := Fin 16

/-- A point register index, naming Q0 to Q7 (R93). -/
abbrev PReg := Fin 8

/-- The operand count of a folding command, 0 to 15 (R93). -/
abbrev Count := Fin 16

/-- END (R93): 0 is big-endian, 1 is little-endian. -/
inductive Endian where
  | big
  | little
deriving DecidableEq, Repr

/-- The selectors of FLDC, 0 to 8 in this order (40_sequencer.md R126). -/
inductive Sel where
  | p | pm1 | pm2 | a | b | gx | gy | n | bitsize
deriving DecidableEq, Repr

/-- The 25 commands of the opcode map (R96). -/
inductive Instr where
  | halt
  | nop
  | fmov (rd rs1 : FReg)
  | fldi (rd : FReg) (imm16 : BitVec 16)
  | fldc (rd : FReg) (sel : Sel)
  | pinf (qd : PReg)
  | pfin (qd : PReg)
  | fadd (rd rs1 rs2 : FReg)
  | fsub (rd rs1 rs2 : FReg)
  | fmul (rd rs1 rs2 : FReg)
  | fdiv (rd rs1 rs2 : FReg)
  | finv (rd rs1 : FReg)
  /-- `neg` is NEG, the sign of the exponent: true is negative. -/
  | fexp (rd rs1 rs2 : FReg) (neg : Bool)
  | faddn (rd rs : FReg) (cnt : Count)
  | fsubn (rd rs : FReg) (cnt : Count)
  | fmuln (rd rs : FReg) (cnt : Count)
  | ecadd (qd qa qb : PReg)
  | ecdbl (qd qa : PReg)
  | ecmul (qd qa : PReg) (rs : FReg)
  | ecmulg (qd : PReg) (rs : FReg)
  | ecchk (qa : PReg)
  | tobytes (rs : FReg) (size : BitVec 8) (e : Endian)
  | frombytes (rd : FReg) (e : Endian)
  | b58enc (ver : BitVec 8)
  | b58dec
deriving DecidableEq, Repr

end Sys2Proof
end

