-- ==== Sys2Proof/WellFormed.lean ====
section
/-! DEFINITION. The value constraints of 30_encoding.md R97 that the fields' types do not already say. The bound
`sel ≤ 8` of FLDC is the type `Sel`; every other field value is accepted (R97). -/

namespace Sys2Proof

/-- The operand window of a folding command stays within F15: "if cnt >= 2 then rs + cnt - 1 <= 15" (R97). -/
abbrev windowFits (rs : FReg) (cnt : Count) : Prop := 2 ≤ cnt.val → rs.val + cnt.val - 1 ≤ 15

/-- A command some legal word stands for (R97). -/
def Instr.wellFormed : Instr → Bool
  | .halt => true
  | .nop => true
  | .fmov _ _ => true
  | .fldi _ _ => true
  | .fldc _ _ => true
  | .pinf _ => true
  | .pfin _ => true
  | .fadd _ _ _ => true
  | .fsub _ _ _ => true
  | .fmul _ _ _ => true
  | .fdiv _ _ _ => true
  | .finv _ _ => true
  | .fexp _ _ _ _ => true
  | .faddn _ rs cnt => decide (windowFits rs cnt)
  | .fsubn _ rs cnt => decide (windowFits rs cnt)
  | .fmuln _ rs cnt => decide (windowFits rs cnt)
  | .ecadd _ _ _ => true
  | .ecdbl _ _ => true
  | .ecmul _ _ _ => true
  | .ecmulg _ _ => true
  | .ecchk _ => true
  | .tobytes _ _ _ => true
  | .frombytes _ _ => true
  | .b58enc _ => true
  | .b58dec => true

end Sys2Proof
end

