-- ==== Sys2Proof/Decode.lean ====
section
/-! DEFINITION. The command encoding of 30_encoding.md: the decoder (R90 to R101), the encoder written from the
same formats (R92), and the opcode map as data (R96). -/

namespace Sys2Proof

/-- Why a word is illegal (R100). -/
inductive Illegal where
  /-- (a): OP is 0x00 or unassigned. -/
  | unassignedOpcode
  /-- (b): a reserved-zero bit of the format is 1. -/
  | reservedBit
  /-- (c), R97: FLDC with a selector of 9 to 15. -/
  | reservedSelector
  /-- (c), R97: the operand window of a folding command passes F15. -/
  | windowPastF15
deriving DecidableEq, Repr

/-! ## Fields -/

/-- OP, bits 31..26 (R91). -/
def opcodeOf (w : Word32) : BitVec 6 := w.extractLsb' 26 6

/-- A field register index at bits `lo+3..lo` (R93). -/
def fregAt (w : Word32) (lo : Nat) : FReg := ⟨(w.extractLsb' lo 4).toNat, (w.extractLsb' lo 4).isLt⟩

/-- A point register index at bits `lo+2..lo` (R93). -/
def pregAt (w : Word32) (lo : Nat) : PReg := ⟨(w.extractLsb' lo 3).toNat, (w.extractLsb' lo 3).isLt⟩

/-- END at bit 8 (R92): 0 is big-endian, 1 little-endian (41_intcodec.md R140). -/
def endianAt (w : Word32) : Endian := if w.extractLsb' 8 1 = 1#1 then .little else .big

/-- The selector that a 4-bit number names; 9 to 15 are reserved (40_sequencer.md R126, R97). -/
def selOf (k : Nat) : Except Illegal Sel :=
  match k with
  | 0 => .ok .p
  | 1 => .ok .pm1
  | 2 => .ok .pm2
  | 3 => .ok .a
  | 4 => .ok .b
  | 5 => .ok .gx
  | 6 => .ok .gy
  | 7 => .ok .n
  | 8 => .ok .bitsize
  | _ => .error .reservedSelector

/-! ## The decoder -/

/-- The command, unless a reserved-zero bit of its format is 1 (R100 (b)). -/
def ifReservedZero (zero : Bool) (i : Instr) : Except Illegal Instr :=
  if zero then .ok i else .error .reservedBit

/-- A folding command of format N (R92), with its window checked (R97). -/
def decodeFold (w : Word32) (mk : FReg → FReg → Count → Instr) : Except Illegal Instr :=
  if w.extractLsb' 0 14 = 0#14 then
    if windowFits (fregAt w 18) (fregAt w 14) then .ok (mk (fregAt w 22) (fregAt w 18) (fregAt w 14))
    else .error .windowPastF15
  else .error .reservedBit

/-- The command a word stands for, or why it is illegal (R98, R100). The opcode alone selects the format (R91);
every bit outside the format's fields must be 0 (R92). -/
def decode (w : Word32) : Except Illegal Instr :=
  match (opcodeOf w).toNat with
  | 0x01 => ifReservedZero (w.extractLsb' 0 26 == 0#26) .halt
  | 0x02 => ifReservedZero (w.extractLsb' 0 26 == 0#26) .nop
  | 0x03 => ifReservedZero (w.extractLsb' 0 18 == 0#18) (.fmov (fregAt w 22) (fregAt w 18))
  | 0x04 => ifReservedZero (w.extractLsb' 16 6 == 0#6) (.fldi (fregAt w 22) (w.extractLsb' 0 16))
  | 0x05 =>
    if w.extractLsb' 4 18 = 0#18 then (selOf (w.extractLsb' 0 4).toNat).map (.fldc (fregAt w 22))
    else .error .reservedBit
  | 0x06 => ifReservedZero (w.extractLsb' 0 23 == 0#23) (.pinf (pregAt w 23))
  | 0x07 => ifReservedZero (w.extractLsb' 0 23 == 0#23) (.pfin (pregAt w 23))
  | 0x08 => ifReservedZero (w.extractLsb' 0 14 == 0#14) (.fadd (fregAt w 22) (fregAt w 18) (fregAt w 14))
  | 0x09 => ifReservedZero (w.extractLsb' 0 14 == 0#14) (.fsub (fregAt w 22) (fregAt w 18) (fregAt w 14))
  | 0x0A => ifReservedZero (w.extractLsb' 0 14 == 0#14) (.fmul (fregAt w 22) (fregAt w 18) (fregAt w 14))
  | 0x0B => ifReservedZero (w.extractLsb' 0 14 == 0#14) (.fdiv (fregAt w 22) (fregAt w 18) (fregAt w 14))
  | 0x0C => ifReservedZero (w.extractLsb' 0 18 == 0#18) (.finv (fregAt w 22) (fregAt w 18))
  | 0x0D =>
    ifReservedZero (w.extractLsb' 0 13 == 0#13)
      (.fexp (fregAt w 22) (fregAt w 18) (fregAt w 14) (w.extractLsb' 13 1 == 1#1))
  | 0x10 => decodeFold w .faddn
  | 0x11 => decodeFold w .fsubn
  | 0x12 => decodeFold w .fmuln
  | 0x18 => ifReservedZero (w.extractLsb' 0 17 == 0#17) (.ecadd (pregAt w 23) (pregAt w 20) (pregAt w 17))
  | 0x19 => ifReservedZero (w.extractLsb' 0 20 == 0#20) (.ecdbl (pregAt w 23) (pregAt w 20))
  | 0x1A => ifReservedZero (w.extractLsb' 0 16 == 0#16) (.ecmul (pregAt w 23) (pregAt w 20) (fregAt w 16))
  | 0x1B =>
    ifReservedZero (w.extractLsb' 20 3 == 0#3 && w.extractLsb' 0 16 == 0#16)
      (.ecmulg (pregAt w 23) (fregAt w 16))
  | 0x1C => ifReservedZero (w.extractLsb' 23 3 == 0#3 && w.extractLsb' 0 20 == 0#20) (.ecchk (pregAt w 20))
  | 0x20 =>
    ifReservedZero (w.extractLsb' 22 4 == 0#4 && w.extractLsb' 9 9 == 0#9)
      (.tobytes (fregAt w 18) (w.extractLsb' 0 8) (endianAt w))
  | 0x21 =>
    ifReservedZero (w.extractLsb' 9 13 == 0#13 && w.extractLsb' 0 8 == 0#8) (.frombytes (fregAt w 22) (endianAt w))
  | 0x28 => ifReservedZero (w.extractLsb' 8 18 == 0#18) (.b58enc (w.extractLsb' 0 8))
  | 0x29 => ifReservedZero (w.extractLsb' 0 26 == 0#26) .b58dec
  | _ => .error .unassignedOpcode

/-- The command of a row's word as the opcode table numbers its bits: bit 0 is the least significant bit of the one
32-bit word a command has (R90); the bits from `nbits` up are 0. A command word has no byte order (20_memory.md
R68), so the word goes to the decoder as it is. -/
def decodeTableWord (nbits w : Nat) : Option Instr :=
  match decode (BitVec.ofNat 32 (w % 2 ^ nbits)) with
  | .ok i => some i
  | .error _ => none

/-! ## The encoder -/

/-- A 4-bit register field (R93). -/
def fregBits (r : FReg) : BitVec 4 := BitVec.ofNat 4 r.val

/-- A 3-bit point register field (R93). -/
def pregBits (q : PReg) : BitVec 3 := BitVec.ofNat 3 q.val

/-- The END bit (R93). -/
def endianBit : Endian → BitVec 1
  | .big => 0#1
  | .little => 1#1

/-- The selector's number (40_sequencer.md R126). -/
def selBits : Sel → BitVec 4
  | .p => 0#4
  | .pm1 => 1#4
  | .pm2 => 2#4
  | .a => 3#4
  | .b => 4#4
  | .gx => 5#4
  | .gy => 6#4
  | .n => 7#4
  | .bitsize => 8#4

/-- The opcode of each command (R96). -/
def Instr.opcode : Instr → BitVec 6
  | .halt => 0x01#6
  | .nop => 0x02#6
  | .fmov _ _ => 0x03#6
  | .fldi _ _ => 0x04#6
  | .fldc _ _ => 0x05#6
  | .pinf _ => 0x06#6
  | .pfin _ => 0x07#6
  | .fadd _ _ _ => 0x08#6
  | .fsub _ _ _ => 0x09#6
  | .fmul _ _ _ => 0x0A#6
  | .fdiv _ _ _ => 0x0B#6
  | .finv _ _ => 0x0C#6
  | .fexp _ _ _ _ => 0x0D#6
  | .faddn _ _ _ => 0x10#6
  | .fsubn _ _ _ => 0x11#6
  | .fmuln _ _ _ => 0x12#6
  | .ecadd _ _ _ => 0x18#6
  | .ecdbl _ _ => 0x19#6
  | .ecmul _ _ _ => 0x1A#6
  | .ecmulg _ _ => 0x1B#6
  | .ecchk _ => 0x1C#6
  | .tobytes _ _ _ => 0x20#6
  | .frombytes _ _ => 0x21#6
  | .b58enc _ => 0x28#6
  | .b58dec => 0x29#6

/-- Bits 25..0 of each command: its fields in their places, 0 elsewhere (R92). -/
def Instr.fieldBits : Instr → BitVec 26
  | .halt => 0#26
  | .nop => 0#26
  | .fmov rd rs1 => fregBits rd ++ fregBits rs1 ++ 0#18
  | .fldi rd imm16 => fregBits rd ++ 0#6 ++ imm16
  | .fldc rd sel => fregBits rd ++ 0#18 ++ selBits sel
  | .pinf qd => pregBits qd ++ 0#23
  | .pfin qd => pregBits qd ++ 0#23
  | .fadd rd rs1 rs2 => fregBits rd ++ fregBits rs1 ++ fregBits rs2 ++ 0#14
  | .fsub rd rs1 rs2 => fregBits rd ++ fregBits rs1 ++ fregBits rs2 ++ 0#14
  | .fmul rd rs1 rs2 => fregBits rd ++ fregBits rs1 ++ fregBits rs2 ++ 0#14
  | .fdiv rd rs1 rs2 => fregBits rd ++ fregBits rs1 ++ fregBits rs2 ++ 0#14
  | .finv rd rs1 => fregBits rd ++ fregBits rs1 ++ 0#18
  | .fexp rd rs1 rs2 neg => fregBits rd ++ fregBits rs1 ++ fregBits rs2 ++ BitVec.ofBool neg ++ 0#13
  | .faddn rd rs cnt => fregBits rd ++ fregBits rs ++ fregBits cnt ++ 0#14
  | .fsubn rd rs cnt => fregBits rd ++ fregBits rs ++ fregBits cnt ++ 0#14
  | .fmuln rd rs cnt => fregBits rd ++ fregBits rs ++ fregBits cnt ++ 0#14
  | .ecadd qd qa qb => pregBits qd ++ pregBits qa ++ pregBits qb ++ 0#17
  | .ecdbl qd qa => pregBits qd ++ pregBits qa ++ 0#20
  | .ecmul qd qa rs => pregBits qd ++ pregBits qa ++ fregBits rs ++ 0#16
  | .ecmulg qd rs => pregBits qd ++ 0#3 ++ fregBits rs ++ 0#16
  | .ecchk qa => 0#3 ++ pregBits qa ++ 0#20
  | .tobytes rs size e => 0#4 ++ fregBits rs ++ 0#9 ++ endianBit e ++ size
  | .frombytes rd e => fregBits rd ++ 0#13 ++ endianBit e ++ 0#8
  | .b58enc ver => 0#18 ++ ver
  | .b58dec => 0#26

/-- The command word of a command (R90 to R92). -/
def encode (i : Instr) : Word32 := i.opcode ++ i.fieldBits

/-! ## The opcode map -/

/-- One row of the opcode map (R96): a word selects it when `(w AND mask) = bits`. -/
structure OpcodeRow where
  mnemonic : String
  bits : Word32
  mask : Word32
deriving DecidableEq, Repr

/-- A word selects a row (R96). -/
abbrev OpcodeRow.selects (r : OpcodeRow) (w : Word32) : Prop := w &&& r.mask = r.bits

/-- The complete opcode map (R96). -/
def opcodeTable : List OpcodeRow :=
  [⟨"HALT", 0x04000000#32, 0xFFFFFFFF#32⟩,
   ⟨"NOP", 0x08000000#32, 0xFFFFFFFF#32⟩,
   ⟨"FMOV", 0x0C000000#32, 0xFC03FFFF#32⟩,
   ⟨"FLDI", 0x10000000#32, 0xFC3F0000#32⟩,
   ⟨"FLDC", 0x14000000#32, 0xFC3FFFF0#32⟩,
   ⟨"PINF", 0x18000000#32, 0xFC7FFFFF#32⟩,
   ⟨"PFIN", 0x1C000000#32, 0xFC7FFFFF#32⟩] ++
  [⟨"FADD", 0x20000000#32, 0xFC003FFF#32⟩,
   ⟨"FSUB", 0x24000000#32, 0xFC003FFF#32⟩,
   ⟨"FMUL", 0x28000000#32, 0xFC003FFF#32⟩,
   ⟨"FDIV", 0x2C000000#32, 0xFC003FFF#32⟩,
   ⟨"FINV", 0x30000000#32, 0xFC03FFFF#32⟩,
   ⟨"FEXP", 0x34000000#32, 0xFC001FFF#32⟩,
   ⟨"FADDN", 0x40000000#32, 0xFC003FFF#32⟩,
   ⟨"FSUBN", 0x44000000#32, 0xFC003FFF#32⟩,
   ⟨"FMULN", 0x48000000#32, 0xFC003FFF#32⟩] ++
  [⟨"ECADD", 0x60000000#32, 0xFC01FFFF#32⟩,
   ⟨"ECDBL", 0x64000000#32, 0xFC0FFFFF#32⟩,
   ⟨"ECMUL", 0x68000000#32, 0xFC00FFFF#32⟩,
   ⟨"ECMULG", 0x6C000000#32, 0xFC70FFFF#32⟩,
   ⟨"ECCHK", 0x70000000#32, 0xFF8FFFFF#32⟩] ++
  [⟨"TOBYTES", 0x80000000#32, 0xFFC3FE00#32⟩,
   ⟨"FROMBYTES", 0x84000000#32, 0xFC3FFEFF#32⟩,
   ⟨"B58ENC", 0xA0000000#32, 0xFFFFFF00#32⟩,
   ⟨"B58DEC", 0xA4000000#32, 0xFFFFFFFF#32⟩]

/-- The command's name in the opcode map. -/
def Instr.mnemonic : Instr → String
  | .halt => "HALT"
  | .nop => "NOP"
  | .fmov _ _ => "FMOV"
  | .fldi _ _ => "FLDI"
  | .fldc _ _ => "FLDC"
  | .pinf _ => "PINF"
  | .pfin _ => "PFIN"
  | .fadd _ _ _ => "FADD"
  | .fsub _ _ _ => "FSUB"
  | .fmul _ _ _ => "FMUL"
  | .fdiv _ _ _ => "FDIV"
  | .finv _ _ => "FINV"
  | .fexp _ _ _ _ => "FEXP"
  | .faddn _ _ _ => "FADDN"
  | .fsubn _ _ _ => "FSUBN"
  | .fmuln _ _ _ => "FMULN"
  | .ecadd _ _ _ => "ECADD"
  | .ecdbl _ _ => "ECDBL"
  | .ecmul _ _ _ => "ECMUL"
  | .ecmulg _ _ => "ECMULG"
  | .ecchk _ => "ECCHK"
  | .tobytes _ _ _ => "TOBYTES"
  | .frombytes _ _ => "FROMBYTES"
  | .b58enc _ => "B58ENC"
  | .b58dec => "B58DEC"

end Sys2Proof
end

