-- ==== Sys2Proof/Machine/State.lean ====
section
/-! DEFINITION. The architectural state of 10_state.md R20, as plain data, with the reset values of R48; the turns
by which the host, the reset input and the engine act on it; the reasons a step can stop. -/

namespace Sys2Proof.Machine

/-- The byte memories of the block, BUF, STR and CMDMEM, as (window offset, byte) cells: offsets strictly rising, no
cell equal to what an unlisted offset reads as (`Memory.wf`). Log 8. -/
abbrev Memory := List Host.Cell

/-- A point value (00_scope.md R15): the identity, or a pair of coordinates. -/
inductive Point where
  | inf
  | fin (x y : Nat)
deriving DecidableEq, Repr

/-- The command error kinds (60_exceptions.md R230). -/
inductive ErrKind where
  | invalidFieldElement
  | insufficientOperands
  | divisionByZero
  | undefinedExponent
  | overflow
  | checksumMismatch
  | invalidCharacter
  | notOnCurve
  | illegalCommand
  | notConfigured
  | bufferBound
  | commandOverrun
deriving DecidableEq, Repr

/-- The configuration registers of W bits, in the order of their slots (10_state.md R29, 20_memory.md R63). -/
inductive ConfigReg where
  | p | a | b | gx | gy | n
deriving DecidableEq, Repr

/-- The bus's answer to a host access (20_memory.md R62, R64): the word a read returns (0 for a write, log 18), and
whether the response is a bus error. -/
structure Reply where
  data : Word32
  busError : Bool
deriving DecidableEq, Repr

/-- One turn of one agent (log 1): the engine's step (40_sequencer.md R121), a host access by its byte offset from
BASE and its width in bytes (20_memory.md R62, R69), or the reset input (70_reset_and_hazards.md R270). -/
inductive Turn where
  | engine
  | read (offset width : Nat)
  | write (offset width : Nat) (data : Word32)
  | reset
deriving DecidableEq, Repr

/-- The reasons a step stops with a fault. No command raises one: a command's error is a next state
(60_exceptions.md R236). -/
inductive Fault where
  /-- Raised by a host turn whose offset lies outside the 4 KiB window (0x000 to 0xFFF): it is no access to this
  block, and the spec says nothing of it (20_memory.md R62; log 7). Safe: the model stops where the platform goes
  on, and a command never raises it. -/
  | outsideWindow
deriving DecidableEq, Repr

/-- The reasons a step is refused. -/
inductive Refusal where
  /-- Raised by an arm of `exec` whose command has no meaning yet. Safe: the model stops. No arm raises it: every
  command has its meaning. -/
  | notModelled (mnemonic : String)
deriving DecidableEq, Repr

/-- The complete architectural state of one instance (R20), its parameters, and three fields of the model's own. -/
structure State where
  /-- The instance's parameters (00_scope.md R6): no part of the spec's state, and changed by no step. Log 5. -/
  params : Params
  /-- F0 to F15 (R21). -/
  f : Vector Elem 16
  /-- PTAG, the identity tags of Q0 to Q7 (R23). -/
  ptag : BitVec 8
  /-- P, the field order (R29). -/
  p : Elem
  /-- A, a curve coefficient (R29). -/
  a : Elem
  /-- B, a curve coefficient (R29). -/
  b : Elem
  /-- GX, the generator's x (R29). -/
  gx : Elem
  /-- GY, the generator's y (R29). -/
  gy : Elem
  /-- N, the subgroup order (R29). -/
  n : Elem
  /-- BITSIZE, the curve's bit size (R29). -/
  bitsize : BitVec 16
  /-- CFG.FLOCKED (R26). -/
  flocked : Bool
  /-- CFG.CLOCKED (R26). -/
  clocked : Bool
  /-- CFG.FERR (R26). -/
  ferr : Bool
  /-- CFG.CERR (R26). -/
  cerr : Bool
  /-- CTRL.STRICT58 (R24). -/
  strict58 : Bool
  /-- CTRL.IE_DONE (R24). -/
  ieDone : Bool
  /-- CTRL.IE_ERR (R24). -/
  ieErr : Bool
  /-- CTRL.IE_HOST (R24). -/
  ieHost : Bool
  /-- STATUS.BUSY (R25). -/
  busy : Bool
  /-- STATUS.DONE (R25). -/
  done : Bool
  /-- STATUS.ERR (R25). -/
  err : Bool
  /-- STATUS.HOSTERR (R25). -/
  hosterr : Bool
  /-- STATUS.ONC (R25, R43). -/
  onc : Bool
  /-- ENTRY (R34). -/
  entry : BitVec 6
  /-- PC (R35). -/
  pc : BitVec 6
  /-- ERRCODE (R36). -/
  errcode : BitVec 8
  /-- ERRPC (R36). -/
  errpc : BitVec 6
  /-- ERRCMD (R36). -/
  errcmd : Word32
  /-- BUF, STR and CMDMEM (R37, R38, R42), at their window offsets. -/
  mem : Memory
  /-- BLEN (R39). -/
  blen : BitVec 8
  /-- SLEN (R39). -/
  slen : BitVec 8
  /-- B58N (R40). -/
  b58n : BitVec 8
  /-- B58VER (R41). -/
  b58ver : BitVec 8
  /-- The model's own: the turns still to be taken, first first; when it is empty the engine moves. Log 1. -/
  agenda : List Turn
  /-- The model's own: the bus's answer to the last host access. Log 3. -/
  reply : Option Reply
  /-- The model's own: how many unspecified reads have been taken. Log 4. -/
  draws : Nat
deriving DecidableEq, Repr

/-- An instance right after Reset (R48, 70_reset_and_hazards.md R271), with nothing on the agenda. -/
def State.resetOf (c : Params) : State where
  params := c
  f := Vector.replicate 16 0
  ptag := 0xFF#8
  p := 0
  a := 0
  b := 0
  gx := 0
  gy := 0
  n := 0
  bitsize := 0#16
  flocked := false
  clocked := false
  ferr := false
  cerr := false
  strict58 := false
  ieDone := false
  ieErr := false
  ieHost := false
  busy := false
  done := false
  err := false
  hosterr := false
  onc := false
  entry := 0#6
  pc := 0#6
  errcode := 0#8
  errpc := 0#6
  errcmd := 0#32
  mem := []
  blen := 0#8
  slen := 0#8
  b58n := 20#8
  b58ver := 0#8
  agenda := []
  reply := none
  draws := 0

/-- The machine right after Reset, at the parameter values the spec takes (00_scope.md R6). -/
def State.reset : State := State.resetOf Params.taken

end Sys2Proof.Machine
end

