-- ==== Sys2Proof/Machine/Ops.lean ====
section
/-! DEFINITION. The shared operations: byte memory, register access, integers and byte strings (00_scope.md R14),
and the sequencer's part of a command (40_sequencer.md R121 to R123, 60_exceptions.md R236). -/

namespace Sys2Proof.Machine

/-! ## Byte memory -/

/-- What an unlisted byte reads as: BUF, STR and CMDMEM are all zero after reset (10_state.md R48). -/
def Memory.unlisted : Byte := 0#8

/-- The canonical form: offsets strictly rising, and no cell equal to what an unlisted offset reads as. -/
abbrev Memory.wf (m : Memory) : Prop :=
  m.Pairwise (fun c d => c.1 < d.1) ∧ ∀ c ∈ m, c.2 ≠ Memory.unlisted

/-- The byte at an offset. -/
def Memory.read : Memory → Nat → Byte
  | [], _ => Memory.unlisted
  | c :: rest, o => if c.1 = o then c.2 else Memory.read rest o

/-- A cell in front of a memory, unless it reads as an unlisted byte does. -/
def Memory.cons (o : Nat) (v : Byte) (m : Memory) : Memory :=
  if v = Memory.unlisted then m else (o, v) :: m

/-- The memory with one byte written. -/
def Memory.write : Memory → Nat → Byte → Memory
  | [], o, v => Memory.cons o v []
  | c :: rest, o, v =>
    if o < c.1 then Memory.cons o v (c :: rest)
    else if o = c.1 then Memory.cons o v rest
    else c :: Memory.write rest o v

/-- The memory with a byte string written from an offset up. -/
def Memory.writeBytes : Memory → Nat → List Byte → Memory
  | m, _, [] => m
  | m, o, v :: rest => Memory.writeBytes (m.write o v) (o + 1) rest

/-- The `k` bytes from an offset up. -/
def Memory.readBytes (m : Memory) (o k : Nat) : List Byte := (List.range k).map fun j => m.read (o + j)

/-- The byte lanes of a bus word, lane 0 first: lane k is bits 8k+7..8k (20_memory.md R65). -/
def lanes (w : Word32) : List Byte :=
  [w.extractLsb' 0 8, w.extractLsb' 8 8, w.extractLsb' 16 8, w.extractLsb' 24 8]

/-- The bus word at an offset, lane 0 at the lowest byte (R65, R67). -/
def Memory.readWord (m : Memory) (o : Nat) : Word32 :=
  m.read (o + 3) ++ m.read (o + 2) ++ m.read (o + 1) ++ m.read o

/-- The memory with a bus word written at an offset (R65, R67). -/
def Memory.writeWord (m : Memory) (o : Nat) (w : Word32) : Memory := m.writeBytes o (lanes w)

/-- The window offset of BUF (20_memory.md R63). -/
def bufBase : Nat := 0x800

/-- The window offset of STR (R63). -/
def strBase : Nat := 0x900

/-- The window offset of CMDMEM (R63). -/
def cmdBase : Nat := 0xC00

/-- `BUF[0:k]` (10_state.md R37). -/
def State.bufBytes (s : State) (k : Nat) : List Byte := s.mem.readBytes bufBase k

/-- `STR[0:k]` (10_state.md R38). -/
def State.strBytes (s : State) (k : Nat) : List Byte := s.mem.readBytes strBase k

/-- `BUF[i] <- r[i]` for every byte of `r`; the rest of BUF keeps its value. -/
def State.writeBuf (s : State) (r : List Byte) : State := { s with mem := s.mem.writeBytes bufBase r }

/-- `STR[i] <- r[i]` for every byte of `r`; the rest of STR keeps its value. -/
def State.writeStr (s : State) (r : List Byte) : State := { s with mem := s.mem.writeBytes strBase r }

/-- `CMDMEM[i]`, the whole word at offset 0xC00 + 4i (20_memory.md R68). -/
def State.cmdWord (s : State) (i : BitVec 6) : Word32 := s.mem.readWord (cmdBase + 4 * i.toNat)

/-- `CMDMEM[i] <- w` (R68). -/
def State.setCmdWord (s : State) (i : BitVec 6) (w : Word32) : State :=
  { s with mem := s.mem.writeWord (cmdBase + 4 * i.toNat) w }

/-- Fetch: `w <- CMDMEM[pc]` (40_sequencer.md R121). -/
def State.fetch (s : State) : Word32 := s.cmdWord s.pc

/-! ## Registers -/

/-- `x[i]` (00_scope.md R13). -/
def State.x (s : State) (i : FReg) : Elem := s.f[i]

/-- `x[i] <- v` (R13), for v below 2^W. No register is hardwired (10_state.md R21). -/
def State.setX (s : State) (i : FReg) (v : Elem) : State := { s with f := s.f.set i v }

/-- PTAG with bit i set to a value (10_state.md R23). -/
def withTag (t : BitVec 8) (i : PReg) (v : Bool) : BitVec 8 :=
  if v then t ||| (1#8 <<< i.val) else t &&& ~~~(1#8 <<< i.val)

/-- `PTAG[i]` (10_state.md R23). -/
def State.tag (s : State) (i : PReg) : Bool := s.ptag.getLsbD i.val

/-- `PTAG[i] <- v`. -/
def State.setTag (s : State) (i : PReg) (v : Bool) : State := { s with ptag := withTag s.ptag i v }

/-! ## Integers and byte strings (R14) -/

/-- `bytelen(n)`: 0 for 0, else the least k with n < 256^k. -/
def byteLen (n : Nat) : Nat := if n = 0 then 0 else n.log2 / 8 + 1

/-- `le_bytes(n, k)`: the k bytes of n, least significant first. -/
def leBytes (n : Nat) : Nat → List Byte
  | 0 => []
  | k + 1 => BitVec.ofNat 8 (n % 256) :: leBytes (n / 256) k

/-- `be_bytes(n, k)`: the k bytes of n, most significant first. -/
def beBytes (n k : Nat) : List Byte := (leBytes n k).reverse

/-- `int_be(s)`: the big-endian reading of a byte string, 0 for the empty one. -/
def intBe (s : List Byte) : Nat := s.foldl (fun acc v => acc * 256 + v.toNat) 0

/-- `int_le(s)` = `int_be(reverse(s))`. -/
def intLe (s : List Byte) : Nat := intBe s.reverse

/-- `first4(d)` = d[0:4]. -/
def first4 (d : List Byte) : List Byte := d.take 4

/-- `toBytes(n, size, END)` (41_intcodec.md R141): none is Overflow, when n needs more than `size` bytes. -/
def toBytes (n size : Nat) (e : Endian) : Option (List Byte) :=
  if size < byteLen n then none
  else match e with
    | .big => some (beBytes n size)
    | .little => some (leBytes n size)

/-- `fromBytes(s, END)` (R141), total. -/
def fromBytes (s : List Byte) (e : Endian) : Nat :=
  match e with
  | .big => intBe s
  | .little => intLe s

/-! ## The sequencer's part of a command -/

/-- The number of an error kind (60_exceptions.md R230). -/
def ErrKind.code : ErrKind → BitVec 8
  | .invalidFieldElement => 0x01#8
  | .insufficientOperands => 0x02#8
  | .divisionByZero => 0x03#8
  | .undefinedExponent => 0x04#8
  | .overflow => 0x05#8
  | .checksumMismatch => 0x06#8
  | .invalidCharacter => 0x07#8
  | .notOnCurve => 0x08#8
  | .illegalCommand => 0x10#8
  | .notConfigured => 0x11#8
  | .bufferBound => 0x12#8
  | .commandOverrun => 0x13#8

/-- `stop_error(E, pc, w)` (60_exceptions.md R236), with w the word at pc (R232): the error record is written, ERR
set, BUSY cleared; PC and everything else keep their values. Log 12. -/
def State.stopError (s : State) (e : ErrKind) : State :=
  { s with errcode := e.code, errpc := s.pc, errcmd := s.fetch, err := true, busy := false }

/-- `stop_done()` (40_sequencer.md R122). -/
def State.stopDone (s : State) : State := { s with done := true, busy := false }

/-- After a command other than HALT has completed (40_sequencer.md R121, R123): overrun at index 63, else
`pc <- pc + 1`. -/
def State.advance (s : State) : State :=
  if s.pc = 63#6 then s.stopError .commandOverrun else { s with pc := s.pc + 1#6 }

/-- The end of a command other than HALT (R121): an error stops the run with the state not updated
(60_exceptions.md R235); otherwise the state is updated and the sequencer advances. Either way there is a next state
(R236). -/
def retire (s : State) (r : Except ErrKind State) : Host.Outcome State Fault Refusal :=
  .next (match r with
    | .error e => s.stopError e
    | .ok t => t.advance)

end Sys2Proof.Machine
end

