-- ==== Sys2Proof/Machine/Arith.lean ====
section
/-! DEFINITION. The arithmetic of the units as pure functions on exact integers: the prime field (42_field.md), the
group law and the scalar multiplication (43_curve.md), the Base58 radix conversion (44_base58.md). -/

namespace Sys2Proof.Machine

/-! ## The field -/

/-- `(a + b) mod P`. -/
def addMod (p a b : Nat) : Nat := (a + b) % p

/-- `(a - b) mod P`, Euclidean (00_scope.md R12). -/
def subMod (p a b : Nat) : Nat := (((a : Int) - (b : Int)) % (p : Int)).toNat

/-- `(a * b) mod P`: the full product, then reduction. -/
def mulMod (p a b : Nat) : Nat := (a * b) % p

/-- The square-and-multiply loop of `powmod`, over the bits of the exponent, least significant first. -/
def powmodLoop (m : Nat) : Nat → Nat → Nat → Nat → Nat
  | 0, _, _, acc => acc
  | k + 1, base, e, acc =>
    powmodLoop m k (base * base % m) (e / 2) (if e % 2 = 1 then acc * base % m else acc)

/-- `powmod(x, e, m)` = x^e mod m (00_scope.md R14, whose results are normative, not its algorithm). -/
def powmod (x e m : Nat) : Nat := powmodLoop m (e.log2 + 1) x e (1 % m)

/-- Field division: `a * powmod(b, P - 2, P) mod P` (42_field.md R155). -/
def divMod (p a b : Nat) : Nat := mulMod p a (powmod b (p - 2) p)

/-- The exponent of FEXP (R156): sign and magnitude. -/
def signedExponent (neg : Bool) (m : Nat) : Int := if neg then -(m : Int) else (m : Int)

/-- `e mod (P - 1)`, Euclidean, in [0, P - 2] (R156). -/
def reducedExponent (p : Nat) (e : Int) : Nat := (e % ((p : Int) - 1)).toNat

/-- `fold(op, vs)`, left to right, reducing after each step (42_field.md R151); `op` is one of the operations above
at the modulus. -/
def foldMod (op : Nat → Nat → Nat) : List Nat → Nat
  | [] => 0
  | v :: vs => vs.foldl op v

/-! ## The curve -/

/-- The curve equation at a point: `(y*y - (x*x*x + A*x + B)) mod P = 0` (00_scope.md R18). -/
def curveEq (p a b x y : Nat) : Bool :=
  ((y * y : Int) - ((x * x * x : Int) + (a * x : Int) + (b : Int))) % (p : Int) == 0

/-- Cases 3 and 5 of ADD after the slope s (43_curve.md R181):
`x3 <- (s*s - x1 - x2) mod P; y3 <- (s*(x1 - x3) - y1) mod P`. -/
def chord (p s x1 y1 x2 : Nat) : Point :=
  let x3 := subMod p (subMod p (mulMod p s s) x1) x2
  .fin x3 (subMod p (mulMod p s (subMod p x1 x3)) y1)

/-- The group law ADD (R181) on the curve with coefficient `a` over the field of order `p`. -/
def pointAdd (p a : Nat) (u v : Point) : Point :=
  match u, v with
  | .inf, .inf => .inf
  | .inf, .fin x2 y2 => .fin x2 y2
  | .fin x1 y1, .inf => .fin x1 y1
  | .fin x1 y1, .fin x2 y2 =>
    if x1 ≠ x2 then chord p (divMod p (subMod p y2 y1) (subMod p x2 x1)) x1 y1 x2
    else if y1 ≠ y2 ∨ y1 = 0 then .inf
    else chord p (divMod p (addMod p (mulMod p (3 * x1) x1) a) (mulMod p 2 y1)) x1 y1 x2

/-- DBL (R181). -/
def pointDouble (p a : Nat) (u : Point) : Point := pointAdd p a u u

/-- The double-and-add loop of SMUL (R186): `k` holds the bits not yet scanned, least significant first. -/
def scalarLoop (p a : Nat) : Nat → Nat → Point → Point → Point
  | 0, _, r, _ => r
  | c + 1, k, r, d =>
    scalarLoop p a c (k / 2) (if k % 2 = 1 then pointAdd p a r d else r) (pointDouble p a d)

/-- SMUL (R186): exactly `bits` iterations over the scalar reduced mod `n`. -/
def scalarMul (p a n bits : Nat) (u : Point) (k : Nat) : Point :=
  match u with
  | .inf => .inf
  | .fin x y => scalarLoop p a bits (k % n) .inf (.fin x y)

/-! ## Base58 -/

/-- The alphabet (44_base58.md R210): the ASCII codes of "123456789", "ABCDEFGH", "JKLMN", "PQRSTUVWXYZ",
"abcdefghijk", "mnopqrstuvwxyz", in this order. -/
def alphabet : List Byte :=
  [0x31#8, 0x32#8, 0x33#8, 0x34#8, 0x35#8, 0x36#8, 0x37#8, 0x38#8, 0x39#8] ++
  [0x41#8, 0x42#8, 0x43#8, 0x44#8, 0x45#8, 0x46#8, 0x47#8, 0x48#8] ++
  [0x4A#8, 0x4B#8, 0x4C#8, 0x4D#8, 0x4E#8] ++
  [0x50#8, 0x51#8, 0x52#8, 0x53#8, 0x54#8, 0x55#8, 0x56#8, 0x57#8, 0x58#8, 0x59#8, 0x5A#8] ++
  [0x61#8, 0x62#8, 0x63#8, 0x64#8, 0x65#8, 0x66#8, 0x67#8, 0x68#8, 0x69#8, 0x6A#8, 0x6B#8] ++
  [0x6D#8, 0x6E#8, 0x6F#8, 0x70#8, 0x71#8, 0x72#8, 0x73#8, 0x74#8, 0x75#8, 0x76#8, 0x77#8, 0x78#8, 0x79#8, 0x7A#8]

/-- `ALPHA[d]` for a digit d below 58. -/
def symbolOf (d : Nat) : Byte := alphabet.getD d 0#8

/-- The position of a byte in a list, counted from `d`. -/
def positionFrom (c : Byte) : List Byte → Nat → Option Nat
  | [], _ => none
  | v :: rest, d => if v = c then some d else positionFrom c rest (d + 1)

/-- `digit(c)`: d if `ALPHA[d] = c`, else none (R210). -/
def digitOf (c : Byte) : Option Nat := positionFrom c alphabet 0

/-- Step 5 of encode (R211): the symbols of n in base 58, least significant first, until the quotient is zero. The
first argument bounds the loop; `n.log2 + 1` passes are enough for n. -/
def base58Digits : Nat → Nat → List Byte
  | 0, _ => []
  | k + 1, n => if n = 0 then [] else symbolOf (n % 58) :: base58Digits k (n / 58)

/-- The checksum (R211 step 2, R213 step 4): `first4(DSHA256(m))`. -/
def checksum (hash : List Byte → Vector Byte 32) (m : List Byte) : List Byte := first4 (hash m).toList

/-- Steps 1 to 3 of encode (R211): version, payload, checksum. -/
def base58Full (hash : List Byte → Vector Byte 32) (ver : Byte) (payload : List Byte) : List Byte :=
  (ver :: payload) ++ checksum hash (ver :: payload)

/-- Steps 4 to 6 of encode (R211): a '1' for each leading zero byte, then the digits of the rest, most significant
first. -/
def base58Symbols (full : List Byte) : List Byte :=
  let z := (full.takeWhile (· == 0#8)).length
  let n := intBe (full.drop z)
  List.replicate z (symbolOf 0) ++ (base58Digits (n.log2 + 1) n).reverse

/-- Step 1 of decode (R213): left to right, an unrecognised symbol contributing digit 0 (R214). -/
def base58Value (str : List Byte) : Nat := str.foldl (fun num c => num * 58 + (digitOf c).getD 0) 0

end Sys2Proof.Machine
end

