-- ==== Sys2Proof/Machine/Operands.lean ====
section
/-! DEFINITION. The operand forms (30_encoding.md R93 to R95) and the checks on them: field registers as valid field
elements (42_field.md R150), point registers (10_state.md R22) and their validation (43_curve.md R180), the operand
window of the folds (R151). -/

namespace Sys2Proof.Machine

/-- `valid(v) := v < CFG.P` (42_field.md R150). -/
def State.valid (s : State) (v : Nat) : Bool := v < s.p

/-- The x coordinate register of a point register: F(2i) (10_state.md R22). -/
def xReg (q : PReg) : FReg := ⟨2 * q.val, by omega⟩

/-- The y coordinate register of a point register: F(2i+1) (10_state.md R22). -/
def yReg (q : PReg) : FReg := ⟨2 * q.val + 1, by omega⟩

/-- `Q(i)` (10_state.md R22). -/
def State.point (s : State) (q : PReg) : Point :=
  if s.tag q then .inf else .fin (s.x (xReg q)) (s.x (yReg q))

/-- `Q(i) <- pt` (10_state.md R22). -/
def State.setPoint (s : State) (q : PReg) (pt : Point) : State :=
  match pt with
  | .inf => ((s.setX (xReg q) 0).setX (yReg q) 0).setTag q true
  | .fin u v => ((s.setX (xReg q) u).setX (yReg q) v).setTag q false

/-- The values of F(rs) to F(rs+cnt-1) (42_field.md R151). -/
def State.window (s : State) (rs : FReg) (cnt : Count) : List Nat :=
  (List.range cnt.val).map fun j => s.x (Fin.ofNat 16 (rs.val + j))

/-- The range check of `check_point` (43_curve.md R180): both coordinates are field elements. -/
def State.inRange (s : State) (pt : Point) : Bool :=
  match pt with
  | .inf => true
  | .fin u v => s.valid u && s.valid v

/-- The point is on the locked curve; the identity always is (00_scope.md R18, 43_curve.md R180). -/
def State.onCurve (s : State) (pt : Point) : Bool :=
  match pt with
  | .inf => true
  | .fin u v => curveEq s.p s.a s.b u v

/-- The preconditions of the point commands (R180): CLOCKED, then the range check of every point operand, then the
on-curve check of every one. -/
def State.checkPoints (s : State) (pts : List Point) : Except ErrKind Unit :=
  if !s.clocked then .error .notConfigured
  else if !pts.all s.inRange then .error .invalidFieldElement
  else if !pts.all s.onCurve then .error .notOnCurve
  else .ok ()

/-- ADD on the locked curve (R181). -/
def State.add (s : State) (u v : Point) : Point := pointAdd s.p s.a u v

/-- SMUL on the locked curve (R186). -/
def State.smul (s : State) (u : Point) (k : Nat) : Point :=
  scalarMul s.p s.a s.n s.bitsize.toNat u k

end Sys2Proof.Machine
end

