-- ==== Sys2Proof/Machine/Flags.lean ====
section
/-! DEFINITION. The flags and the status words: the one condition flag ONC (10_state.md R43), the interrupt line
(R44), the bits of CTRL, STATUS and CFG as words (R24 to R26), and the checks behind the lock bits (R31, R32). -/

namespace Sys2Proof.Machine

/-- `irq = (DONE and IE_DONE) or (ERR and IE_ERR) or (HOSTERR and IE_HOST)` (R44). -/
def State.irq (s : State) : Bool := (s.done && s.ieDone) || (s.err && s.ieErr) || (s.hosterr && s.ieHost)

/-- A bit of a word at a place. -/
def bitAt (v : Bool) (i : Nat) : Word32 := if v then 1#32 <<< i else 0#32

/-- CTRL as read: START reads 0, the reserved bits read 0 (R24, R47). -/
def State.ctrlWord (s : State) : Word32 :=
  bitAt s.strict58 1 ||| bitAt s.ieDone 2 ||| bitAt s.ieErr 3 ||| bitAt s.ieHost 4

/-- STATUS as read, with the value to show for ONC (R25; 20_memory.md R73 leaves ONC unspecified while busy). -/
def State.statusWord (s : State) (onc : Bool) : Word32 :=
  bitAt s.busy 0 ||| bitAt s.done 1 ||| bitAt s.err 2 ||| bitAt s.hosterr 3 ||| bitAt onc 4 ||| bitAt s.irq 5

/-- CFG as read (R26). -/
def State.cfgWord (s : State) : Word32 :=
  bitAt s.flocked 0 ||| bitAt s.clocked 1 ||| bitAt s.ferr 8 ||| bitAt s.cerr 9

/-- The field-lock check: P is odd and P >= 3 (R31). -/
def State.fieldLockPasses (s : State) : Bool := s.p % 2 == 1 && 3 ≤ s.p

/-- The curve-lock check (R32). -/
def State.curveLockPasses (s : State) : Bool :=
  s.flocked &&
  s.valid s.a && s.valid s.b && s.valid s.gx && s.valid s.gy &&
  curveEq s.p s.a s.b s.gx s.gy &&
  1 ≤ s.bitsize.toNat && s.bitsize.toNat ≤ s.params.w &&
  1 ≤ s.n && s.n ≤ 2 ^ s.bitsize.toNat

/-- `ONC <- v` (43_curve.md R189). -/
def State.setOnc (s : State) (v : Bool) : State := { s with onc := v }

end Sys2Proof.Machine
end

