-- ==== Sys2Proof/Machine/Base58.lean ====
section
/-! DEFINITION. The Base58Check commands (44_base58.md R210 to R215). The effects take the hash as an argument; the
commands give it DSHA256 (00_scope.md R9), so that a test may give a known digest. -/

namespace Sys2Proof.Machine

/-- The effect of B58ENC (R211): STR beyond the symbols keeps its values. -/
def base58Encode (hash : List Byte → Vector Byte 32) (ver : Byte) (s : State) : Except ErrKind State :=
  if s.params.bufBytes < s.blen.toNat then .error .bufferBound
  else
    let symbols := base58Symbols (base58Full hash ver (s.bufBytes s.blen.toNat))
    .ok { s.writeStr symbols with slen := BitVec.ofNat 8 symbols.length }

/-- B58ENC (R211). -/
def execB58enc (ver : BitVec 8) (s : State) : Host.Outcome State Fault Refusal :=
  retire s (base58Encode Config.dsha256 ver s)

/-- Steps 3 to 5 of decode (R213) on the string of fixed width: the checksum is compared, then the payload, its
length and the version byte are written. -/
def base58Accept (hash : List Byte → Vector Byte 32) (full : List Byte) (s : State) : Except ErrKind State :=
  let data := full.take (full.length - 4)
  if checksum hash data ≠ full.drop (full.length - 4) then .error .checksumMismatch
  else .ok { s.writeBuf (data.drop 1) with blen := s.b58n, b58ver := data.headD 0#8 }

/-- The effect of B58DEC (R213): the strict scan precedes the arithmetic (R214). -/
def base58Decode (hash : List Byte → Vector Byte 32) (s : State) : Except ErrKind State :=
  if s.params.strBytes < s.slen.toNat ∨ s.params.bufBytes < s.b58n.toNat then .error .bufferBound
  else if s.strict58 && (s.strBytes s.slen.toNat).any (fun c => (digitOf c).isNone) then .error .invalidCharacter
  else match toBytes (base58Value (s.strBytes s.slen.toNat)) (s.b58n.toNat + 5) .big with
    | none => .error .overflow
    | some full => base58Accept hash full s

/-- B58DEC (R213). -/
def execB58dec (s : State) : Host.Outcome State Fault Refusal := retire s (base58Decode Config.dsha256 s)

end Sys2Proof.Machine
end

