-- ==== Sys2Proof/Machine/Codec.lean ====
section
/-! DEFINITION. The fixed-width integer codec commands (41_intcodec.md R140 to R143). -/

namespace Sys2Proof.Machine

/-- The effect of TOBYTES (R142): BUF beyond `size` keeps its values. -/
def codecStore (rs : FReg) (size : BitVec 8) (e : Endian) (s : State) : Except ErrKind State :=
  if s.params.bufBytes < size.toNat then .error .bufferBound
  else match toBytes (s.x rs) size.toNat e with
    | none => .error .overflow
    | some r => .ok { s.writeBuf r with blen := size }

/-- TOBYTES (R142). -/
def execTobytes (rs : FReg) (size : BitVec 8) (e : Endian) (s : State) : Host.Outcome State Fault Refusal :=
  retire s (codecStore rs size e s)

/-- The effect of FROMBYTES (R143): the overflow test is on the value, not on the length. -/
def codecLoad (rd : FReg) (e : Endian) (s : State) : Except ErrKind State :=
  if s.params.bufBytes < s.blen.toNat then .error .bufferBound
  else if 2 ^ s.params.w ≤ fromBytes (s.bufBytes s.blen.toNat) e then .error .overflow
  else .ok (s.setX rd (fromBytes (s.bufBytes s.blen.toNat) e))

/-- FROMBYTES (R143). -/
def execFrombytes (rd : FReg) (e : Endian) (s : State) : Host.Outcome State Fault Refusal :=
  retire s (codecLoad rd e s)

end Sys2Proof.Machine
end

