-- ==== Sys2Proof/Machine/Curve.lean ====
section
/-! DEFINITION. The elliptic-curve commands (43_curve.md R180 to R189). -/

namespace Sys2Proof.Machine

/-- A point command (R180): its point operands are checked, then `Q(qd) <- result`. -/
def curveWrite (qd : PReg) (operands : List Point) (result : Point) (s : State) : Except ErrKind State :=
  match s.checkPoints operands with
  | .error e => .error e
  | .ok () => .ok (s.setPoint qd result)

/-- ECADD (R184). -/
def execEcadd (qd qa qb : PReg) (s : State) : Host.Outcome State Fault Refusal :=
  retire s (curveWrite qd [s.point qa, s.point qb] (s.add (s.point qa) (s.point qb)) s)

/-- ECDBL (R185). -/
def execEcdbl (qd qa : PReg) (s : State) : Host.Outcome State Fault Refusal :=
  retire s (curveWrite qd [s.point qa] (pointDouble s.p s.a (s.point qa)) s)

/-- ECMUL (R187): the scalar is any W-bit value. -/
def execEcmul (qd qa : PReg) (rs : FReg) (s : State) : Host.Outcome State Fault Refusal :=
  retire s (curveWrite qd [s.point qa] (s.smul (s.point qa) (s.x rs)) s)

/-- ECMULG (R188): the generator was checked by the lock, so no point operand is checked here. -/
def execEcmulg (qd : PReg) (rs : FReg) (s : State) : Host.Outcome State Fault Refusal :=
  retire s (curveWrite qd [] (s.smul (.fin s.gx s.gy) (s.x rs)) s)

/-- The effect of ECCHK (R189): an off-curve point is a result, not an error. -/
def curveCheck (qa : PReg) (s : State) : Except ErrKind State :=
  if !s.clocked then .error .notConfigured
  else if !s.inRange (s.point qa) then .error .invalidFieldElement
  else .ok (s.setOnc (s.onCurve (s.point qa)))

/-- ECCHK (R189). -/
def execEcchk (qa : PReg) (s : State) : Host.Outcome State Fault Refusal := retire s (curveCheck qa s)

end Sys2Proof.Machine
end

