-- ==== Sys2Proof/Machine/Field.lean ====
section
/-! DEFINITION. The prime-field commands (42_field.md R150 to R160). Checks come in the order of 60_exceptions.md
R233: the lock, the operand count, the operands, then the command's own error. -/

namespace Sys2Proof.Machine

/-- A two-operand field command (R150): both operands are field elements, `own` is the command's own error on them,
`op` its result. -/
def fieldBinary (rd rs1 rs2 : FReg) (own : Nat → Nat → Option ErrKind) (op : Nat → Nat → Nat) (s : State) :
    Except ErrKind State :=
  if !s.flocked then .error .notConfigured
  else if !(s.valid (s.x rs1) && s.valid (s.x rs2)) then .error .invalidFieldElement
  else match own (s.x rs1) (s.x rs2) with
    | some e => .error e
    | none => .ok (s.setX rd (op (s.x rs1) (s.x rs2)))

/-- FADD, FSUB and FMUL have no error of their own. -/
def noError (_ _ : Nat) : Option ErrKind := none

/-- The divisor of FDIV must not be zero (R155). -/
def zeroDivisor (_ b : Nat) : Option ErrKind := if b = 0 then some .divisionByZero else none

/-- FADD (R152). -/
def execFadd (rd rs1 rs2 : FReg) (s : State) : Host.Outcome State Fault Refusal :=
  retire s (fieldBinary rd rs1 rs2 noError (addMod s.p) s)

/-- FSUB (R153). -/
def execFsub (rd rs1 rs2 : FReg) (s : State) : Host.Outcome State Fault Refusal :=
  retire s (fieldBinary rd rs1 rs2 noError (subMod s.p) s)

/-- FMUL (R154): the canonical residue (R162). -/
def execFmul (rd rs1 rs2 : FReg) (s : State) : Host.Outcome State Fault Refusal :=
  retire s (fieldBinary rd rs1 rs2 noError (mulMod s.p) s)

/-- FDIV (R155). -/
def execFdiv (rd rs1 rs2 : FReg) (s : State) : Host.Outcome State Fault Refusal :=
  retire s (fieldBinary rd rs1 rs2 zeroDivisor (divMod s.p) s)

/-- The effect of FINV (R157). -/
def fieldInverse (rd rs1 : FReg) (s : State) : Except ErrKind State :=
  if !s.flocked then .error .notConfigured
  else if !s.valid (s.x rs1) then .error .invalidFieldElement
  else if s.x rs1 = 0 then .error .divisionByZero
  else .ok (s.setX rd (powmod (s.x rs1) (s.p - 2) s.p))

/-- FINV (R157). -/
def execFinv (rd rs1 : FReg) (s : State) : Host.Outcome State Fault Refusal := retire s (fieldInverse rd rs1 s)

/-- The effect of FEXP (R156): the exponent is any integer and is not range-checked. -/
def fieldPower (rd rs1 rs2 : FReg) (neg : Bool) (s : State) : Except ErrKind State :=
  if !s.flocked then .error .notConfigured
  else if !s.valid (s.x rs1) then .error .invalidFieldElement
  else if s.x rs1 = 0 then
    if 0 < signedExponent neg (s.x rs2) then .ok (s.setX rd 0) else .error .undefinedExponent
  else
    .ok (s.setX rd
      (powmod (s.x rs1) (reducedExponent s.p (signedExponent neg (s.x rs2))) s.p))

/-- FEXP (R156). -/
def execFexp (rd rs1 rs2 : FReg) (neg : Bool) (s : State) : Host.Outcome State Fault Refusal :=
  retire s (fieldPower rd rs1 rs2 neg s)

/-- A folding command (R151, R158): `op` is folded over the window. A window past F15 is an illegal encoding
(30_encoding.md R97; log 13). -/
def fieldFold (rd rs : FReg) (cnt : Count) (op : Nat → Nat → Nat) (s : State) : Except ErrKind State :=
  if ¬ windowFits rs cnt then .error .illegalCommand
  else if !s.flocked then .error .notConfigured
  else if cnt.val < 2 then .error .insufficientOperands
  else if !(s.window rs cnt).all s.valid then .error .invalidFieldElement
  else .ok (s.setX rd (foldMod op (s.window rs cnt)))

/-- FADDN (R158). -/
def execFaddn (rd rs : FReg) (cnt : Count) (s : State) : Host.Outcome State Fault Refusal :=
  retire s (fieldFold rd rs cnt (addMod s.p) s)

/-- FSUBN (R159). -/
def execFsubn (rd rs : FReg) (cnt : Count) (s : State) : Host.Outcome State Fault Refusal :=
  retire s (fieldFold rd rs cnt (subMod s.p) s)

/-- FMULN (R160). -/
def execFmuln (rd rs : FReg) (cnt : Count) (s : State) : Host.Outcome State Fault Refusal :=
  retire s (fieldFold rd rs cnt (mulMod s.p) s)

end Sys2Proof.Machine
end

