-- ==== Sys2Proof/Machine/Sequencer.lean ====
section
/-! DEFINITION. The sequencer and data-movement commands (40_sequencer.md R122 to R129). -/

namespace Sys2Proof.Machine

/-- HALT (R122): the run ends, PC keeps the HALT's index. -/
def execHalt (s : State) : Host.Outcome State Fault Refusal := .next s.stopDone

/-- NOP (R124). -/
def execNop (s : State) : Host.Outcome State Fault Refusal := retire s (.ok s)

/-- FMOV (R125): no lock, no range check, PTAG unchanged. -/
def execFmov (rd rs1 : FReg) (s : State) : Host.Outcome State Fault Refusal :=
  retire s (.ok (s.setX rd (s.x rs1)))

/-- FLDI (R127): `x[rd] <- zext_W(imm16)`. -/
def execFldi (rd : FReg) (imm16 : BitVec 16) (s : State) : Host.Outcome State Fault Refusal :=
  retire s (.ok (s.setX rd imm16.toNat))

/-- The lock a selector of FLDC needs (R126). -/
def State.selLock (s : State) (sel : Sel) : Bool :=
  match sel with
  | .p => s.flocked
  | .pm1 => s.flocked
  | .pm2 => s.flocked
  | .a => s.clocked
  | .b => s.clocked
  | .gx => s.clocked
  | .gy => s.clocked
  | .n => s.clocked
  | .bitsize => s.clocked

/-- The value a selector of FLDC reads (R126). P - 1 and P - 2 do not underflow while FLOCKED (log 14). -/
def State.selValue (s : State) (sel : Sel) : Elem :=
  match sel with
  | .p => s.p
  | .pm1 => s.p - 1
  | .pm2 => s.p - 2
  | .a => s.a
  | .b => s.b
  | .gx => s.gx
  | .gy => s.gy
  | .n => s.n
  | .bitsize => s.bitsize.toNat

/-- FLDC (R126). -/
def execFldc (rd : FReg) (sel : Sel) (s : State) : Host.Outcome State Fault Refusal :=
  retire s (if s.selLock sel then .ok (s.setX rd (s.selValue sel)) else .error .notConfigured)

/-- PINF (R128). -/
def execPinf (qd : PReg) (s : State) : Host.Outcome State Fault Refusal := retire s (.ok (s.setPoint qd .inf))

/-- PFIN (R129): the coordinates are neither changed nor checked. -/
def execPfin (qd : PReg) (s : State) : Host.Outcome State Fault Refusal := retire s (.ok (s.setTag qd false))

end Sys2Proof.Machine
end

