-- ==== Sys2Proof/Machine/Dispatch.lean ====
section
/-! DEFINITION. The meaning of each command (30_encoding.md R96): one arm per row of the opcode map. -/

namespace Sys2Proof.Machine

/-- The effect of one command at the word at PC: its writes and the sequencer's advance, or the stop on its error
(40_sequencer.md R121). -/
def exec (i : Instr) (s : State) : Host.Outcome State Fault Refusal :=
  match i with
  | .halt => Sys2Proof.Machine.execHalt s
  | .nop => Sys2Proof.Machine.execNop s
  | .fmov rd rs1 => Sys2Proof.Machine.execFmov rd rs1 s
  | .fldi rd imm16 => Sys2Proof.Machine.execFldi rd imm16 s
  | .fldc rd sel => Sys2Proof.Machine.execFldc rd sel s
  | .pinf qd => Sys2Proof.Machine.execPinf qd s
  | .pfin qd => Sys2Proof.Machine.execPfin qd s
  | .fadd rd rs1 rs2 => Sys2Proof.Machine.execFadd rd rs1 rs2 s
  | .fsub rd rs1 rs2 => Sys2Proof.Machine.execFsub rd rs1 rs2 s
  | .fmul rd rs1 rs2 => Sys2Proof.Machine.execFmul rd rs1 rs2 s
  | .fdiv rd rs1 rs2 => Sys2Proof.Machine.execFdiv rd rs1 rs2 s
  | .finv rd rs1 => Sys2Proof.Machine.execFinv rd rs1 s
  | .fexp rd rs1 rs2 neg => Sys2Proof.Machine.execFexp rd rs1 rs2 neg s
  | .faddn rd rs cnt => Sys2Proof.Machine.execFaddn rd rs cnt s
  | .fsubn rd rs cnt => Sys2Proof.Machine.execFsubn rd rs cnt s
  | .fmuln rd rs cnt => Sys2Proof.Machine.execFmuln rd rs cnt s
  | .ecadd qd qa qb => Sys2Proof.Machine.execEcadd qd qa qb s
  | .ecdbl qd qa => Sys2Proof.Machine.execEcdbl qd qa s
  | .ecmul qd qa rs => Sys2Proof.Machine.execEcmul qd qa rs s
  | .ecmulg qd rs => Sys2Proof.Machine.execEcmulg qd rs s
  | .ecchk qa => Sys2Proof.Machine.execEcchk qa s
  | .tobytes rs size e => Sys2Proof.Machine.execTobytes rs size e s
  | .frombytes rd e => Sys2Proof.Machine.execFrombytes rd e s
  | .b58enc ver => Sys2Proof.Machine.execB58enc ver s
  | .b58dec => Sys2Proof.Machine.execB58dec s

end Sys2Proof.Machine
end

