-- ==== Sys2Proof/Machine/HostBus.lean ====
section
/-! DEFINITION. The host window (20_memory.md R62 to R78): the address map, reads and writes of 32-bit words, the busy
and lock rules, START (40_sequencer.md R120), the lock requests (10_state.md R30) and the reset input
(70_reset_and_hazards.md R270 to R272). -/

namespace Sys2Proof.Machine

/-! ## The address map -/

/-- What stands at a mapped word offset of the window (R63). A slot of a W-bit register has 16 words, word j at
offset 4j of the slot (R66). -/
inductive Place where
  | id | param | ctrl | status | cfg | entry | pc | errcode | errpc | errcmd
  | ptag | bitsize | b58n | blen | slen | b58ver
  | config (r : ConfigReg) (j : Nat)
  | field (i : FReg) (j : Nat)
  | buf
  | str
  | cmd
deriving DecidableEq, Repr

/-- The control registers at 0x000 to 0x03C (R63). -/
def controlPlace (o : Nat) : Option Place :=
  match o with
  | 0x000 => some .id
  | 0x004 => some .param
  | 0x008 => some .ctrl
  | 0x00C => some .status
  | 0x010 => some .cfg
  | 0x014 => some .entry
  | 0x018 => some .pc
  | 0x01C => some .errcode
  | 0x020 => some .errpc
  | 0x024 => some .errcmd
  | 0x028 => some .ptag
  | 0x02C => some .bitsize
  | 0x030 => some .b58n
  | 0x034 => some .blen
  | 0x038 => some .slen
  | 0x03C => some .b58ver
  | _ => none

/-- The configuration slot with a number, from 0x100 up (R63). -/
def configPlace (k : Nat) : Option ConfigReg :=
  match k with
  | 0 => some .p
  | 1 => some .a
  | 2 => some .b
  | 3 => some .gx
  | 4 => some .gy
  | 5 => some .n
  | _ => none

/-- What stands at a word offset below 0x1000 of an instance, none where it is reserved (R63, R64). -/
def locate (c : Params) (o : Nat) : Option Place :=
  if o < 0x100 then controlPlace o
  else if o < 0x400 then (configPlace ((o - 0x100) / 0x40)).map fun r => .config r (o % 0x40 / 4)
  else if o < 0x800 then some (.field (Fin.ofNat 16 ((o - 0x400) / 0x40)) (o % 0x40 / 4))
  else if o < bufBase + c.bufBytes then some .buf
  else if o < strBase then none
  else if o < strBase + c.strBytes then some .str
  else if o < cmdBase then none
  else if o < cmdBase + 0x100 then some .cmd
  else none

/-! ## Words of registers -/

/-- Word j of a slot: bits 32j+31..32j of the register, 0 beyond it (R66). -/
def slotRead (c : Params) (v : Elem) (j : Nat) : Word32 :=
  if j < c.slotWords then BitVec.ofNat 32 (v >>> (32 * j)) else 0#32

/-- The register with word j of its slot written: only bits 32j+31..32j change, and words beyond it are ignored
(R66). -/
def slotWrite (c : Params) (v : Elem) (j : Nat) (w : Word32) : Elem :=
  if j < c.slotWords then
    (v >>> (32 * (j + 1))) <<< (32 * (j + 1)) ||| w.toNat <<< (32 * j) ||| v % 2 ^ (32 * j)
  else v

/-- A configuration register (10_state.md R29). -/
def State.config (s : State) (r : ConfigReg) : Elem :=
  match r with
  | .p => s.p
  | .a => s.a
  | .b => s.b
  | .gx => s.gx
  | .gy => s.gy
  | .n => s.n

/-- A configuration register with a new value. -/
def State.setConfig (s : State) (r : ConfigReg) (v : Elem) : State :=
  match r with
  | .p => { s with p := v }
  | .a => { s with a := v }
  | .b => { s with b := v }
  | .gx => { s with gx := v }
  | .gy => { s with gy := v }
  | .n => { s with n := v }

/-- The lock that makes a configuration register read-only (10_state.md R29, R33). -/
def State.configLocked (s : State) (r : ConfigReg) : Bool :=
  match r with
  | .p => s.flocked
  | .a => s.clocked
  | .b => s.clocked
  | .gx => s.clocked
  | .gy => s.clocked
  | .n => s.clocked

/-- ID (10_state.md R27). -/
def idWord : Word32 := 0xEC580001#32

/-- PARAM: W in bits 15..0, BUFBYTES in 23..16, STRBYTES in 31..24 (10_state.md R28). -/
def paramWord (c : Params) : Word32 :=
  BitVec.ofNat 8 c.strBytes ++ BitVec.ofNat 8 c.bufBytes ++ BitVec.ofNat 16 c.w

/-! ## Reads -/

/-- The stored word at a place of the window; reserved bits read 0 (10_state.md R47). The spec marks bits 31..8 of
ERRCODE and B58VER and bits 31..6 of ERRPC neither reserved nor read as 0 (R36, R41): that they read 0 is the model's
choice (log 21). -/
def State.stored (s : State) (o : Nat) (pl : Place) : Word32 :=
  match pl with
  | .id => idWord
  | .param => paramWord s.params
  | .ctrl => s.ctrlWord
  | .status => s.statusWord s.onc
  | .cfg => s.cfgWord
  | .entry => s.entry.setWidth 32
  | .pc => s.pc.setWidth 32
  | .errcode => s.errcode.setWidth 32
  | .errpc => s.errpc.setWidth 32
  | .errcmd => s.errcmd
  | .ptag => s.ptag.setWidth 32
  | .bitsize => s.bitsize.setWidth 32
  | .b58n => s.b58n.setWidth 32
  | .blen => s.blen.setWidth 32
  | .slen => s.slen.setWidth 32
  | .b58ver => s.b58ver.setWidth 32
  | .config r j => slotRead s.params (s.config r) j
  | .field i j => slotRead s.params (s.x i) j
  | .buf => s.mem.readWord o
  | .str => s.mem.readWord o
  | .cmd => s.mem.readWord o

/-- The places whose read while BUSY = 1 has unspecified bits (R73): the engine-written state. -/
def unspecifiedWhileBusy (c : Params) (pl : Place) : Bool :=
  match pl with
  | .status => true
  | .pc => true
  | .ptag => true
  | .blen => true
  | .slen => true
  | .b58ver => true
  | .field _ j => decide (j < c.slotWords)
  | .buf => true
  | .str => true
  | _ => false

/-- The word a read returns while BUSY = 1 (R73), with `v` the free draw: of the register's width, the reserved bits
still reading 0 (log 4), and bits 31..8 of B58VER too (log 21). -/
def State.seenWhileBusy (s : State) (o : Nat) (pl : Place) (v : Word32) : Word32 :=
  match pl with
  | .status => s.statusWord (v.getLsbD 0)
  | .pc => (v.setWidth 6).setWidth 32
  | .ptag => (v.setWidth 8).setWidth 32
  | .blen => (v.setWidth 8).setWidth 32
  | .slen => (v.setWidth 8).setWidth 32
  | .b58ver => (v.setWidth 8).setWidth 32
  | .field _ j => if j < s.params.slotWords then v else 0#32
  | .buf => v
  | .str => v
  | pl => s.stored o pl

/-- The bus's answer recorded. -/
def State.answer (s : State) (data : Word32) : State := { s with reply := some ⟨data, false⟩ }

/-- An access that is not performed: data 0, a bus error, and HOSTERR (R64, R69, R70). -/
def State.refuseAccess (s : State) : State := { s with hosterr := true, reply := some ⟨0#32, true⟩ }

/-- The place of an access the block performs: 32 bits wide, aligned, not reserved (R62, R64, R69, R70). -/
def accessPlace (c : Params) (o width : Nat) : Option Place :=
  if width = 4 ∧ o % 4 = 0 then locate c o else none

/-- A read of a mapped word (R62, R73, R74): no effect beyond the answer and the free draw it may use. -/
def State.readWord (s : State) (o : Nat) (pl : Place) : State :=
  if s.busy && unspecifiedWhileBusy s.params pl then
    { s.answer (s.seenWhileBusy o pl (Config.freeRead s.draws)) with draws := s.draws + 1 }
  else s.answer (s.stored o pl)

/-- A host read. -/
def State.hostRead (s : State) (o width : Nat) : State :=
  match accessPlace s.params o width with
  | none => s.refuseAccess
  | some pl => s.readWord o pl

/-! ## Writes -/

/-- The fields of CTRL take the written bits 4..1 (10_state.md R24). -/
def State.setCtrl (s : State) (v : Word32) : State :=
  { s with strict58 := v.getLsbD 1, ieDone := v.getLsbD 2, ieErr := v.getLsbD 3, ieHost := v.getLsbD 4 }

/-- START (40_sequencer.md R120), after the fields of CTRL have been written. -/
def State.start (s : State) : State :=
  { s with done := false, err := false, errcode := 0#8, errpc := 0#6, errcmd := 0#32, pc := s.entry, busy := true }

/-- A write to STATUS: writing 1 clears DONE, ERR, HOSTERR; the other bits ignore it (10_state.md R25). -/
def State.clearStatus (s : State) (v : Word32) : State :=
  { s with
    done := s.done && !v.getLsbD 1
    err := s.err && !v.getLsbD 2
    hosterr := s.hosterr && !v.getLsbD 3 }

/-- A field-lock request (10_state.md R30, R31). -/
def State.requestFieldLock (s : State) : State :=
  if s.flocked then s
  else if s.fieldLockPasses then { s with flocked := true, ferr := false }
  else { s with ferr := true }

/-- A curve-lock request (10_state.md R30, R32). -/
def State.requestCurveLock (s : State) : State :=
  if s.clocked then s
  else if s.curveLockPasses then { s with clocked := true, cerr := false }
  else { s with cerr := true }

/-- A write to CFG: the field request first, then the curve request (10_state.md R30). -/
def State.requestLocks (s : State) (v : Word32) : State :=
  let t := if v.getLsbD 0 then s.requestFieldLock else s
  if v.getLsbD 1 then t.requestCurveLock else t

/-- A locked configuration write: dropped, with HOSTERR (10_state.md R33). -/
def State.dropWrite (s : State) : State := { s with hosterr := true }

/-- The effect of a write the block takes (R74). Read-only registers ignore it without HOSTERR (R72). -/
def State.storeAt (s : State) (o : Nat) (pl : Place) (v : Word32) : State :=
  match pl with
  | .id => s
  | .param => s
  | .pc => s
  | .errcode => s
  | .errpc => s
  | .errcmd => s
  | .b58ver => s
  | .ctrl => if v.getLsbD 0 then (s.setCtrl v).start else s.setCtrl v
  | .status => s.clearStatus v
  | .cfg => s.requestLocks v
  | .entry => { s with entry := v.setWidth 6 }
  | .ptag => { s with ptag := v.setWidth 8 }
  | .bitsize => if s.clocked then s.dropWrite else { s with bitsize := v.setWidth 16 }
  | .b58n => { s with b58n := v.setWidth 8 }
  | .blen => { s with blen := v.setWidth 8 }
  | .slen => { s with slen := v.setWidth 8 }
  | .config r j =>
    if s.params.slotWords ≤ j then s
    else if s.configLocked r then s.dropWrite
    else s.setConfig r (slotWrite s.params (s.config r) j v)
  | .field i j => s.setX i (slotWrite s.params (s.x i) j v)
  | .buf => { s with mem := s.mem.writeWord o v }
  | .str => { s with mem := s.mem.writeWord o v }
  | .cmd => { s with mem := s.mem.writeWord o v }

/-- A write to a mapped word: while BUSY = 1 only STATUS takes it, any other is dropped with HOSTERR and a normal
response (R71; log 9). -/
def State.writeWord (s : State) (o : Nat) (pl : Place) (v : Word32) : State :=
  if s.busy && pl != .status then s.dropWrite.answer 0#32 else (s.storeAt o pl v).answer 0#32

/-- A host write. -/
def State.hostWrite (s : State) (o width : Nat) (v : Word32) : State :=
  match accessPlace s.params o width with
  | none => s.refuseAccess
  | some pl => s.writeWord o pl v

/-! ## Reset and the host's turns -/

/-- The Reset event (70_reset_and_hazards.md R270 to R272). The turns still to come and the count of free draws are
the model's own and stay (log 15). -/
def State.resetEvent (s : State) : State := { State.resetOf s.params with agenda := s.agenda, draws := s.draws }

/-- An offset of the window, 0x000 to 0xFFF (R62). -/
abbrev inWindow (o : Nat) : Prop := o < 0x1000

/-- A turn of the host or of the reset input; the engine's own turn is the argument `engine`. -/
def takeTurn (engine : State → Host.Outcome State Fault Refusal) (t : Turn) (s : State) :
    Host.Outcome State Fault Refusal :=
  match t with
  | .engine => engine s
  | .read o width => if inWindow o then .next (s.hostRead o width) else .fault .outsideWindow
  | .write o width v => if inWindow o then .next (s.hostWrite o width v) else .fault .outsideWindow
  | .reset => .next s.resetEvent

end Sys2Proof.Machine
end

