-- ==== Sys2Proof/Machine/Step.lean ====
section
/-! DEFINITION. The step of the machine: the engine's step (40_sequencer.md R121), or the turn of the host or of the
reset input that the agenda lists next (log 1). -/

namespace Sys2Proof.Machine

/-- The engine's step (R121): fetch, decode, execute. It is enabled only while BUSY = 1; an idle block changes no
state on its own (60_exceptions.md R256). -/
def engineStep (s : State) : Host.Outcome State Fault Refusal :=
  if s.busy then
    match decode s.fetch with
    | .error _ => .next (s.stopError .illegalCommand)
    | .ok i => exec i s
  else .next s

/-- One step: the turn at the head of the agenda, or the engine's when no turn is listed. -/
def step (s : State) : Host.Outcome State Fault Refusal :=
  match s.agenda with
  | [] => engineStep s
  | t :: rest => takeTurn engineStep t { s with agenda := rest }

/-- The state with an instruction where the very next step fetches it: the word at CMDMEM[pc], the run in progress,
and no turn before the engine's. It stands for the host's load and START (log 2). -/
def State.withFetchWord (s : State) (nbits w : Nat) : State :=
  { s.setCmdWord s.pc (BitVec.ofNat 32 (w % 2 ^ nbits)) with busy := true, agenda := [] }

end Sys2Proof.Machine
end

