-- ==== Sys2Proof/Safety.lean ====
section
/-! DEFINITION. The terms the statements use: the invariant of the machine, and what it means for a point value of
the model to stand for a point of the curve's group. -/

namespace Sys2Proof.Machine

/-- An offset of BUF, STR or CMDMEM of an instance (20_memory.md R63): the offsets its byte memory may list. -/
def memoryOffset (c : Params) (o : Nat) : Bool :=
  (bufBase ≤ o && o < bufBase + c.bufBytes) || (strBase ≤ o && o < strBase + c.strBytes) ||
  (cmdBase ≤ o && o < cmdBase + 0x100)

/-- What every reachable state satisfies. -/
structure State.Inv (s : State) : Prop where
  /-- The instance's parameters have allowed values (00_scope.md R6). -/
  parameters : s.params.allowed = true
  /-- Every field register holds W bits (10_state.md R21). -/
  fieldWidth : ∀ i, (s.x i) < 2 ^ s.params.w
  /-- Every configuration register holds W bits (10_state.md R29). -/
  configWidth : ∀ r, (s.config r) < 2 ^ s.params.w
  /-- A held field lock passed its check (10_state.md R30, R31). -/
  fieldLock : s.flocked = true → s.fieldLockPasses = true
  /-- A held curve lock passed its check, the field lock included (R30, R32). -/
  curveLock : s.clocked = true → s.curveLockPasses = true
  /-- During a run DONE and ERR are 0 and the error record is clear (40_sequencer.md R120, 20_memory.md R73). -/
  running : s.busy = true →
    s.done = false ∧ s.err = false ∧ s.errcode = 0#8 ∧ s.errpc = 0#6 ∧ s.errcmd = 0#32
  /-- A run ends in one way (R132). -/
  ended : ¬ (s.done = true ∧ s.err = true)
  /-- DONE = 1 comes with ERRCODE = 0 (R132). -/
  doneClean : s.done = true → s.errcode = 0#8
  /-- ERR = 1 comes with ERRCODE ≠ 0 (R132). -/
  errCoded : s.err = true → s.errcode ≠ 0#8
  /-- ERRCODE holds no value outside the code table (60_exceptions.md R230). -/
  codeListed : s.errcode = 0#8 ∨ ∃ k : ErrKind, s.errcode = k.code
  /-- The recorded error stands at PC: PC = ERRPC after the stop, until the next START (R232). -/
  errorAtPc : s.errcode ≠ 0#8 → s.errpc = s.pc
  /-- The byte memory keeps its canonical form. -/
  memoryForm : s.mem.wf
  /-- The byte memory lists only offsets of BUF, STR and CMDMEM. -/
  memoryPlace : ∀ c ∈ s.mem, memoryOffset s.params c.1 = true

/-- The mapped word offsets of an instance's window (20_memory.md R63): the control registers, P to N, F0 to F15 and
BUF, STR, CMDMEM. Every other offset of the window is reserved (R64). -/
def mappedOffset (c : Params) (o : Nat) : Bool :=
  o < 0x040 || (0x100 ≤ o && o < 0x280) || (0x400 ≤ o && o < 0x800 + c.bufBytes) ||
  (0x900 ≤ o && o < 0x900 + c.strBytes) || (0xC00 ≤ o && o < 0xD00)

/-- An access of the window that the block does not perform: a reserved offset, a width other than 32 bits, or a
misaligned offset (R64, R69, R70). -/
def RefusedAccess (c : Params) (o width : Nat) : Prop := width ≠ 4 ∨ o % 4 ≠ 0 ∨ mappedOffset c o = false

/-- The slot of a configuration register (R63). -/
def configSlot : ConfigReg → Nat
  | .p => 0x100
  | .a => 0x140
  | .b => 0x180
  | .gx => 0x1C0
  | .gy => 0x200
  | .n => 0x240

/-- The slot of a field register (R63). -/
def fieldSlot (i : FReg) : Nat := 0x400 + 0x40 * i.val

/-- The curve-lock check in the words of 10_state.md R32, with a given state of the field lock. -/
def CurveLockCheck (s : State) (flocked : Bool) : Prop :=
  flocked = true ∧
  s.a < s.p ∧ s.b < s.p ∧ s.gx < s.p ∧ s.gy < s.p ∧
  (s.p : Int) ∣ (s.gy : Int) ^ 2 - ((s.gx : Int) ^ 3 + s.a * s.gx + s.b) ∧
  1 ≤ s.bitsize.toNat ∧ s.bitsize.toNat ≤ s.params.w ∧ 1 ≤ s.n ∧ s.n ≤ 2 ^ s.bitsize.toNat

/-- The curve `y² = x³ + A·x + B` over the field of order p, as the library has it (R17, "Elliptic curve point
group"). -/
def shortCurve (p a b : Nat) : WeierstrassCurve (ZMod p) := ⟨0, 0, 0, (a : ZMod p), (b : ZMod p)⟩

/-- A point value of the model stands for a point of the curve's group: the identity for `Inf`, and a pair of field
elements for the point with these coordinates. -/
def Represents (p a b : Nat) (u : Point) (U : (shortCurve p a b).toAffine.Point) : Prop :=
  match u with
  | .inf => U = WeierstrassCurve.Affine.Point.zero
  | .fin x y => x < p ∧ y < p ∧
      ∃ h : (shortCurve p a b).toAffine.Nonsingular (x : ZMod p) (y : ZMod p),
        U = WeierstrassCurve.Affine.Point.some (x : ZMod p) (y : ZMod p) h

end Sys2Proof.Machine
end

