-- ==== Sys2Proof/Certificates/Slice0/Obligations.lean ====
section
/-! DEFINITION. The statements for the provers. Each says which rule of spec/ it formalises; a clause that rests on the
model's own choice names its log entry. -/

open Sys2Proof Sys2Proof.Machine

/-! ## Reset, the step, the invariant -/

/-- 10_state.md R48: the value of every register, every byte and every word after reset, with the constants ID and
PARAM and the irq output, for every instance; `State.reset` is the instance at the parameter values that 00_scope.md
R6 takes. -/
def Obligations.ResetLeavesTheStatedValues : Prop :=
  State.reset = State.resetOf ⟨256, 64, 128⟩ ∧
  (State.reset.hostRead 0x004 4).reply = some ⟨0x80400100#32, false⟩ ∧
  ∀ c : Params, c.allowed = true →
    let s := State.resetOf c
    s.params = c ∧
    (∀ i, s.x i = 0) ∧ s.ptag = 0xFF#8 ∧
    s.p = 0 ∧ s.a = 0 ∧ s.b = 0 ∧ s.gx = 0 ∧ s.gy = 0 ∧ s.n = 0 ∧ s.bitsize = 0#16 ∧
    s.flocked = false ∧ s.clocked = false ∧ s.ferr = false ∧ s.cerr = false ∧
    s.strict58 = false ∧ s.ieDone = false ∧ s.ieErr = false ∧ s.ieHost = false ∧
    s.busy = false ∧ s.done = false ∧ s.err = false ∧ s.hosterr = false ∧ s.onc = false ∧ s.irq = false ∧
    s.entry = 0#6 ∧ s.pc = 0#6 ∧ s.errpc = 0#6 ∧ s.errcode = 0#8 ∧ s.errcmd = 0#32 ∧
    (∀ j, j < c.bufBytes → s.mem.read (bufBase + j) = 0#8) ∧
    (∀ j, j < c.strBytes → s.mem.read (strBase + j) = 0#8) ∧
    s.blen = 0#8 ∧ s.slen = 0#8 ∧ s.b58n = 20#8 ∧ s.b58ver = 0#8 ∧ (∀ i, s.cmdWord i = 0#32) ∧
    (s.hostRead 0x000 4).reply = some ⟨0xEC580001#32, false⟩ ∧
    (s.hostRead 0x004 4).reply =
      some ⟨BitVec.ofNat 32 (c.w + 0x10000 * c.bufBytes + 0x1000000 * c.strBytes), false⟩

/-- The invariant `State.Inv` holds at reset, for every instance with allowed parameters (00_scope.md R6), so for
`State.reset`. -/
def Obligations.ResetMeetsTheInvariant : Prop :=
  State.reset.Inv ∧ ∀ c : Params, c.allowed = true → (State.resetOf c).Inv

/-- Every step, of the engine, of the host or of the reset input, keeps `State.Inv`: the parameters stay allowed and
every register holds W bits (00_scope.md R6, 10_state.md R21, R29), held locks passed their checks (10_state.md R30 to
R32), a run in progress has a clear record (40_sequencer.md R120), a run ends in one way (R132), ERRCODE stays in its
table (60_exceptions.md R230), PC = ERRPC after an error (R232), and the byte memory keeps its canonical form and its
places. -/
def Obligations.EveryStepKeepsTheInvariant : Prop :=
  ∀ s t : State, s.Inv → step s = .next t → t.Inv

/-- 40_sequencer.md R121: while BUSY = 1 the engine's turn executes the command that CMDMEM[pc] decodes to. The turn
is the engine's when no turn is listed, or when the engine's is listed first (log 1). -/
def Obligations.StepRunsTheDecodedCommand : Prop :=
  ∀ (s : State) (i : Instr), s.busy = true → decode (s.cmdWord s.pc) = .ok i →
    i.wellFormed = true ∧
    (s.agenda = [] → step s = exec i s) ∧
    (∀ rest, s.agenda = .engine :: rest → step s = exec i { s with agenda := rest })

/-- 30_encoding.md R100, R101: a word that decodes to no command stops the run with IllegalCommand and changes nothing
but the error record, ERR and BUSY; the word 0 is such a word. 60_exceptions.md R256, 70_reset_and_hazards.md R273:
while BUSY = 0 the engine changes no state. Both whether its turn is listed first or none is listed (log 1). -/
def Obligations.IllegalWordStopsAndIdleEngineWaits : Prop :=
  (∀ (s : State) (r : Illegal), s.busy = true → decode (s.cmdWord s.pc) = .error r →
    (s.agenda = [] → step s = .next { s with
      errcode := 0x10#8, errpc := s.pc, errcmd := s.cmdWord s.pc, err := true, busy := false }) ∧
    (∀ rest, s.agenda = .engine :: rest → step s = .next { s with
      agenda := rest
      errcode := 0x10#8, errpc := s.pc, errcmd := s.cmdWord s.pc, err := true, busy := false })) ∧
  decode 0#32 = .error .unassignedOpcode ∧
  (∀ s : State, s.busy = false →
    (s.agenda = [] → step s = .next s) ∧
    (∀ rest, s.agenda = .engine :: rest → step s = .next { s with agenda := rest }))

/-- A step takes the turn the agenda lists first: a host read or write of the window, or the reset input (log 1). A
reset, at any time and in any state, gives the instance's reset state (70_reset_and_hazards.md R270 to R272); the
turns to come and the count of free draws are the model's own (log 15). An offset outside the window is no access to
the block (log 7). -/
def Obligations.StepTakesTheListedTurn : Prop :=
  ∀ (s : State) (rest : List Turn) (o w : Nat) (v : Word32),
    (s.agenda = .read o w :: rest → o < 0x1000 → step s = .next ({ s with agenda := rest }.hostRead o w)) ∧
    (s.agenda = .write o w v :: rest → o < 0x1000 → step s = .next ({ s with agenda := rest }.hostWrite o w v)) ∧
    (s.agenda = .read o w :: rest → ¬ o < 0x1000 → step s = .fault .outsideWindow) ∧
    (s.agenda = .write o w v :: rest → ¬ o < 0x1000 → step s = .fault .outsideWindow) ∧
    (s.agenda = .reset :: rest → step s = .next { State.resetOf s.params with agenda := rest, draws := s.draws })

/-- Every command answers a next state, whatever the state; a step is never refused, and it faults only on a host turn
outside the window (log 7). -/
def Obligations.StepIsNeverRefused : Prop :=
  (∀ (i : Instr) (s : State), ∃ t : State, exec i s = .next t) ∧
  (∀ (s : State) (r : Refusal), step s ≠ .refused r) ∧
  (∀ (s : State) (r : Fault), step s = .fault r →
    ∃ o w rest, ¬ o < 0x1000 ∧
      (s.agenda = .read o w :: rest ∨ ∃ v, s.agenda = .write o w v :: rest))

/-- 40_sequencer.md R131, R132: with only the engine moving, a run in progress is over after at most 64 - PC steps,
and it ended in exactly one of two ways. -/
def Obligations.EveryRunEnds : Prop :=
  ∀ s : State, s.Inv → s.agenda = [] → s.busy = true →
    ∃ t : State, Host.Core.run Sys2Proof.core (64 - s.pc.toNat) s = .next t ∧ t.busy = false ∧
      ((t.done = true ∧ t.err = false ∧ t.errcode = 0#8) ∨ (t.done = false ∧ t.err = true ∧ t.errcode ≠ 0#8))

/-! ## Encoding -/

/-- Words written out from the formats of 30_encoding.md R92, one or more of each family, decode to their commands. -/
def Obligations.WordsOfEachFamilyDecode : Prop :=
  decode 0x04000000#32 = .ok .halt ∧
  decode 0x0D480000#32 = .ok (.fmov 5 2) ∧
  decode 0x10C0002F#32 = .ok (.fldi 3 47#16) ∧
  decode 0x14000002#32 = .ok (.fldc 0 .pm2) ∧
  decode 0x20C48000#32 = .ok (.fadd 3 1 2) ∧
  decode 0x34C4A000#32 = .ok (.fexp 3 1 2 true) ∧
  decode 0x4010C000#32 = .ok (.faddn 0 4 3) ∧
  decode 0x61020000#32 = .ok (.ecadd 2 0 1) ∧
  decode 0x69880000#32 = .ok (.ecmul 3 0 8) ∧
  decode 0x80100104#32 = .ok (.tobytes 4 4#8 .little) ∧
  decode 0xA0000005#32 = .ok (.b58enc 5#8) ∧
  decode 0xA4000000#32 = .ok .b58dec ∧
  decode 0x4038C000#32 = .error .windowPastF15 ∧
  decode 0x14000009#32 = .error .reservedSelector ∧
  decode 0x6C100000#32 = .error .reservedBit

/-- Decode and encode agree, one way: for every well-formed command, with every operand at every value its encoding
admits, decoding its word gives it back (30_encoding.md R92, R96, R97). -/
def Obligations.DecodeOfEncodeIsTheCommand : Prop :=
  ∀ i : Instr, i.wellFormed = true → decode (encode i) = .ok i

/-- Decode and encode agree, the other way: a legal word has one meaning and carries no other bit (R92, R98). -/
def Obligations.EncodeOfDecodeIsTheWord : Prop :=
  ∀ (w : Word32) (i : Instr), decode w = .ok i → encode i = w ∧ i.wellFormed = true

/-- The decoder, written from the formats, agrees with the opcode map by match and mask (R96, R98, R100): a legal word
selects its command's row, a word is illegal for its opcode or a reserved bit exactly when no row selects it, and no
two rows overlap. -/
def Obligations.DecoderAgreesWithTheOpcodeMap : Prop :=
  (∀ (w : Word32) (i : Instr), decode w = .ok i →
    ∃ r ∈ opcodeTable, w &&& r.mask = r.bits ∧ r.mnemonic = i.mnemonic) ∧
  (∀ w : Word32, (decode w = .error .unassignedOpcode ∨ decode w = .error .reservedBit) ↔
    ∀ r ∈ opcodeTable, w &&& r.mask ≠ r.bits) ∧
  opcodeTable.Pairwise (fun r q => ∀ w : Word32, ¬ (w &&& r.mask = r.bits ∧ w &&& q.mask = q.bits))

/-! ## The sequencer -/

/-- 40_sequencer.md R121, R123: after a command other than HALT completes at index 63 the run stops with
CommandOverrun and its writes are kept; otherwise the index goes up by one, and never wraps. -/
def Obligations.AdvanceOrOverrun : Prop :=
  ∀ s : State,
    (s.pc = 63#6 → s.advance = { s with
      errcode := 0x13#8, errpc := 63#6, errcmd := s.cmdWord 63#6, err := true, busy := false }) ∧
    (s.pc ≠ 63#6 → s.advance = { s with pc := s.pc + 1#6 } ∧ (s.pc + 1#6).toNat = s.pc.toNat + 1)

/-- 60_exceptions.md R230, R232, R236: the stop on error and the number of every error. -/
def Obligations.ErrorStopWritesTheRecord : Prop :=
  (∀ (s : State) (e : ErrKind), s.stopError e = { s with
    errcode := e.code, errpc := s.pc, errcmd := s.cmdWord s.pc, err := true, busy := false }) ∧
  ErrKind.code .invalidFieldElement = 0x01#8 ∧ ErrKind.code .insufficientOperands = 0x02#8 ∧
  ErrKind.code .divisionByZero = 0x03#8 ∧ ErrKind.code .undefinedExponent = 0x04#8 ∧
  ErrKind.code .overflow = 0x05#8 ∧ ErrKind.code .checksumMismatch = 0x06#8 ∧
  ErrKind.code .invalidCharacter = 0x07#8 ∧ ErrKind.code .notOnCurve = 0x08#8 ∧
  ErrKind.code .illegalCommand = 0x10#8 ∧ ErrKind.code .notConfigured = 0x11#8 ∧
  ErrKind.code .bufferBound = 0x12#8 ∧ ErrKind.code .commandOverrun = 0x13#8

/-- 40_sequencer.md R122, R124, R125, R127: HALT ends the run with PC kept, NOP does nothing, FMOV copies without a
range check, FLDI loads the zero-extended immediate; each in every state. -/
def Obligations.HaltNopMoveAndImmediateComplete : Prop :=
  ∀ (s : State) (rd rs1 : FReg) (imm16 : BitVec 16),
    exec .halt s = .next { s with done := true, busy := false } ∧
    exec .nop s = .next s.advance ∧
    exec (.fmov rd rs1) s = .next { s with f := s.f.set rd s.f[rs1] }.advance ∧
    exec (.fldi rd imm16) s = .next { s with f := s.f.set rd imm16.toNat }.advance

/-- 40_sequencer.md R126: FLDC, selector by selector, with its lock held; and NotConfigured without it. P - 1 and P -
2 are the integers, for a locked P is at least 3 (10_state.md R31). -/
def Obligations.FldcLoadsTheSelectedValue : Prop :=
  ∀ (s : State) (rd : FReg),
    (s.flocked = true → exec (.fldc rd .p) s = .next (s.setX rd s.p).advance) ∧
    (s.flocked = true → 3 ≤ s.p →
      exec (.fldc rd .pm1) s = .next (s.setX rd (s.p - 1)).advance ∧
      exec (.fldc rd .pm2) s = .next (s.setX rd (s.p - 2)).advance) ∧
    (s.clocked = true →
      exec (.fldc rd .a) s = .next (s.setX rd s.a).advance ∧
      exec (.fldc rd .b) s = .next (s.setX rd s.b).advance ∧
      exec (.fldc rd .gx) s = .next (s.setX rd s.gx).advance ∧
      exec (.fldc rd .gy) s = .next (s.setX rd s.gy).advance ∧
      exec (.fldc rd .n) s = .next (s.setX rd s.n).advance ∧
      exec (.fldc rd .bitsize) s = .next (s.setX rd s.bitsize.toNat).advance) ∧
    (s.flocked = false → ∀ sel ∈ [Sel.p, .pm1, .pm2],
      exec (.fldc rd sel) s = .next (s.stopError .notConfigured)) ∧
    (s.clocked = false → ∀ sel ∈ [Sel.a, .b, .gx, .gy, .n, .bitsize],
      exec (.fldc rd sel) s = .next (s.stopError .notConfigured))

/-- 40_sequencer.md R128, R129: PINF zeroes both coordinates and sets the tag, PFIN clears the tag and leaves the
coordinates; nothing else changes but the sequencer's advance. -/
def Obligations.PinfAndPfinComplete : Prop :=
  ∀ (s : State) (q : PReg),
    (∃ t : State, exec (.pinf q) s = .next t.advance ∧ t = { s with f := t.f, ptag := t.ptag } ∧
      (∀ i : FReg, t.x i = if i.val / 2 = q.val then 0 else s.x i) ∧
      (∀ k : PReg, t.ptag.getLsbD k = if k = q then true else s.ptag.getLsbD k)) ∧
    (∃ t : State, exec (.pfin q) s = .next t.advance ∧ t = { s with ptag := t.ptag } ∧
      (∀ k : PReg, t.ptag.getLsbD k = if k = q then false else s.ptag.getLsbD k))

/-- 10_state.md R22: a point register is F(2i), F(2i+1) and PTAG[i]; a write of a point changes these and nothing
else, and is read back; a tagged register reads as the identity whatever its coordinates hold; a register write
changes no tag. -/
def Obligations.PointRegistersAreAliases : Prop :=
  ∀ (s : State) (q : PReg),
    s.point q = (if s.ptag.getLsbD q then .inf
      else .fin (s.f[2 * q.val]'(by omega)) (s.f[2 * q.val + 1]'(by omega))) ∧
    (∀ pt : Point,
      (s.setPoint q pt).point q = pt ∧
      (s.setPoint q pt = { s with f := (s.setPoint q pt).f, ptag := (s.setPoint q pt).ptag }) ∧
      (∀ i : FReg, i.val / 2 ≠ q.val → (s.setPoint q pt).x i = s.x i) ∧
      (∀ k : PReg, k ≠ q → (s.setPoint q pt).point k = s.point k ∧
        (s.setPoint q pt).ptag.getLsbD k = s.ptag.getLsbD k)) ∧
    (∀ i : FReg, (s.setPoint q .inf).x i = if i.val / 2 = q.val then 0 else s.x i) ∧
    (∀ (i : FReg) (v : Elem), (s.setX i v).ptag = s.ptag ∧
      ∀ k : PReg, s.ptag.getLsbD k = true → (s.setX i v).point k = .inf)

/-! ## The field -/

/-- 42_field.md R152 to R154: FADD, FSUB and FMUL on valid operands of a locked field, in exact integers. -/
def Obligations.FaddFsubFmulComplete : Prop :=
  ∀ (s : State) (rd rs1 rs2 : FReg), s.flocked = true →
    s.x rs1 < s.p → s.x rs2 < s.p →
    exec (.fadd rd rs1 rs2) s =
      .next (s.setX rd ((s.x rs1 + s.x rs2) % s.p)).advance ∧
    exec (.fsub rd rs1 rs2) s =
      .next (s.setX rd (((s.x rs1 : Int) - s.x rs2) % (s.p : Int)).toNat).advance ∧
    exec (.fmul rd rs1 rs2) s =
      .next (s.setX rd ((s.x rs1 * s.x rs2) % s.p)).advance

/-- 42_field.md R155, R157: FDIV multiplies by y^(P-2) mod P and FINV gives it, with the power as a power of integers
(00_scope.md R14), whether or not P is prime. -/
def Obligations.FdivFinvComplete : Prop :=
  ∀ (s : State) (rd rs1 rs2 : FReg), s.flocked = true →
    s.x rs1 < s.p → s.x rs2 < s.p → s.x rs2 ≠ 0 →
    exec (.fdiv rd rs1 rs2) s =
      .next (s.setX rd (s.x rs1 * (s.x rs2 ^ (s.p - 2) % s.p) % s.p)).advance ∧
    exec (.finv rd rs2) s = .next (s.setX rd (s.x rs2 ^ (s.p - 2) % s.p)).advance

/-- 42_field.md R156: FEXP, with the exponent the integer m or -m, reduced mod P - 1, and the zero base apart. -/
def Obligations.FexpCompletes : Prop :=
  ∀ (s : State) (rd rs1 rs2 : FReg) (neg : Bool), s.flocked = true → s.x rs1 < s.p →
    let base := s.x rs1
    let e : Int := if neg then -(s.x rs2 : Int) else (s.x rs2 : Int)
    (base ≠ 0 → exec (.fexp rd rs1 rs2 neg) s =
      .next (s.setX rd (base ^ (e % ((s.p : Int) - 1)).toNat % s.p)).advance) ∧
    (base = 0 → 0 < e → exec (.fexp rd rs1 rs2 neg) s = .next (s.setX rd 0).advance) ∧
    (base = 0 → e ≤ 0 → exec (.fexp rd rs1 rs2 neg) s = .next (s.stopError .undefinedExponent))

/-- 42_field.md R151, R158 to R161: the folds over F(rs) to F(rs+cnt-1) give the exact sum, difference or product
reduced once at the end. -/
def Obligations.FoldsCompleteAndReduceOnce : Prop :=
  ∀ (s : State) (rd rs : FReg) (cnt : Count) (vs : List Nat),
    rs.val + cnt.val - 1 ≤ 15 → 2 ≤ cnt.val → s.flocked = true →
    vs = (List.range cnt.val).map (fun j => s.f.toList.getD (rs.val + j) 0) →
    (∀ v ∈ vs, v < s.p) →
    exec (.faddn rd rs cnt) s = .next (s.setX rd (vs.sum % s.p)).advance ∧
    exec (.fsubn rd rs cnt) s =
      .next (s.setX rd (((vs.headD 0 : Int) - (vs.tail.sum : Int)) % (s.p : Int)).toNat).advance ∧
    exec (.fmuln rd rs cnt) s = .next (s.setX rd (vs.prod % s.p)).advance

/-- 60_exceptions.md R233 for the field commands: NotConfigured comes first, then InsufficientOperands, then
InvalidFieldElement over all operands, then DivisionByZero; each stops the run with no other effect. A fold whose
window passes F15 is no legal command (30_encoding.md R97); given it anyway, `exec` stops as for an illegal word,
which is the model's choice (log 13). -/
def Obligations.FieldErrorsInOrder : Prop :=
  ∀ (s : State) (rd rs1 rs2 : FReg) (neg : Bool) (cnt : Count),
    (2 ≤ cnt.val → 16 < rs1.val + cnt.val → ∀ i ∈ [Instr.faddn rd rs1 cnt, .fsubn rd rs1 cnt, .fmuln rd rs1 cnt],
      i.wellFormed = false ∧ exec i s = .next (s.stopError .illegalCommand)) ∧
    (s.flocked = false →
      (∀ i ∈ [Instr.fadd rd rs1 rs2, .fsub rd rs1 rs2, .fmul rd rs1 rs2, .fdiv rd rs1 rs2, .finv rd rs1,
          .fexp rd rs1 rs2 neg], exec i s = .next (s.stopError .notConfigured)) ∧
      (cnt.val < 2 ∨ rs1.val + cnt.val ≤ 16 →
        ∀ i ∈ [Instr.faddn rd rs1 cnt, .fsubn rd rs1 cnt, .fmuln rd rs1 cnt],
          exec i s = .next (s.stopError .notConfigured))) ∧
    (s.flocked = true → cnt.val < 2 → ∀ i ∈ [Instr.faddn rd rs1 cnt, .fsubn rd rs1 cnt, .fmuln rd rs1 cnt],
      exec i s = .next (s.stopError .insufficientOperands)) ∧
    (s.flocked = true → 2 ≤ cnt.val → rs1.val + cnt.val ≤ 16 →
      (∃ j : FReg, rs1.val ≤ j.val ∧ j.val < rs1.val + cnt.val ∧ s.p ≤ s.x j) →
      ∀ i ∈ [Instr.faddn rd rs1 cnt, .fsubn rd rs1 cnt, .fmuln rd rs1 cnt],
        exec i s = .next (s.stopError .invalidFieldElement)) ∧
    (s.flocked = true → (s.p ≤ s.x rs1 ∨ s.p ≤ s.x rs2) →
      ∀ i ∈ [Instr.fadd rd rs1 rs2, .fsub rd rs1 rs2, .fmul rd rs1 rs2, .fdiv rd rs1 rs2],
        exec i s = .next (s.stopError .invalidFieldElement)) ∧
    (s.flocked = true → s.p ≤ s.x rs1 →
      ∀ i ∈ [Instr.finv rd rs1, .fexp rd rs1 rs2 neg], exec i s = .next (s.stopError .invalidFieldElement)) ∧
    (s.flocked = true → s.x rs1 < s.p → s.x rs2 = 0 →
      exec (.fdiv rd rs1 rs2) s = .next (s.stopError .divisionByZero)) ∧
    (s.flocked = true → 0 < s.p → s.x rs1 = 0 →
      exec (.finv rd rs1) s = .next (s.stopError .divisionByZero))

/-- 42_field.md R161: a field command changes no register but its destination `rd`, and unless it stops on an error of
its own it writes there a value below P. -/
def Obligations.FieldResultsLieBelowP : Prop :=
  ∀ (s t : State) (rd rs1 rs2 : FReg) (neg : Bool) (cnt : Count),
    ∀ i ∈ [Instr.fadd rd rs1 rs2, .fsub rd rs1 rs2, .fmul rd rs1 rs2, .fdiv rd rs1 rs2, .finv rd rs1,
        .fexp rd rs1 rs2 neg, .faddn rd rs1 cnt, .fsubn rd rs1 cnt, .fmuln rd rs1 cnt],
      exec i s = .next t →
        (∀ r : FReg, r ≠ rd → t.x r = s.x r) ∧
        (t.x rd < s.p ∨ ∃ e : ErrKind, e ≠ .commandOverrun ∧ t = s.stopError e)

/-- 42_field.md R163: for a prime P, FMUL t, a, b then FDIV t, t, b gives a; for every locked P, FSUB t, a, b then
FADD t, t, b gives a. -/
def Obligations.FieldInverseAndAdditiveIdentity : Prop :=
  ∀ (s : State) (rt ra rb : FReg), s.flocked = true → s.p % 2 = 1 → 3 ≤ s.p →
    s.x ra < s.p → s.x rb < s.p → rt ≠ rb →
    (Nat.Prime s.p → s.x rb ≠ 0 →
      ∃ u v : State, exec (.fmul rt ra rb) s = .next u ∧ exec (.fdiv rt rt rb) u = .next v ∧ v.x rt = s.x ra) ∧
    (∃ u v : State, exec (.fsub rt ra rb) s = .next u ∧ exec (.fadd rt rt rb) u = .next v ∧ v.x rt = s.x ra)

/-! ## The curve -/

/-- 43_curve.md R184, R185, R187, R188: the point commands on checked operands of a locked curve write the group law's
result, ECMULG without any operand check; ECDBL is ECADD of an operand with itself. -/
def Obligations.PointCommandsComplete : Prop :=
  ∀ (s : State) (qd qa qb : PReg) (rs : FReg), s.clocked = true →
    (s.inRange (s.point qa) = true → s.onCurve (s.point qa) = true →
      (s.inRange (s.point qb) = true → s.onCurve (s.point qb) = true →
        exec (.ecadd qd qa qb) s =
          .next (s.setPoint qd (pointAdd s.p s.a (s.point qa) (s.point qb))).advance) ∧
      exec (.ecdbl qd qa) s =
        .next (s.setPoint qd (pointAdd s.p s.a (s.point qa) (s.point qa))).advance ∧
      exec (.ecdbl qd qa) s = exec (.ecadd qd qa qa) s ∧
      exec (.ecmul qd qa rs) s =
        .next (s.setPoint qd
          (scalarMul s.p s.a s.n s.bitsize.toNat (s.point qa) (s.x rs))).advance) ∧
    exec (.ecmulg qd rs) s =
      .next (s.setPoint qd (scalarMul s.p s.a s.n s.bitsize.toNat
        (.fin s.gx s.gy) (s.x rs))).advance

/-- 43_curve.md R180, 60_exceptions.md R233 for the curve commands: NotConfigured first, then InvalidFieldElement over
all point operands, then NotOnCurve; the scalar is never checked. -/
def Obligations.CurveErrorsInOrder : Prop :=
  ∀ (s : State) (qd qa qb : PReg) (rs : FReg),
    (s.clocked = false →
      ∀ i ∈ [Instr.ecadd qd qa qb, .ecdbl qd qa, .ecmul qd qa rs, .ecmulg qd rs, .ecchk qa],
        exec i s = .next (s.stopError .notConfigured)) ∧
    (s.clocked = true → (s.inRange (s.point qa) = false ∨ s.inRange (s.point qb) = false) →
      exec (.ecadd qd qa qb) s = .next (s.stopError .invalidFieldElement)) ∧
    (s.clocked = true → s.inRange (s.point qa) = false → ∀ i ∈ [Instr.ecdbl qd qa, .ecmul qd qa rs, .ecchk qa],
      exec i s = .next (s.stopError .invalidFieldElement)) ∧
    (s.clocked = true → s.inRange (s.point qa) = true → s.inRange (s.point qb) = true →
      (s.onCurve (s.point qa) = false ∨ s.onCurve (s.point qb) = false) →
      exec (.ecadd qd qa qb) s = .next (s.stopError .notOnCurve)) ∧
    (s.clocked = true → s.inRange (s.point qa) = true → s.onCurve (s.point qa) = false →
      ∀ i ∈ [Instr.ecdbl qd qa, .ecmul qd qa rs], exec i s = .next (s.stopError .notOnCurve))

/-- 43_curve.md R189: ECCHK writes ONC, 1 for the identity and otherwise by the curve equation, and nothing else. -/
def Obligations.EcchkSetsOnc : Prop :=
  ∀ (s : State) (qa : PReg), s.clocked = true →
    (s.point qa = .inf → exec (.ecchk qa) s = .next { s with onc := true }.advance) ∧
    (∀ u v : Nat, s.point qa = .fin u v → u < s.p → v < s.p →
      exec (.ecchk qa) s = .next { s with
        onc := decide ((s.p : Int) ∣ (v : Int) ^ 2 - ((u : Int) ^ 3 + s.a * u + s.b)) }.advance)

/-- 43_curve.md R181, R190: ECADD is commutative over a prime field: swapping its operands changes nothing, the errors
included. -/
def Obligations.EcaddCommutes : Prop :=
  ∀ (s : State) (qd qa qb : PReg), Nat.Prime s.p →
    exec (.ecadd qd qa qb) s = exec (.ecadd qd qb qa) s

/-- 43_curve.md R181: over an odd prime field, the result of ECADD, ECDBL and ECMUL on points of the curve is a point
of the curve with coordinates below P, and so is the result of ECMULG where the lock has checked the generator
(10_state.md R32, `State.Inv`). -/
def Obligations.PointResultsStayOnTheCurve : Prop :=
  ∀ (s : State) (qd qa qb : PReg) (rs : FReg), s.clocked = true → Nat.Prime s.p → s.p ≠ 2 →
    (s.inRange (s.point qa) = true → s.onCurve (s.point qa) = true →
      s.inRange (s.point qb) = true → s.onCurve (s.point qb) = true →
      ∀ i ∈ [Instr.ecadd qd qa qb, .ecdbl qd qa, .ecmul qd qa rs],
        ∃ t : State, exec i s = .next t ∧ t.inRange (t.point qd) = true ∧ t.onCurve (t.point qd) = true) ∧
    (s.Inv → ∃ t : State, exec (.ecmulg qd rs) s = .next t ∧
      t.inRange (t.point qd) = true ∧ t.onCurve (t.point qd) = true)

/-- 43_curve.md R181 against the mathematical library: over an odd prime field, ADD is the addition of the group of
nonsingular points of the Weierstrass curve. -/
def Obligations.PointAddIsTheGroupLaw : Prop :=
  ∀ (p a b : Nat) [Fact p.Prime], p ≠ 2 → ∀ (u v : Point) (U V : (shortCurve p a b).toAffine.Point),
    Represents p a b u U → Represents p a b v V → Represents p a b (pointAdd p a u v) (U + V)

/-- 43_curve.md R186: with the scalar reduced mod N and N at most 2^BITSIZE, the double-and-add loop computes the
group multiple (k mod N)·Pt. -/
def Obligations.ScalarMulIsTheGroupMultiple : Prop :=
  ∀ (p a b n bits k : Nat) [Fact p.Prime], p ≠ 2 → 1 ≤ n → n ≤ 2 ^ bits →
    ∀ (u : Point) (U : (shortCurve p a b).toAffine.Point),
      Represents p a b u U → Represents p a b (scalarMul p a n bits u k) ((k % n) • U)

/-- 43_curve.md R186, R187, for every modulus: a scalar that is a multiple of N gives the identity, the scalar 1 gives
the point, and a scalar counts only mod N. -/
def Obligations.ScalarCornerCases : Prop :=
  ∀ (p a n bits k : Nat) (u : Point),
    (1 ≤ n → n ∣ k → scalarMul p a n bits u k = .inf) ∧
    (2 ≤ n → 1 ≤ bits → scalarMul p a n bits u 1 = u) ∧
    scalarMul p a n bits u (k + n) = scalarMul p a n bits u k

/-- 43_curve.md R183: no curve command raises DivisionByZero, and the divisors of the group law are nonzero mod P. -/
def Obligations.NoCurveCommandDividesByZero : Prop :=
  (∀ (i : Instr) (s t : State), i.mnemonic ∈ ["ECADD", "ECDBL", "ECMUL", "ECMULG", "ECCHK"] →
    s.err = false → exec i s = .next t → t.err = true → t.errcode ≠ 0x03#8) ∧
  (∀ p x1 x2 : Nat, x1 < p → x2 < p → x1 ≠ x2 → subMod p x2 x1 ≠ 0) ∧
  (∀ p y : Nat, p % 2 = 1 → 1 ≤ y → y < p → mulMod p 2 y ≠ 0)

/-! ## The integer codec -/

/-- 41_intcodec.md R142: TOBYTES writes exactly `size` bytes of BUF, the bytes of the register in the asked order, and
BLEN; every other byte of memory and all else keep their values. BufferBound precedes Overflow. -/
def Obligations.TobytesCompletes : Prop :=
  ∀ (s : State) (rs : FReg) (size : BitVec 8) (e : Endian), s.mem.wf →
    let n := s.x rs
    let k := size.toNat
    (k ≤ s.params.bufBytes → n < 256 ^ k →
      ∃ t : State, exec (.tobytes rs size e) s = .next t.advance ∧ t = { s with mem := t.mem, blen := size } ∧
        (∀ j, j < k → (t.mem.read (bufBase + j)).toNat =
          (match e with | .big => n / 256 ^ (k - 1 - j) % 256 | .little => n / 256 ^ j % 256)) ∧
        (∀ o, ¬ (bufBase ≤ o ∧ o < bufBase + k) → t.mem.read o = s.mem.read o)) ∧
    (s.params.bufBytes < k → exec (.tobytes rs size e) s = .next (s.stopError .bufferBound)) ∧
    (k ≤ s.params.bufBytes → 256 ^ k ≤ n → exec (.tobytes rs size e) s = .next (s.stopError .overflow))

/-- 41_intcodec.md R143: FROMBYTES reads the BLEN bytes of BUF as a sum of weighted bytes (00_scope.md R14), and
raises Overflow on the value, not on the length. -/
def Obligations.FrombytesCompletes : Prop :=
  ∀ (s : State) (rd : FReg) (e : Endian),
    let k := s.blen.toNat
    let n := ((List.range k).map (fun j => (s.mem.read (bufBase + j)).toNat *
      (match e with | .big => 256 ^ (k - 1 - j) | .little => 256 ^ j))).sum
    (k ≤ s.params.bufBytes → n < 2 ^ s.params.w → exec (.frombytes rd e) s = .next (s.setX rd n).advance) ∧
    (s.params.bufBytes < k → exec (.frombytes rd e) s = .next (s.stopError .bufferBound)) ∧
    (k ≤ s.params.bufBytes → 2 ^ s.params.w ≤ n → exec (.frombytes rd e) s = .next (s.stopError .overflow))

/-- 41_intcodec.md R144: FROMBYTES after a TOBYTES that succeeds gives the register back and never overflows; TOBYTES
with size BLEN after a FROMBYTES that succeeds gives the byte string back. The register holds W bits and the
parameters are allowed (`State.Inv`). -/
def Obligations.CodecRoundTrip : Prop :=
  (∀ (s : State) (rs rd : FReg) (size : BitVec 8) (e : Endian), s.Inv →
    size.toNat ≤ s.params.bufBytes → s.x rs < 256 ^ size.toNat →
    ∃ t u : State, exec (.tobytes rs size e) s = .next t ∧ exec (.frombytes rd e) t = .next u ∧
      u = (t.setX rd (s.x rs)).advance) ∧
  (∀ (s : State) (rd : FReg) (e : Endian), s.Inv →
    s.blen.toNat ≤ s.params.bufBytes → fromBytes (s.bufBytes s.blen.toNat) e < 2 ^ s.params.w →
    ∃ t u : State, exec (.frombytes rd e) s = .next t ∧ exec (.tobytes rd s.blen e) t = .next u ∧
      u.blen = s.blen ∧ u.bufBytes s.blen.toNat = s.bufBytes s.blen.toNat ∧ u = { t with mem := u.mem }.advance)

/-- 41_intcodec.md R145: the little-endian result is the reverse of the big-endian one, and both succeed or both
overflow. -/
def Obligations.EndiannessReversesTheBytes : Prop :=
  ∀ n size : Nat, toBytes n size .little = (toBytes n size .big).map List.reverse

/-- 00_scope.md R14: `bytelen(n)` is the least k with n < 256^k, and `powmod(x, e, m)` is x^e mod m. -/
def Obligations.ByteLengthAndPowerAreTheSpecs : Prop :=
  (∀ n : Nat, n < 256 ^ byteLen n ∧ ∀ k, n < 256 ^ k → byteLen n ≤ k) ∧
  (∀ x e m : Nat, powmod x e m = x ^ e % m)

/-! ## Base58Check -/

/-- 44_base58.md R211, R212: B58ENC with a payload that BUF holds writes its symbols to STR from the start, at most
STRBYTES of them, and SLEN; every other byte of memory and all else keep their values. A longer BLEN raises
BufferBound. -/
def Obligations.B58encCompletes : Prop :=
  ∀ (s : State) (ver : BitVec 8), s.params.allowed = true → s.mem.wf →
    (s.blen.toNat ≤ s.params.bufBytes →
      ∃ (t : State) (symbols : List Byte),
        symbols = base58Symbols (base58Full Config.dsha256 ver (s.mem.readBytes bufBase s.blen.toNat)) ∧
        symbols.length ≤ s.params.strBytes ∧
        exec (.b58enc ver) s = .next t.advance ∧
        t = { s with mem := t.mem, slen := BitVec.ofNat 8 symbols.length } ∧
        (∀ j, j < symbols.length → t.mem.read (strBase + j) = symbols.getD j 0#8) ∧
        (∀ o, ¬ (strBase ≤ o ∧ o < strBase + symbols.length) → t.mem.read o = s.mem.read o)) ∧
    (s.params.bufBytes < s.blen.toNat → exec (.b58enc ver) s = .next (s.stopError .bufferBound))

/-- 44_base58.md R210 to R212: the alphabet, symbol by symbol; the symbols of a byte string are one '1' for each
leading zero byte, then the base 58 digits of its big-endian value, most significant first, with no leading zero
digit. -/
def Obligations.Base58SymbolsAreTheRadixDigits : Prop :=
  alphabet = "123456789ABCDEFGHJKLMNPQRSTUVWXYZabcdefghijkmnopqrstuvwxyz".toList.map
    (fun ch => BitVec.ofNat 8 ch.toNat) ∧
  (∀ d, d < 58 → alphabet[d]? = some (symbolOf d)) ∧
  ∀ full : List Byte, ∃ ds : List Nat,
    base58Symbols full = List.replicate (full.takeWhile (· == 0#8)).length 0x31#8 ++ ds.map symbolOf ∧
    (∀ d ∈ ds, d < 58) ∧ ds.head? ≠ some 0 ∧ Nat.ofDigits 58 ds.reverse = intBe full

/-- 44_base58.md R213: B58DEC on a string whose value fits N + 5 bytes and whose checksum agrees writes the payload,
BLEN and B58VER, and nothing else. -/
def Obligations.B58decCompletes : Prop :=
  ∀ (s : State) (full : List Byte), s.mem.wf →
    let n := s.b58n.toNat
    let str := s.mem.readBytes strBase s.slen.toNat
    s.slen.toNat ≤ s.params.strBytes → n ≤ s.params.bufBytes → (s.strict58 = true → ∀ c ∈ str, c ∈ alphabet) →
    full.length = n + 5 → intBe full = base58Value str →
    (Config.dsha256 (full.take (n + 1))).toList.take 4 = full.drop (n + 1) →
    ∃ t : State, exec .b58dec s = .next t.advance ∧
      t = { s with mem := t.mem, blen := s.b58n, b58ver := full.headD 0#8 } ∧
      (∀ j, j < n → t.mem.read (bufBase + j) = full.getD (1 + j) 0#8) ∧
      (∀ o, ¬ (bufBase ≤ o ∧ o < bufBase + n) → t.mem.read o = s.mem.read o)

/-- 44_base58.md R213, 60_exceptions.md R233: the errors of B58DEC in their order, each with no other effect:
BufferBound, InvalidCharacter (strict only), Overflow, ChecksumMismatch. -/
def Obligations.B58decErrorsInOrder : Prop :=
  ∀ s : State,
    let n := s.b58n.toNat
    let str := s.mem.readBytes strBase s.slen.toNat
    ((s.params.strBytes < s.slen.toNat ∨ s.params.bufBytes < n) → exec .b58dec s = .next (s.stopError .bufferBound)) ∧
    (s.slen.toNat ≤ s.params.strBytes → n ≤ s.params.bufBytes →
      (s.strict58 = true → (∃ c ∈ str, c ∉ alphabet) →
        exec .b58dec s = .next (s.stopError .invalidCharacter)) ∧
      ((s.strict58 = true → ∀ c ∈ str, c ∈ alphabet) →
        (256 ^ (n + 5) ≤ base58Value str → exec .b58dec s = .next (s.stopError .overflow)) ∧
        (∀ full : List Byte, full.length = n + 5 → intBe full = base58Value str →
          (Config.dsha256 (full.take (n + 1))).toList.take 4 ≠ full.drop (n + 1) →
          exec .b58dec s = .next (s.stopError .checksumMismatch))))

/-- 44_base58.md R216: B58ENC then B58DEC, with B58N the payload's length and STRICT58 at either value, gives back the
payload, its length and the version, and raises nothing. The parameters are allowed (`State.Inv`). -/
def Obligations.Base58RoundTrip : Prop :=
  ∀ (s : State) (ver : BitVec 8) (strict : Bool), s.Inv → s.blen.toNat ≤ s.params.bufBytes → s.b58n = s.blen →
    ∃ t u : State, exec (.b58enc ver) s = .next t ∧ exec .b58dec { t with strict58 := strict } = .next u ∧
      u = { t with strict58 := strict, mem := u.mem, b58ver := ver }.advance ∧
      u.blen = s.blen ∧ ∀ j, j < s.blen.toNat → u.mem.read (bufBase + j) = s.mem.read (bufBase + j)

/-- 44_base58.md R210, R213, R214, R215: the value of a string is its radix-58 value, left to right, the digit of a
byte being its position in the alphabet; an unrecognised byte counts as the digit 0, as a '1' does, and a leading one
contributes nothing. -/
def Obligations.UnrecognisedCharacterIsDigitZero : Prop :=
  base58Value [] = 0 ∧
  (∀ (u : List Byte) (c : Byte), base58Value (u ++ [c]) = base58Value u * 58 + (digitOf c).getD 0) ∧
  (∀ (c : Byte) (d : Nat), digitOf c = some d ↔ alphabet[d]? = some c) ∧
  (∀ (u v : List Byte) (c : Byte), c ∉ alphabet →
    base58Value (u ++ c :: v) = base58Value (u ++ 0x31#8 :: v) ∧
    base58Value (c :: v) = base58Value v ∧ base58Value (0x31#8 :: v) = base58Value v)

/-! ## What every command does and does not do -/

/-- 60_exceptions.md R235: a command that raises an error, CommandOverrun apart, writes nothing but the error record,
ERR and BUSY. -/
def Obligations.ErrorsArePrecise : Prop :=
  ∀ (i : Instr) (s t : State), s.err = false → exec i s = .next t → t.err = true → t.errcode ≠ 0x13#8 →
    t = { s with errcode := t.errcode, errpc := s.pc, errcmd := s.cmdWord s.pc, err := true, busy := false }

/-- No command changes a configuration register, a lock, a CTRL field, ENTRY, HOSTERR, B58N or a word of CMDMEM, nor
the instance's parameters, the model's own agenda, reply and count of draws (10_state.md R34, R40, R42; 20_memory.md
R72, R81; 70_reset_and_hazards.md R280). -/
def Obligations.CommandsKeepTheHostsState : Prop :=
  ∀ (i : Instr) (s t : State), s.mem.wf → exec i s = .next t →
    t.params = s.params ∧
    t.p = s.p ∧ t.a = s.a ∧ t.b = s.b ∧ t.gx = s.gx ∧ t.gy = s.gy ∧ t.n = s.n ∧ t.bitsize = s.bitsize ∧
    t.flocked = s.flocked ∧ t.clocked = s.clocked ∧ t.ferr = s.ferr ∧ t.cerr = s.cerr ∧
    t.strict58 = s.strict58 ∧ t.ieDone = s.ieDone ∧ t.ieErr = s.ieErr ∧ t.ieHost = s.ieHost ∧
    t.hosterr = s.hosterr ∧ t.entry = s.entry ∧ t.b58n = s.b58n ∧
    t.agenda = s.agenda ∧ t.reply = s.reply ∧ t.draws = s.draws ∧ ∀ k, t.cmdWord k = s.cmdWord k

/-- Which commands may change each piece of engine-written state (10_state.md R23, R37 to R39, R41, R43; 42_field.md
R150). -/
def Obligations.OnlyNamedCommandsWriteEachPiece : Prop :=
  ∀ (i : Instr) (s t : State), s.params.allowed = true → s.mem.wf → exec i s = .next t →
    (t.ptag ≠ s.ptag → i.mnemonic ∈ ["PINF", "PFIN", "ECADD", "ECDBL", "ECMUL", "ECMULG"]) ∧
    (t.onc ≠ s.onc → i.mnemonic = "ECCHK") ∧
    (t.done ≠ s.done → i.mnemonic = "HALT") ∧
    (t.blen ≠ s.blen → i.mnemonic ∈ ["TOBYTES", "B58DEC"]) ∧
    (t.slen ≠ s.slen → i.mnemonic = "B58ENC") ∧
    (t.b58ver ≠ s.b58ver → i.mnemonic = "B58DEC") ∧
    (∀ j, j < s.params.bufBytes → t.mem.read (bufBase + j) ≠ s.mem.read (bufBase + j) →
      i.mnemonic ∈ ["TOBYTES", "B58DEC"]) ∧
    (∀ j, j < s.params.strBytes → t.mem.read (strBase + j) ≠ s.mem.read (strBase + j) → i.mnemonic = "B58ENC") ∧
    (t.f ≠ s.f → i.mnemonic ∉ ["HALT", "NOP", "PFIN", "ECCHK", "TOBYTES", "B58ENC", "B58DEC"])

/-! ## The host's window -/

/-- 40_sequencer.md R120: the START write while idle. Its response is no bus error, which only 20_memory.md R64, R69
and R70 give; the word in it is left open (log 18). -/
def Obligations.StartWriteStartsTheRun : Prop :=
  ∀ (s : State) (v : Word32), v.getLsbD 0 = true →
    (s.busy = false → ∃ d, s.hostWrite 0x008 4 v = { s with
      strict58 := v.getLsbD 1, ieDone := v.getLsbD 2, ieErr := v.getLsbD 3, ieHost := v.getLsbD 4,
      done := false, err := false, errcode := 0#8, errpc := 0#6, errcmd := 0#32,
      pc := s.entry, busy := true, reply := some ⟨d, false⟩ }) ∧
    (s.busy = true → ∃ d, s.hostWrite 0x008 4 v = { s with hosterr := true, reply := some ⟨d, false⟩ })

/-- 20_memory.md R71: while busy, a write to any mapped offset but STATUS is dropped with HOSTERR and a normal
response; a write to STATUS clears by ones; a write that is refused anyway is refused as when idle. That a busy write
to a read-only register sets HOSTERR too is the model's reading (log 9). The word in a write's reply is left open (log
18). -/
def Obligations.BusyWritesAreDropped : Prop :=
  ∀ (s : State) (o w : Nat) (v : Word32), s.busy = true → o < 0x1000 →
    (¬ RefusedAccess s.params o w → o ≠ 0x00C →
      ∃ d, s.hostWrite o w v = { s with hosterr := true, reply := some ⟨d, false⟩ }) ∧
    (∃ d, s.hostWrite 0x00C 4 v = { s with
      done := s.done && !v.getLsbD 1, err := s.err && !v.getLsbD 2, hosterr := s.hosterr && !v.getLsbD 3,
      reply := some ⟨d, false⟩ }) ∧
    (RefusedAccess s.params o w → ∃ d, s.hostWrite o w v = { s with hosterr := true, reply := some ⟨d, true⟩ })

/-- 20_memory.md R64, R69, R70: an access to a reserved offset, of a width other than 32 bits, or misaligned is not
performed: a read returns 0, a write changes nothing, both with a bus error and HOSTERR. -/
def Obligations.RefusedAccessesAreNotPerformed : Prop :=
  ∀ (s : State) (o w : Nat) (v : Word32), o < 0x1000 → RefusedAccess s.params o w →
    s.hostRead o w = { s with hosterr := true, reply := some ⟨0#32, true⟩ } ∧
    ∃ d, s.hostWrite o w v = { s with hosterr := true, reply := some ⟨d, true⟩ }

/-- 20_memory.md R72: exactly which accesses set HOSTERR. A busy write to a read-only register counts as a busy write
(log 9), and the upper words of a locked slot as no part of the register (log 10). -/
def Obligations.HosterrIsSetByTheseAccessesOnly : Prop :=
  ∀ (s : State) (o w : Nat) (v : Word32), o < 0x1000 → s.hosterr = false →
    ((s.hostRead o w).hosterr = true ↔ RefusedAccess s.params o w) ∧
    ((s.hostWrite o w v).hosterr = true ↔
      RefusedAccess s.params o w ∨ (s.busy = true ∧ o ≠ 0x00C) ∨
      (s.flocked = true ∧ 0x100 ≤ o ∧ o < 0x140 ∧ o % 0x40 < 4 * (s.params.w / 32)) ∨
      (s.clocked = true ∧ (o = 0x02C ∨ (0x140 ≤ o ∧ o < 0x280 ∧ o % 0x40 < 4 * (s.params.w / 32)))))

/-- 10_state.md R30 to R32: a write to CFG while idle evaluates the field-lock request, then the curve-lock request
under the field lock's new value. The response is no bus error; the word in it is left open (log 18). -/
def Obligations.LockRequestsAreEvaluated : Prop :=
  ∀ (s : State) (v : Word32), s.busy = false →
    let askF := v.getLsbD 0 && !s.flocked
    let passF := decide (s.p % 2 = 1 ∧ 3 ≤ s.p)
    let flocked := s.flocked || (askF && passF)
    let askC := v.getLsbD 1 && !s.clocked
    ∃ (d : Word32) (passC : Bool), (passC = true ↔ CurveLockCheck s flocked) ∧
      s.hostWrite 0x010 4 v = { s with
        flocked := flocked
        ferr := if askF then !passF else s.ferr
        clocked := s.clocked || (askC && passC)
        cerr := if askC then !passC else s.cerr
        reply := some ⟨d, false⟩ }

/-- 10_state.md R33: a write to a locked configuration register is dropped and sets HOSTERR, and a read of it returns
the stored word, busy or not. The bus's response to the dropped write is left open here (log 11). -/
def Obligations.LockedConfigurationIsReadOnly : Prop :=
  ∀ (s : State) (v : Word32) (j : Nat), j < s.params.w / 32 → j < 16 →
    (s.flocked = true → ∃ r, s.hostWrite (0x100 + 4 * j) 4 v = { s with hosterr := true, reply := r }) ∧
    (s.clocked = true →
      (∃ r, s.hostWrite 0x02C 4 v = { s with hosterr := true, reply := r }) ∧
      ∀ c ∈ [ConfigReg.a, .b, .gx, .gy, .n],
        ∃ r, s.hostWrite (configSlot c + 4 * j) 4 v = { s with hosterr := true, reply := r }) ∧
    (∀ c : ConfigReg, (s.hostRead (configSlot c + 4 * j) 4).reply =
      some ⟨BitVec.ofNat 32 (s.config c >>> (32 * j)), false⟩) ∧
    (s.hostRead 0x02C 4).reply = some ⟨s.bitsize.setWidth 32, false⟩

/-- 10_state.md R26, R33, 70_reset_and_hazards.md R280: locks are one way: no step but a reset releases a lock or
changes a configuration register that it holds; and no step at all changes the instance's parameters (00_scope.md R6). -/
def Obligations.LocksAreReleasedOnlyByReset : Prop :=
  ∀ s t : State, step s = .next t → t.params = s.params ∧ ((∀ rest, s.agenda ≠ .reset :: rest) →
    (s.flocked = true → t.flocked = true ∧ t.p = s.p) ∧
    (s.clocked = true → t.clocked = true ∧ t.a = s.a ∧ t.b = s.b ∧ t.gx = s.gx ∧ t.gy = s.gy ∧ t.n = s.n ∧
      t.bitsize = s.bitsize))

/-- 10_state.md R25, R44: writing 1 clears DONE, ERR and HOSTERR, in every state, and nothing else; irq is the three
conditions with their enables, and STATUS.IRQ reads it. The response is no bus error; the word in it is left open (log
18). -/
def Obligations.StatusClearsByOnesAndShowsIrq : Prop :=
  ∀ (s : State) (v : Word32) (onc : Bool),
    (∃ d, s.hostWrite 0x00C 4 v = { s with
      done := s.done && !v.getLsbD 1, err := s.err && !v.getLsbD 2, hosterr := s.hosterr && !v.getLsbD 3,
      reply := some ⟨d, false⟩ }) ∧
    s.irq = ((s.done && s.ieDone) || (s.err && s.ieErr) || (s.hosterr && s.ieHost)) ∧
    (s.statusWord onc).getLsbD 0 = s.busy ∧ (s.statusWord onc).getLsbD 1 = s.done ∧
    (s.statusWord onc).getLsbD 2 = s.err ∧ (s.statusWord onc).getLsbD 3 = s.hosterr ∧
    (s.statusWord onc).getLsbD 4 = onc ∧ (s.statusWord onc).getLsbD 5 = s.irq ∧
    (∀ k, 6 ≤ k → (s.statusWord onc).getLsbD k = false)

/-- 10_state.md R23 to R29, R34 to R36, R39 to R41, R47, while idle: writes to the small control registers store their
field and drop the reserved bits, writes to the read-only registers change nothing, and a read of every control,
status and exception register returns its fields in their places with the reserved bits 0. That bits 31..8 of ERRCODE
and B58VER and bits 31..6 of ERRPC read 0 is the model's choice: the spec marks them neither reserved nor read as 0
(log 21). The response is no bus error; the word in a write's is left open (log 18). -/
def Obligations.IdleControlAccessesStoreAndShowTheFields : Prop :=
  ∀ (s : State) (v : Word32), s.busy = false →
    (∃ d, s.hostWrite 0x014 4 v = { s with entry := v.extractLsb' 0 6, reply := some ⟨d, false⟩ }) ∧
    (∃ d, s.hostWrite 0x028 4 v = { s with ptag := v.extractLsb' 0 8, reply := some ⟨d, false⟩ }) ∧
    (∃ d, s.hostWrite 0x030 4 v = { s with b58n := v.extractLsb' 0 8, reply := some ⟨d, false⟩ }) ∧
    (∃ d, s.hostWrite 0x034 4 v = { s with blen := v.extractLsb' 0 8, reply := some ⟨d, false⟩ }) ∧
    (∃ d, s.hostWrite 0x038 4 v = { s with slen := v.extractLsb' 0 8, reply := some ⟨d, false⟩ }) ∧
    (s.clocked = false →
      ∃ d, s.hostWrite 0x02C 4 v = { s with bitsize := v.extractLsb' 0 16, reply := some ⟨d, false⟩ }) ∧
    (v.getLsbD 0 = false → ∃ d, s.hostWrite 0x008 4 v = { s with
      strict58 := v.getLsbD 1, ieDone := v.getLsbD 2, ieErr := v.getLsbD 3, ieHost := v.getLsbD 4,
      reply := some ⟨d, false⟩ }) ∧
    (∀ o ∈ [0x000, 0x004, 0x018, 0x01C, 0x020, 0x024, 0x03C],
      ∃ d, s.hostWrite o 4 v = { s with reply := some ⟨d, false⟩ }) ∧
    (s.hostRead 0x008 4).reply = some ⟨BitVec.ofNat 32
      (2 * s.strict58.toNat + 4 * s.ieDone.toNat + 8 * s.ieErr.toNat + 16 * s.ieHost.toNat), false⟩ ∧
    (s.hostRead 0x00C 4).reply = some ⟨BitVec.ofNat 32
      (2 * s.done.toNat + 4 * s.err.toNat + 8 * s.hosterr.toNat + 16 * s.onc.toNat + 32 * s.irq.toNat), false⟩ ∧
    (s.hostRead 0x010 4).reply = some ⟨BitVec.ofNat 32
      (s.flocked.toNat + 2 * s.clocked.toNat + 256 * s.ferr.toNat + 512 * s.cerr.toNat), false⟩ ∧
    (s.hostRead 0x014 4).reply = some ⟨s.entry.setWidth 32, false⟩ ∧
    (s.hostRead 0x018 4).reply = some ⟨s.pc.setWidth 32, false⟩ ∧
    (s.hostRead 0x01C 4).reply = some ⟨s.errcode.setWidth 32, false⟩ ∧
    (s.hostRead 0x020 4).reply = some ⟨s.errpc.setWidth 32, false⟩ ∧
    (s.hostRead 0x024 4).reply = some ⟨s.errcmd, false⟩ ∧
    (s.hostRead 0x028 4).reply = some ⟨s.ptag.setWidth 32, false⟩ ∧
    (s.hostRead 0x02C 4).reply = some ⟨s.bitsize.setWidth 32, false⟩ ∧
    (s.hostRead 0x030 4).reply = some ⟨s.b58n.setWidth 32, false⟩ ∧
    (s.hostRead 0x034 4).reply = some ⟨s.blen.setWidth 32, false⟩ ∧
    (s.hostRead 0x038 4).reply = some ⟨s.slen.setWidth 32, false⟩ ∧
    (s.hostRead 0x03C 4).reply = some ⟨s.b58ver.setWidth 32, false⟩

/-- 20_memory.md R66, 10_state.md R33: word j of a slot is bits 32j+31..32j of its register for j < W/32; the words
above read 0 and ignore writes. For the field registers while idle, and for an unlocked configuration register; a
write to the upper words of a locked one changes nothing and sets no HOSTERR, which is the model's reading (log 10).
The response is no bus error; the word in a write's is left open (log 18). -/
def Obligations.WideRegistersAreSlotsOfWords : Prop :=
  ∀ (s : State) (v : Word32) (j : Nat), s.busy = false → j < 16 →
    (∀ i : FReg,
      (s.hostRead (fieldSlot i + 4 * j) 4).reply =
        some ⟨if j < s.params.w / 32 then BitVec.ofNat 32 (s.x i >>> (32 * j)) else 0#32, false⟩ ∧
      ∃ (t : State) (d : Word32), s.hostWrite (fieldSlot i + 4 * j) 4 v = t ∧
        t = { s with f := t.f, reply := some ⟨d, false⟩ } ∧
        (∀ k : FReg, k ≠ i → t.x k = s.x k) ∧
        (∀ b, (t.x i).testBit b =
          if j < s.params.w / 32 ∧ 32 * j ≤ b ∧ b < 32 * j + 32 then v.getLsbD (b - 32 * j)
          else (s.x i).testBit b)) ∧
    (∀ c : ConfigReg,
      (s.hostRead (configSlot c + 4 * j) 4).reply =
        some ⟨if j < s.params.w / 32 then BitVec.ofNat 32 (s.config c >>> (32 * j)) else 0#32, false⟩ ∧
      (s.configLocked c = false →
        ∃ (t : State) (d : Word32), s.hostWrite (configSlot c + 4 * j) 4 v = t ∧
          t = { s.setConfig c (t.config c) with reply := some ⟨d, false⟩ } ∧
          (∀ b, (t.config c).testBit b =
            if j < s.params.w / 32 ∧ 32 * j ≤ b ∧ b < 32 * j + 32 then v.getLsbD (b - 32 * j)
            else (s.config c).testBit b)) ∧
      (s.configLocked c = true → s.params.w / 32 ≤ j →
        ∃ d, s.hostWrite (configSlot c + 4 * j) 4 v = { s with reply := some ⟨d, false⟩ }))

/-- 20_memory.md R65, R67, R68: BUF byte b and STR byte b are lane b mod 4 of their words, CMDMEM[i] is the whole word
at 0xC00 + 4i; idle reads show them and idle writes store them, and no other byte of memory changes. The response is
no bus error; the word in a write's is left open (log 18). -/
def Obligations.BuffersAndCommandsAreWindowWords : Prop :=
  ∀ (s : State) (o : Nat) (v : Word32), s.busy = false → s.mem.wf → o % 4 = 0 →
    ((bufBase ≤ o ∧ o < bufBase + s.params.bufBytes) ∨ (strBase ≤ o ∧ o < strBase + s.params.strBytes) ∨
      (cmdBase ≤ o ∧ o < cmdBase + 256)) →
    (∃ d, (s.hostRead o 4).reply = some ⟨d, false⟩ ∧ ∀ k, k < 4 → d.extractLsb' (8 * k) 8 = s.mem.read (o + k)) ∧
    (∃ (t : State) (d : Word32), s.hostWrite o 4 v = t ∧
      t = { s with mem := t.mem, reply := some ⟨d, false⟩ } ∧
      (∀ k, k < 4 → t.mem.read (o + k) = v.extractLsb' (8 * k) 8) ∧
      (∀ a, ¬ (o ≤ a ∧ a < o + 4) → t.mem.read a = s.mem.read a) ∧
      (∀ i : BitVec 6, o = cmdBase + 4 * i.toNat → t.cmdWord i = v))

/-- 20_memory.md R73, R74: a performed read changes nothing but the bus's reply and the count of free draws (the
model's own, log 3 and log 4); while busy, the registers the engine does not write read as stored, and STATUS shows
BUSY = 1, DONE = 0, ERR = 0 in every state that meets `State.Inv`, and HOSTERR and IRQ at their present values,
whatever the free values are. In any other state it shows the stored DONE and ERR, and its reserved bits read 0: the
model's reading (log 17, log 4). -/
def Obligations.ReadsHaveNoSideEffects : Prop :=
  (∀ (s : State) (o w : Nat), o < 0x1000 → ¬ RefusedAccess s.params o w →
    ∃ d n, s.hostRead o w = { s with reply := some ⟨d, false⟩, draws := n }) ∧
  (∀ (s : State) (o : Nat), s.params.allowed = true → s.busy = true → o % 4 = 0 →
    (o ∈ [0x000, 0x004, 0x008, 0x010, 0x014, 0x01C, 0x020, 0x024, 0x02C, 0x030] ∨
      (0x100 ≤ o ∧ o < 0x280) ∨ (0xC00 ≤ o ∧ o < 0xD00)) →
    (s.hostRead o 4).reply = ({ s with busy := false }.hostRead o 4).reply) ∧
  (∀ s : State, s.busy = true → ∃ d, (s.hostRead 0x00C 4).reply = some ⟨d, false⟩ ∧
    d.getLsbD 0 = true ∧ d.getLsbD 1 = s.done ∧ d.getLsbD 2 = s.err ∧ d.getLsbD 3 = s.hosterr ∧
    d.getLsbD 5 = s.irq ∧ (∀ k, 6 ≤ k → d.getLsbD k = false) ∧
    (s.Inv → d.getLsbD 1 = false ∧ d.getLsbD 2 = false))
end

