-- ==== Sys2Proof/Laws/Memory.lean ====
section
/-! SUPPORT. The laws of byte memory: a read after a write, the canonical form kept by every write, and equal
canonical memories from equal reads. -/

namespace Sys2Proof.Machine

@[simp] theorem Memory.read_nil (o : Nat) : Memory.read [] o = Memory.unlisted := rfl

theorem Memory.read_listed (c : Host.Cell) (m : Memory) (o : Nat) :
    Memory.read (c :: m) o = if c.1 = o then c.2 else Memory.read m o := rfl

/-- Below every listed offset a memory reads as unlisted. -/
theorem Memory.read_below {m : Memory} {o : Nat} (h : ∀ c ∈ m, o < c.1) : m.read o = Memory.unlisted := by
  induction m with
  | nil => rfl
  | cons c m ih =>
    have hc : c.1 ≠ o := Nat.ne_of_gt (h c (by simp))
    rw [Memory.read_listed, if_neg hc, ih fun d hd => h d (by simp [hd])]

theorem Memory.read_cons (o : Nat) (v : Byte) (m : Memory) (h : ∀ c ∈ m, o < c.1) (k : Nat) :
    (Memory.cons o v m).read k = if k = o then v else m.read k := by
  unfold Memory.cons
  by_cases hk : k = o
  · subst hk
    split
    · rw [Memory.read_below h, if_pos rfl]; exact Eq.symm ‹_›
    · rw [Memory.read_listed, if_pos rfl]
  · rw [if_neg hk]
    split
    · rfl
    · rw [Memory.read_listed, if_neg (Ne.symm hk)]

/-- A read after a write: the written byte at its offset, the old byte elsewhere. -/
theorem Memory.read_write {m : Memory} (hm : m.wf) (o : Nat) (v : Byte) (k : Nat) :
    (m.write o v).read k = if k = o then v else m.read k := by
  induction m with
  | nil => exact Memory.read_cons o v [] (by simp) k
  | cons c m ih =>
    obtain ⟨hs, hz⟩ := hm
    obtain ⟨hc, hs⟩ := List.pairwise_cons.mp hs
    have hm : Memory.wf m := ⟨hs, fun d hd => hz d (by simp [hd])⟩
    unfold Memory.write
    split
    · rename_i hlt
      refine Memory.read_cons o v _ (fun d hd => ?_) k
      rcases List.mem_cons.mp hd with rfl | hd
      · exact hlt
      · exact lt_trans hlt (hc d hd)
    · split
      · rename_i heq
        subst heq
        rw [Memory.read_cons _ v m hc k, Memory.read_listed]
        by_cases hk : k = c.1
        · simp [hk]
        · simp [hk, Ne.symm hk]
      · rename_i hne
        rw [Memory.read_listed, ih hm, Memory.read_listed]
        by_cases hk : k = o
        · subst hk; simp [Ne.symm hne]
        · simp [hk]

theorem Memory.mem_cons {o : Nat} {v : Byte} {m : Memory} {c : Host.Cell} (h : c ∈ Memory.cons o v m) :
    c = (o, v) ∨ c ∈ m := by
  unfold Memory.cons at h
  split at h
  · exact .inr h
  · simpa using h

/-- A write lists no offset but its own and those listed before. -/
theorem Memory.mem_write {m : Memory} {o : Nat} {v : Byte} {c : Host.Cell} (h : c ∈ m.write o v) :
    c.1 = o ∨ c ∈ m := by
  induction m with
  | nil => exact (Memory.mem_cons h).imp (fun e => by rw [e]) id
  | cons d m ih =>
    unfold Memory.write at h
    split at h
    · exact (Memory.mem_cons h).imp (fun e => by rw [e]) id
    · split at h
      · exact (Memory.mem_cons h).imp (fun e => by rw [e]) (fun e => by simp [e])
      · rcases List.mem_cons.mp h with rfl | h
        · simp
        · exact (ih h).imp id (fun e => by simp [e])

theorem Memory.wf_cons {o : Nat} {v : Byte} {m : Memory} (h : ∀ c ∈ m, o < c.1) (hm : m.wf) :
    (Memory.cons o v m).wf := by
  unfold Memory.cons
  split
  · exact hm
  · rename_i hv
    refine ⟨List.pairwise_cons.mpr ⟨h, hm.1⟩, fun c hc => ?_⟩
    rcases List.mem_cons.mp hc with rfl | hc
    · exact hv
    · exact hm.2 c hc

theorem Memory.wf_nil : Memory.wf [] := ⟨List.Pairwise.nil, by simp⟩

/-- A write keeps the canonical form. -/
theorem Memory.wf_write {m : Memory} (hm : m.wf) (o : Nat) (v : Byte) : (m.write o v).wf := by
  induction m with
  | nil => exact Memory.wf_cons (by simp) Memory.wf_nil
  | cons c m ih =>
    obtain ⟨hs, hz⟩ := hm
    have hm : Memory.wf (c :: m) := ⟨hs, hz⟩
    obtain ⟨hc, hs⟩ := List.pairwise_cons.mp hs
    have ht : Memory.wf m := ⟨hs, fun d hd => hz d (by simp [hd])⟩
    unfold Memory.write
    split
    · rename_i hlt
      refine Memory.wf_cons (fun d hd => ?_) hm
      rcases List.mem_cons.mp hd with rfl | hd
      · exact hlt
      · exact lt_trans hlt (hc d hd)
    · split
      · rename_i heq
        subst heq
        exact Memory.wf_cons hc ht
      · rename_i hlt hne
        obtain ⟨hs', hz'⟩ := ih ht
        refine ⟨List.pairwise_cons.mpr ⟨fun d hd => ?_, hs'⟩, fun d hd => ?_⟩
        · rcases Memory.mem_write hd with h | h
          · omega
          · exact hc d h
        · rcases List.mem_cons.mp hd with rfl | hd
          · exact hz _ (by simp)
          · exact hz' d hd

/-- Writing a byte string keeps the canonical form. -/
theorem Memory.wf_writeBytes {m : Memory} (hm : m.wf) (o : Nat) (r : List Byte) : (m.writeBytes o r).wf := by
  induction r generalizing m o with
  | nil => exact hm
  | cons v r ih => exact ih (Memory.wf_write hm o v) (o + 1)

/-- Writing a bus word keeps the canonical form. -/
theorem Memory.wf_writeWord {m : Memory} (hm : m.wf) (o : Nat) (w : Word32) : (m.writeWord o w).wf :=
  Memory.wf_writeBytes hm o (lanes w)

/-- Writing a byte string lists only its own offsets and those listed before. -/
theorem Memory.mem_writeBytes {m : Memory} {o : Nat} {r : List Byte} {c : Host.Cell}
    (h : c ∈ m.writeBytes o r) : (o ≤ c.1 ∧ c.1 < o + r.length) ∨ c ∈ m := by
  induction r generalizing m o with
  | nil => exact .inr h
  | cons v r ih =>
    rcases ih h with h | h
    · left; simp only [List.length_cons]; omega
    · rcases Memory.mem_write h with h | h
      · left; simp only [List.length_cons]; omega
      · exact .inr h

/-- A read after a byte string is written: its bytes at their offsets, the old bytes elsewhere. -/
theorem Memory.read_writeBytes {m : Memory} (hm : m.wf) (o : Nat) (r : List Byte) (k : Nat) :
    (m.writeBytes o r).read k =
      if o ≤ k ∧ k < o + r.length then r.getD (k - o) Memory.unlisted else m.read k := by
  induction r generalizing m o with
  | nil => rw [if_neg (by simp only [List.length_nil]; omega)]; rfl
  | cons v r ih =>
    show ((m.write o v).writeBytes (o + 1) r).read k = _
    rw [ih (Memory.wf_write hm o v), Memory.read_write hm]
    simp only [List.length_cons]
    by_cases h1 : o + 1 ≤ k ∧ k < o + 1 + r.length
    · rw [if_pos h1, if_pos (by omega), show k - o = (k - (o + 1)) + 1 by omega, List.getD_cons_succ]
    · rw [if_neg h1]
      by_cases h2 : k = o
      · subst h2
        rw [if_pos rfl, if_pos (by omega), Nat.sub_self, List.getD_cons_zero]
      · rw [if_neg h2, if_neg (by omega)]

/-- Bytes outside a written byte string keep their values. -/
theorem Memory.read_writeBytes_outside {m : Memory} (hm : m.wf) {o : Nat} {r : List Byte} {k : Nat}
    (h : ¬ (o ≤ k ∧ k < o + r.length)) : (m.writeBytes o r).read k = m.read k := by
  rw [Memory.read_writeBytes hm, if_neg h]

theorem Memory.length_lanes (w : Word32) : (lanes w).length = 4 := rfl

/-- A bus word read where it was written (20_memory.md R65). -/
theorem Memory.readWord_writeWord {m : Memory} (hm : m.wf) (o : Nat) (w : Word32) :
    (m.writeWord o w).readWord o = w := by
  have h : ∀ j, j < 4 → (m.writeWord o w).read (o + j) = (lanes w).getD j 0#8 := by
    intro j hj
    rw [Memory.writeWord, Memory.read_writeBytes hm, Memory.length_lanes, if_pos (by omega),
      show o + j - o = j by omega]
    rfl
  unfold Memory.readWord
  rw [h 3 (by omega), h 2 (by omega), h 1 (by omega)]
  have h0 := h 0 (by omega)
  rw [Nat.add_zero] at h0
  rw [h0]
  show w.extractLsb' 24 8 ++ w.extractLsb' 16 8 ++ w.extractLsb' 8 8 ++ w.extractLsb' 0 8 = w
  apply BitVec.eq_of_getLsbD_eq
  intro i hi
  simp only [BitVec.getLsbD_append, BitVec.getLsbD_extractLsb']
  by_cases h1 : i < 8
  · simp [h1]
  · by_cases h2 : i < 16
    · simp [h1, show i - 8 < 8 by omega, show 8 + (i - 8) = i by omega]
    · by_cases h3 : i < 24
      · simp [h1, show ¬ i - 8 < 8 by omega, show i - 8 - 8 < 8 by omega, show 16 + (i - 8 - 8) = i by omega]
      · simp [h1, show ¬ i - 8 < 8 by omega, show ¬ i - 8 - 8 < 8 by omega, show i - 8 - 8 - 8 < 8 by omega,
          show 24 + (i - 8 - 8 - 8) = i by omega]

/-- The reads of a byte string. -/
@[simp] theorem Memory.length_readBytes (m : Memory) (o k : Nat) : (m.readBytes o k).length = k := by
  simp [Memory.readBytes]

theorem Memory.getElem_readBytes (m : Memory) (o k j : Nat) (h : j < (m.readBytes o k).length) :
    (m.readBytes o k)[j] = m.read (o + j) := by
  simp [Memory.readBytes]

/-- A byte string read where it was written. -/
theorem Memory.readBytes_writeBytes {m : Memory} (hm : m.wf) (o : Nat) (r : List Byte) :
    (m.writeBytes o r).readBytes o r.length = r := by
  apply List.ext_getElem (by simp)
  intro j h1 h2
  rw [Memory.getElem_readBytes, Memory.read_writeBytes hm, if_pos (by omega), show o + j - o = j by omega,
    List.getD_eq_getElem _ _ h2]

end Sys2Proof.Machine
end

