-- ==== Sys2Proof/Laws/State.lean ====
section
/-! SUPPORT. The small lemmas of the state's named updates: one per field per update. -/

namespace Sys2Proof.Machine

/-! ## setX -/

@[simp] theorem State.setX_params (s : State) (i : FReg) (v : Elem) : (s.setX i v).params = s.params := rfl
@[simp] theorem State.setX_f (s : State) (i : FReg) (v : Elem) : (s.setX i v).f = s.f.set i v := rfl
@[simp] theorem State.setX_ptag (s : State) (i : FReg) (v : Elem) : (s.setX i v).ptag = s.ptag := rfl
@[simp] theorem State.setX_p (s : State) (i : FReg) (v : Elem) : (s.setX i v).p = s.p := rfl
@[simp] theorem State.setX_a (s : State) (i : FReg) (v : Elem) : (s.setX i v).a = s.a := rfl
@[simp] theorem State.setX_b (s : State) (i : FReg) (v : Elem) : (s.setX i v).b = s.b := rfl
@[simp] theorem State.setX_gx (s : State) (i : FReg) (v : Elem) : (s.setX i v).gx = s.gx := rfl
@[simp] theorem State.setX_gy (s : State) (i : FReg) (v : Elem) : (s.setX i v).gy = s.gy := rfl
@[simp] theorem State.setX_n (s : State) (i : FReg) (v : Elem) : (s.setX i v).n = s.n := rfl
@[simp] theorem State.setX_bitsize (s : State) (i : FReg) (v : Elem) : (s.setX i v).bitsize = s.bitsize := rfl
@[simp] theorem State.setX_flocked (s : State) (i : FReg) (v : Elem) : (s.setX i v).flocked = s.flocked := rfl
@[simp] theorem State.setX_clocked (s : State) (i : FReg) (v : Elem) : (s.setX i v).clocked = s.clocked := rfl
@[simp] theorem State.setX_ferr (s : State) (i : FReg) (v : Elem) : (s.setX i v).ferr = s.ferr := rfl
@[simp] theorem State.setX_cerr (s : State) (i : FReg) (v : Elem) : (s.setX i v).cerr = s.cerr := rfl
@[simp] theorem State.setX_strict58 (s : State) (i : FReg) (v : Elem) : (s.setX i v).strict58 = s.strict58 := rfl
@[simp] theorem State.setX_ieDone (s : State) (i : FReg) (v : Elem) : (s.setX i v).ieDone = s.ieDone := rfl
@[simp] theorem State.setX_ieErr (s : State) (i : FReg) (v : Elem) : (s.setX i v).ieErr = s.ieErr := rfl
@[simp] theorem State.setX_ieHost (s : State) (i : FReg) (v : Elem) : (s.setX i v).ieHost = s.ieHost := rfl
@[simp] theorem State.setX_busy (s : State) (i : FReg) (v : Elem) : (s.setX i v).busy = s.busy := rfl
@[simp] theorem State.setX_done (s : State) (i : FReg) (v : Elem) : (s.setX i v).done = s.done := rfl
@[simp] theorem State.setX_err (s : State) (i : FReg) (v : Elem) : (s.setX i v).err = s.err := rfl
@[simp] theorem State.setX_hosterr (s : State) (i : FReg) (v : Elem) : (s.setX i v).hosterr = s.hosterr := rfl
@[simp] theorem State.setX_onc (s : State) (i : FReg) (v : Elem) : (s.setX i v).onc = s.onc := rfl
@[simp] theorem State.setX_entry (s : State) (i : FReg) (v : Elem) : (s.setX i v).entry = s.entry := rfl
@[simp] theorem State.setX_pc (s : State) (i : FReg) (v : Elem) : (s.setX i v).pc = s.pc := rfl
@[simp] theorem State.setX_errcode (s : State) (i : FReg) (v : Elem) : (s.setX i v).errcode = s.errcode := rfl
@[simp] theorem State.setX_errpc (s : State) (i : FReg) (v : Elem) : (s.setX i v).errpc = s.errpc := rfl
@[simp] theorem State.setX_errcmd (s : State) (i : FReg) (v : Elem) : (s.setX i v).errcmd = s.errcmd := rfl
@[simp] theorem State.setX_mem (s : State) (i : FReg) (v : Elem) : (s.setX i v).mem = s.mem := rfl
@[simp] theorem State.setX_blen (s : State) (i : FReg) (v : Elem) : (s.setX i v).blen = s.blen := rfl
@[simp] theorem State.setX_slen (s : State) (i : FReg) (v : Elem) : (s.setX i v).slen = s.slen := rfl
@[simp] theorem State.setX_b58n (s : State) (i : FReg) (v : Elem) : (s.setX i v).b58n = s.b58n := rfl
@[simp] theorem State.setX_b58ver (s : State) (i : FReg) (v : Elem) : (s.setX i v).b58ver = s.b58ver := rfl
@[simp] theorem State.setX_agenda (s : State) (i : FReg) (v : Elem) : (s.setX i v).agenda = s.agenda := rfl
@[simp] theorem State.setX_reply (s : State) (i : FReg) (v : Elem) : (s.setX i v).reply = s.reply := rfl
@[simp] theorem State.setX_draws (s : State) (i : FReg) (v : Elem) : (s.setX i v).draws = s.draws := rfl

/-! ## setTag -/

@[simp] theorem State.setTag_params (s : State) (q : PReg) (v : Bool) : (s.setTag q v).params = s.params := rfl
@[simp] theorem State.setTag_f (s : State) (q : PReg) (v : Bool) : (s.setTag q v).f = s.f := rfl
@[simp] theorem State.setTag_ptag (s : State) (q : PReg) (v : Bool) : (s.setTag q v).ptag = withTag s.ptag q v := rfl
@[simp] theorem State.setTag_p (s : State) (q : PReg) (v : Bool) : (s.setTag q v).p = s.p := rfl
@[simp] theorem State.setTag_a (s : State) (q : PReg) (v : Bool) : (s.setTag q v).a = s.a := rfl
@[simp] theorem State.setTag_b (s : State) (q : PReg) (v : Bool) : (s.setTag q v).b = s.b := rfl
@[simp] theorem State.setTag_gx (s : State) (q : PReg) (v : Bool) : (s.setTag q v).gx = s.gx := rfl
@[simp] theorem State.setTag_gy (s : State) (q : PReg) (v : Bool) : (s.setTag q v).gy = s.gy := rfl
@[simp] theorem State.setTag_n (s : State) (q : PReg) (v : Bool) : (s.setTag q v).n = s.n := rfl
@[simp] theorem State.setTag_bitsize (s : State) (q : PReg) (v : Bool) : (s.setTag q v).bitsize = s.bitsize := rfl
@[simp] theorem State.setTag_flocked (s : State) (q : PReg) (v : Bool) : (s.setTag q v).flocked = s.flocked := rfl
@[simp] theorem State.setTag_clocked (s : State) (q : PReg) (v : Bool) : (s.setTag q v).clocked = s.clocked := rfl
@[simp] theorem State.setTag_ferr (s : State) (q : PReg) (v : Bool) : (s.setTag q v).ferr = s.ferr := rfl
@[simp] theorem State.setTag_cerr (s : State) (q : PReg) (v : Bool) : (s.setTag q v).cerr = s.cerr := rfl
@[simp] theorem State.setTag_strict58 (s : State) (q : PReg) (v : Bool) : (s.setTag q v).strict58 = s.strict58 := rfl
@[simp] theorem State.setTag_ieDone (s : State) (q : PReg) (v : Bool) : (s.setTag q v).ieDone = s.ieDone := rfl
@[simp] theorem State.setTag_ieErr (s : State) (q : PReg) (v : Bool) : (s.setTag q v).ieErr = s.ieErr := rfl
@[simp] theorem State.setTag_ieHost (s : State) (q : PReg) (v : Bool) : (s.setTag q v).ieHost = s.ieHost := rfl
@[simp] theorem State.setTag_busy (s : State) (q : PReg) (v : Bool) : (s.setTag q v).busy = s.busy := rfl
@[simp] theorem State.setTag_done (s : State) (q : PReg) (v : Bool) : (s.setTag q v).done = s.done := rfl
@[simp] theorem State.setTag_err (s : State) (q : PReg) (v : Bool) : (s.setTag q v).err = s.err := rfl
@[simp] theorem State.setTag_hosterr (s : State) (q : PReg) (v : Bool) : (s.setTag q v).hosterr = s.hosterr := rfl
@[simp] theorem State.setTag_onc (s : State) (q : PReg) (v : Bool) : (s.setTag q v).onc = s.onc := rfl
@[simp] theorem State.setTag_entry (s : State) (q : PReg) (v : Bool) : (s.setTag q v).entry = s.entry := rfl
@[simp] theorem State.setTag_pc (s : State) (q : PReg) (v : Bool) : (s.setTag q v).pc = s.pc := rfl
@[simp] theorem State.setTag_errcode (s : State) (q : PReg) (v : Bool) : (s.setTag q v).errcode = s.errcode := rfl
@[simp] theorem State.setTag_errpc (s : State) (q : PReg) (v : Bool) : (s.setTag q v).errpc = s.errpc := rfl
@[simp] theorem State.setTag_errcmd (s : State) (q : PReg) (v : Bool) : (s.setTag q v).errcmd = s.errcmd := rfl
@[simp] theorem State.setTag_mem (s : State) (q : PReg) (v : Bool) : (s.setTag q v).mem = s.mem := rfl
@[simp] theorem State.setTag_blen (s : State) (q : PReg) (v : Bool) : (s.setTag q v).blen = s.blen := rfl
@[simp] theorem State.setTag_slen (s : State) (q : PReg) (v : Bool) : (s.setTag q v).slen = s.slen := rfl
@[simp] theorem State.setTag_b58n (s : State) (q : PReg) (v : Bool) : (s.setTag q v).b58n = s.b58n := rfl
@[simp] theorem State.setTag_b58ver (s : State) (q : PReg) (v : Bool) : (s.setTag q v).b58ver = s.b58ver := rfl
@[simp] theorem State.setTag_agenda (s : State) (q : PReg) (v : Bool) : (s.setTag q v).agenda = s.agenda := rfl
@[simp] theorem State.setTag_reply (s : State) (q : PReg) (v : Bool) : (s.setTag q v).reply = s.reply := rfl
@[simp] theorem State.setTag_draws (s : State) (q : PReg) (v : Bool) : (s.setTag q v).draws = s.draws := rfl

/-! ## setPoint -/

@[simp] theorem State.setPoint_params (s : State) (q : PReg) (pt : Point) : (s.setPoint q pt).params = s.params := by cases pt <;> rfl
@[simp] theorem State.setPoint_p (s : State) (q : PReg) (pt : Point) : (s.setPoint q pt).p = s.p := by cases pt <;> rfl
@[simp] theorem State.setPoint_a (s : State) (q : PReg) (pt : Point) : (s.setPoint q pt).a = s.a := by cases pt <;> rfl
@[simp] theorem State.setPoint_b (s : State) (q : PReg) (pt : Point) : (s.setPoint q pt).b = s.b := by cases pt <;> rfl
@[simp] theorem State.setPoint_gx (s : State) (q : PReg) (pt : Point) : (s.setPoint q pt).gx = s.gx := by cases pt <;> rfl
@[simp] theorem State.setPoint_gy (s : State) (q : PReg) (pt : Point) : (s.setPoint q pt).gy = s.gy := by cases pt <;> rfl
@[simp] theorem State.setPoint_n (s : State) (q : PReg) (pt : Point) : (s.setPoint q pt).n = s.n := by cases pt <;> rfl
@[simp] theorem State.setPoint_bitsize (s : State) (q : PReg) (pt : Point) : (s.setPoint q pt).bitsize = s.bitsize := by cases pt <;> rfl
@[simp] theorem State.setPoint_flocked (s : State) (q : PReg) (pt : Point) : (s.setPoint q pt).flocked = s.flocked := by cases pt <;> rfl
@[simp] theorem State.setPoint_clocked (s : State) (q : PReg) (pt : Point) : (s.setPoint q pt).clocked = s.clocked := by cases pt <;> rfl
@[simp] theorem State.setPoint_ferr (s : State) (q : PReg) (pt : Point) : (s.setPoint q pt).ferr = s.ferr := by cases pt <;> rfl
@[simp] theorem State.setPoint_cerr (s : State) (q : PReg) (pt : Point) : (s.setPoint q pt).cerr = s.cerr := by cases pt <;> rfl
@[simp] theorem State.setPoint_strict58 (s : State) (q : PReg) (pt : Point) : (s.setPoint q pt).strict58 = s.strict58 := by cases pt <;> rfl
@[simp] theorem State.setPoint_ieDone (s : State) (q : PReg) (pt : Point) : (s.setPoint q pt).ieDone = s.ieDone := by cases pt <;> rfl
@[simp] theorem State.setPoint_ieErr (s : State) (q : PReg) (pt : Point) : (s.setPoint q pt).ieErr = s.ieErr := by cases pt <;> rfl
@[simp] theorem State.setPoint_ieHost (s : State) (q : PReg) (pt : Point) : (s.setPoint q pt).ieHost = s.ieHost := by cases pt <;> rfl
@[simp] theorem State.setPoint_busy (s : State) (q : PReg) (pt : Point) : (s.setPoint q pt).busy = s.busy := by cases pt <;> rfl
@[simp] theorem State.setPoint_done (s : State) (q : PReg) (pt : Point) : (s.setPoint q pt).done = s.done := by cases pt <;> rfl
@[simp] theorem State.setPoint_err (s : State) (q : PReg) (pt : Point) : (s.setPoint q pt).err = s.err := by cases pt <;> rfl
@[simp] theorem State.setPoint_hosterr (s : State) (q : PReg) (pt : Point) : (s.setPoint q pt).hosterr = s.hosterr := by cases pt <;> rfl
@[simp] theorem State.setPoint_onc (s : State) (q : PReg) (pt : Point) : (s.setPoint q pt).onc = s.onc := by cases pt <;> rfl
@[simp] theorem State.setPoint_entry (s : State) (q : PReg) (pt : Point) : (s.setPoint q pt).entry = s.entry := by cases pt <;> rfl
@[simp] theorem State.setPoint_pc (s : State) (q : PReg) (pt : Point) : (s.setPoint q pt).pc = s.pc := by cases pt <;> rfl
@[simp] theorem State.setPoint_errcode (s : State) (q : PReg) (pt : Point) : (s.setPoint q pt).errcode = s.errcode := by cases pt <;> rfl
@[simp] theorem State.setPoint_errpc (s : State) (q : PReg) (pt : Point) : (s.setPoint q pt).errpc = s.errpc := by cases pt <;> rfl
@[simp] theorem State.setPoint_errcmd (s : State) (q : PReg) (pt : Point) : (s.setPoint q pt).errcmd = s.errcmd := by cases pt <;> rfl
@[simp] theorem State.setPoint_mem (s : State) (q : PReg) (pt : Point) : (s.setPoint q pt).mem = s.mem := by cases pt <;> rfl
@[simp] theorem State.setPoint_blen (s : State) (q : PReg) (pt : Point) : (s.setPoint q pt).blen = s.blen := by cases pt <;> rfl
@[simp] theorem State.setPoint_slen (s : State) (q : PReg) (pt : Point) : (s.setPoint q pt).slen = s.slen := by cases pt <;> rfl
@[simp] theorem State.setPoint_b58n (s : State) (q : PReg) (pt : Point) : (s.setPoint q pt).b58n = s.b58n := by cases pt <;> rfl
@[simp] theorem State.setPoint_b58ver (s : State) (q : PReg) (pt : Point) : (s.setPoint q pt).b58ver = s.b58ver := by cases pt <;> rfl
@[simp] theorem State.setPoint_agenda (s : State) (q : PReg) (pt : Point) : (s.setPoint q pt).agenda = s.agenda := by cases pt <;> rfl
@[simp] theorem State.setPoint_reply (s : State) (q : PReg) (pt : Point) : (s.setPoint q pt).reply = s.reply := by cases pt <;> rfl
@[simp] theorem State.setPoint_draws (s : State) (q : PReg) (pt : Point) : (s.setPoint q pt).draws = s.draws := by cases pt <;> rfl

/-! ## writeBuf -/

@[simp] theorem State.writeBuf_params (s : State) (r : List Byte) : (s.writeBuf r).params = s.params := rfl
@[simp] theorem State.writeBuf_f (s : State) (r : List Byte) : (s.writeBuf r).f = s.f := rfl
@[simp] theorem State.writeBuf_ptag (s : State) (r : List Byte) : (s.writeBuf r).ptag = s.ptag := rfl
@[simp] theorem State.writeBuf_p (s : State) (r : List Byte) : (s.writeBuf r).p = s.p := rfl
@[simp] theorem State.writeBuf_a (s : State) (r : List Byte) : (s.writeBuf r).a = s.a := rfl
@[simp] theorem State.writeBuf_b (s : State) (r : List Byte) : (s.writeBuf r).b = s.b := rfl
@[simp] theorem State.writeBuf_gx (s : State) (r : List Byte) : (s.writeBuf r).gx = s.gx := rfl
@[simp] theorem State.writeBuf_gy (s : State) (r : List Byte) : (s.writeBuf r).gy = s.gy := rfl
@[simp] theorem State.writeBuf_n (s : State) (r : List Byte) : (s.writeBuf r).n = s.n := rfl
@[simp] theorem State.writeBuf_bitsize (s : State) (r : List Byte) : (s.writeBuf r).bitsize = s.bitsize := rfl
@[simp] theorem State.writeBuf_flocked (s : State) (r : List Byte) : (s.writeBuf r).flocked = s.flocked := rfl
@[simp] theorem State.writeBuf_clocked (s : State) (r : List Byte) : (s.writeBuf r).clocked = s.clocked := rfl
@[simp] theorem State.writeBuf_ferr (s : State) (r : List Byte) : (s.writeBuf r).ferr = s.ferr := rfl
@[simp] theorem State.writeBuf_cerr (s : State) (r : List Byte) : (s.writeBuf r).cerr = s.cerr := rfl
@[simp] theorem State.writeBuf_strict58 (s : State) (r : List Byte) : (s.writeBuf r).strict58 = s.strict58 := rfl
@[simp] theorem State.writeBuf_ieDone (s : State) (r : List Byte) : (s.writeBuf r).ieDone = s.ieDone := rfl
@[simp] theorem State.writeBuf_ieErr (s : State) (r : List Byte) : (s.writeBuf r).ieErr = s.ieErr := rfl
@[simp] theorem State.writeBuf_ieHost (s : State) (r : List Byte) : (s.writeBuf r).ieHost = s.ieHost := rfl
@[simp] theorem State.writeBuf_busy (s : State) (r : List Byte) : (s.writeBuf r).busy = s.busy := rfl
@[simp] theorem State.writeBuf_done (s : State) (r : List Byte) : (s.writeBuf r).done = s.done := rfl
@[simp] theorem State.writeBuf_err (s : State) (r : List Byte) : (s.writeBuf r).err = s.err := rfl
@[simp] theorem State.writeBuf_hosterr (s : State) (r : List Byte) : (s.writeBuf r).hosterr = s.hosterr := rfl
@[simp] theorem State.writeBuf_onc (s : State) (r : List Byte) : (s.writeBuf r).onc = s.onc := rfl
@[simp] theorem State.writeBuf_entry (s : State) (r : List Byte) : (s.writeBuf r).entry = s.entry := rfl
@[simp] theorem State.writeBuf_pc (s : State) (r : List Byte) : (s.writeBuf r).pc = s.pc := rfl
@[simp] theorem State.writeBuf_errcode (s : State) (r : List Byte) : (s.writeBuf r).errcode = s.errcode := rfl
@[simp] theorem State.writeBuf_errpc (s : State) (r : List Byte) : (s.writeBuf r).errpc = s.errpc := rfl
@[simp] theorem State.writeBuf_errcmd (s : State) (r : List Byte) : (s.writeBuf r).errcmd = s.errcmd := rfl
@[simp] theorem State.writeBuf_mem (s : State) (r : List Byte) : (s.writeBuf r).mem = s.mem.writeBytes bufBase r := rfl
@[simp] theorem State.writeBuf_blen (s : State) (r : List Byte) : (s.writeBuf r).blen = s.blen := rfl
@[simp] theorem State.writeBuf_slen (s : State) (r : List Byte) : (s.writeBuf r).slen = s.slen := rfl
@[simp] theorem State.writeBuf_b58n (s : State) (r : List Byte) : (s.writeBuf r).b58n = s.b58n := rfl
@[simp] theorem State.writeBuf_b58ver (s : State) (r : List Byte) : (s.writeBuf r).b58ver = s.b58ver := rfl
@[simp] theorem State.writeBuf_agenda (s : State) (r : List Byte) : (s.writeBuf r).agenda = s.agenda := rfl
@[simp] theorem State.writeBuf_reply (s : State) (r : List Byte) : (s.writeBuf r).reply = s.reply := rfl
@[simp] theorem State.writeBuf_draws (s : State) (r : List Byte) : (s.writeBuf r).draws = s.draws := rfl

/-! ## writeStr -/

@[simp] theorem State.writeStr_params (s : State) (r : List Byte) : (s.writeStr r).params = s.params := rfl
@[simp] theorem State.writeStr_f (s : State) (r : List Byte) : (s.writeStr r).f = s.f := rfl
@[simp] theorem State.writeStr_ptag (s : State) (r : List Byte) : (s.writeStr r).ptag = s.ptag := rfl
@[simp] theorem State.writeStr_p (s : State) (r : List Byte) : (s.writeStr r).p = s.p := rfl
@[simp] theorem State.writeStr_a (s : State) (r : List Byte) : (s.writeStr r).a = s.a := rfl
@[simp] theorem State.writeStr_b (s : State) (r : List Byte) : (s.writeStr r).b = s.b := rfl
@[simp] theorem State.writeStr_gx (s : State) (r : List Byte) : (s.writeStr r).gx = s.gx := rfl
@[simp] theorem State.writeStr_gy (s : State) (r : List Byte) : (s.writeStr r).gy = s.gy := rfl
@[simp] theorem State.writeStr_n (s : State) (r : List Byte) : (s.writeStr r).n = s.n := rfl
@[simp] theorem State.writeStr_bitsize (s : State) (r : List Byte) : (s.writeStr r).bitsize = s.bitsize := rfl
@[simp] theorem State.writeStr_flocked (s : State) (r : List Byte) : (s.writeStr r).flocked = s.flocked := rfl
@[simp] theorem State.writeStr_clocked (s : State) (r : List Byte) : (s.writeStr r).clocked = s.clocked := rfl
@[simp] theorem State.writeStr_ferr (s : State) (r : List Byte) : (s.writeStr r).ferr = s.ferr := rfl
@[simp] theorem State.writeStr_cerr (s : State) (r : List Byte) : (s.writeStr r).cerr = s.cerr := rfl
@[simp] theorem State.writeStr_strict58 (s : State) (r : List Byte) : (s.writeStr r).strict58 = s.strict58 := rfl
@[simp] theorem State.writeStr_ieDone (s : State) (r : List Byte) : (s.writeStr r).ieDone = s.ieDone := rfl
@[simp] theorem State.writeStr_ieErr (s : State) (r : List Byte) : (s.writeStr r).ieErr = s.ieErr := rfl
@[simp] theorem State.writeStr_ieHost (s : State) (r : List Byte) : (s.writeStr r).ieHost = s.ieHost := rfl
@[simp] theorem State.writeStr_busy (s : State) (r : List Byte) : (s.writeStr r).busy = s.busy := rfl
@[simp] theorem State.writeStr_done (s : State) (r : List Byte) : (s.writeStr r).done = s.done := rfl
@[simp] theorem State.writeStr_err (s : State) (r : List Byte) : (s.writeStr r).err = s.err := rfl
@[simp] theorem State.writeStr_hosterr (s : State) (r : List Byte) : (s.writeStr r).hosterr = s.hosterr := rfl
@[simp] theorem State.writeStr_onc (s : State) (r : List Byte) : (s.writeStr r).onc = s.onc := rfl
@[simp] theorem State.writeStr_entry (s : State) (r : List Byte) : (s.writeStr r).entry = s.entry := rfl
@[simp] theorem State.writeStr_pc (s : State) (r : List Byte) : (s.writeStr r).pc = s.pc := rfl
@[simp] theorem State.writeStr_errcode (s : State) (r : List Byte) : (s.writeStr r).errcode = s.errcode := rfl
@[simp] theorem State.writeStr_errpc (s : State) (r : List Byte) : (s.writeStr r).errpc = s.errpc := rfl
@[simp] theorem State.writeStr_errcmd (s : State) (r : List Byte) : (s.writeStr r).errcmd = s.errcmd := rfl
@[simp] theorem State.writeStr_mem (s : State) (r : List Byte) : (s.writeStr r).mem = s.mem.writeBytes strBase r := rfl
@[simp] theorem State.writeStr_blen (s : State) (r : List Byte) : (s.writeStr r).blen = s.blen := rfl
@[simp] theorem State.writeStr_slen (s : State) (r : List Byte) : (s.writeStr r).slen = s.slen := rfl
@[simp] theorem State.writeStr_b58n (s : State) (r : List Byte) : (s.writeStr r).b58n = s.b58n := rfl
@[simp] theorem State.writeStr_b58ver (s : State) (r : List Byte) : (s.writeStr r).b58ver = s.b58ver := rfl
@[simp] theorem State.writeStr_agenda (s : State) (r : List Byte) : (s.writeStr r).agenda = s.agenda := rfl
@[simp] theorem State.writeStr_reply (s : State) (r : List Byte) : (s.writeStr r).reply = s.reply := rfl
@[simp] theorem State.writeStr_draws (s : State) (r : List Byte) : (s.writeStr r).draws = s.draws := rfl

/-! ## setCmdWord -/

@[simp] theorem State.setCmdWord_params (s : State) (i : BitVec 6) (w : Word32) : (s.setCmdWord i w).params = s.params := rfl
@[simp] theorem State.setCmdWord_f (s : State) (i : BitVec 6) (w : Word32) : (s.setCmdWord i w).f = s.f := rfl
@[simp] theorem State.setCmdWord_ptag (s : State) (i : BitVec 6) (w : Word32) : (s.setCmdWord i w).ptag = s.ptag := rfl
@[simp] theorem State.setCmdWord_p (s : State) (i : BitVec 6) (w : Word32) : (s.setCmdWord i w).p = s.p := rfl
@[simp] theorem State.setCmdWord_a (s : State) (i : BitVec 6) (w : Word32) : (s.setCmdWord i w).a = s.a := rfl
@[simp] theorem State.setCmdWord_b (s : State) (i : BitVec 6) (w : Word32) : (s.setCmdWord i w).b = s.b := rfl
@[simp] theorem State.setCmdWord_gx (s : State) (i : BitVec 6) (w : Word32) : (s.setCmdWord i w).gx = s.gx := rfl
@[simp] theorem State.setCmdWord_gy (s : State) (i : BitVec 6) (w : Word32) : (s.setCmdWord i w).gy = s.gy := rfl
@[simp] theorem State.setCmdWord_n (s : State) (i : BitVec 6) (w : Word32) : (s.setCmdWord i w).n = s.n := rfl
@[simp] theorem State.setCmdWord_bitsize (s : State) (i : BitVec 6) (w : Word32) : (s.setCmdWord i w).bitsize = s.bitsize := rfl
@[simp] theorem State.setCmdWord_flocked (s : State) (i : BitVec 6) (w : Word32) : (s.setCmdWord i w).flocked = s.flocked := rfl
@[simp] theorem State.setCmdWord_clocked (s : State) (i : BitVec 6) (w : Word32) : (s.setCmdWord i w).clocked = s.clocked := rfl
@[simp] theorem State.setCmdWord_ferr (s : State) (i : BitVec 6) (w : Word32) : (s.setCmdWord i w).ferr = s.ferr := rfl
@[simp] theorem State.setCmdWord_cerr (s : State) (i : BitVec 6) (w : Word32) : (s.setCmdWord i w).cerr = s.cerr := rfl
@[simp] theorem State.setCmdWord_strict58 (s : State) (i : BitVec 6) (w : Word32) : (s.setCmdWord i w).strict58 = s.strict58 := rfl
@[simp] theorem State.setCmdWord_ieDone (s : State) (i : BitVec 6) (w : Word32) : (s.setCmdWord i w).ieDone = s.ieDone := rfl
@[simp] theorem State.setCmdWord_ieErr (s : State) (i : BitVec 6) (w : Word32) : (s.setCmdWord i w).ieErr = s.ieErr := rfl
@[simp] theorem State.setCmdWord_ieHost (s : State) (i : BitVec 6) (w : Word32) : (s.setCmdWord i w).ieHost = s.ieHost := rfl
@[simp] theorem State.setCmdWord_busy (s : State) (i : BitVec 6) (w : Word32) : (s.setCmdWord i w).busy = s.busy := rfl
@[simp] theorem State.setCmdWord_done (s : State) (i : BitVec 6) (w : Word32) : (s.setCmdWord i w).done = s.done := rfl
@[simp] theorem State.setCmdWord_err (s : State) (i : BitVec 6) (w : Word32) : (s.setCmdWord i w).err = s.err := rfl
@[simp] theorem State.setCmdWord_hosterr (s : State) (i : BitVec 6) (w : Word32) : (s.setCmdWord i w).hosterr = s.hosterr := rfl
@[simp] theorem State.setCmdWord_onc (s : State) (i : BitVec 6) (w : Word32) : (s.setCmdWord i w).onc = s.onc := rfl
@[simp] theorem State.setCmdWord_entry (s : State) (i : BitVec 6) (w : Word32) : (s.setCmdWord i w).entry = s.entry := rfl
@[simp] theorem State.setCmdWord_pc (s : State) (i : BitVec 6) (w : Word32) : (s.setCmdWord i w).pc = s.pc := rfl
@[simp] theorem State.setCmdWord_errcode (s : State) (i : BitVec 6) (w : Word32) : (s.setCmdWord i w).errcode = s.errcode := rfl
@[simp] theorem State.setCmdWord_errpc (s : State) (i : BitVec 6) (w : Word32) : (s.setCmdWord i w).errpc = s.errpc := rfl
@[simp] theorem State.setCmdWord_errcmd (s : State) (i : BitVec 6) (w : Word32) : (s.setCmdWord i w).errcmd = s.errcmd := rfl
@[simp] theorem State.setCmdWord_mem (s : State) (i : BitVec 6) (w : Word32) : (s.setCmdWord i w).mem = s.mem.writeWord (cmdBase + 4 * i.toNat) w := rfl
@[simp] theorem State.setCmdWord_blen (s : State) (i : BitVec 6) (w : Word32) : (s.setCmdWord i w).blen = s.blen := rfl
@[simp] theorem State.setCmdWord_slen (s : State) (i : BitVec 6) (w : Word32) : (s.setCmdWord i w).slen = s.slen := rfl
@[simp] theorem State.setCmdWord_b58n (s : State) (i : BitVec 6) (w : Word32) : (s.setCmdWord i w).b58n = s.b58n := rfl
@[simp] theorem State.setCmdWord_b58ver (s : State) (i : BitVec 6) (w : Word32) : (s.setCmdWord i w).b58ver = s.b58ver := rfl
@[simp] theorem State.setCmdWord_agenda (s : State) (i : BitVec 6) (w : Word32) : (s.setCmdWord i w).agenda = s.agenda := rfl
@[simp] theorem State.setCmdWord_reply (s : State) (i : BitVec 6) (w : Word32) : (s.setCmdWord i w).reply = s.reply := rfl
@[simp] theorem State.setCmdWord_draws (s : State) (i : BitVec 6) (w : Word32) : (s.setCmdWord i w).draws = s.draws := rfl

/-! ## setOnc -/

@[simp] theorem State.setOnc_params (s : State) (v : Bool) : (s.setOnc v).params = s.params := rfl
@[simp] theorem State.setOnc_f (s : State) (v : Bool) : (s.setOnc v).f = s.f := rfl
@[simp] theorem State.setOnc_ptag (s : State) (v : Bool) : (s.setOnc v).ptag = s.ptag := rfl
@[simp] theorem State.setOnc_p (s : State) (v : Bool) : (s.setOnc v).p = s.p := rfl
@[simp] theorem State.setOnc_a (s : State) (v : Bool) : (s.setOnc v).a = s.a := rfl
@[simp] theorem State.setOnc_b (s : State) (v : Bool) : (s.setOnc v).b = s.b := rfl
@[simp] theorem State.setOnc_gx (s : State) (v : Bool) : (s.setOnc v).gx = s.gx := rfl
@[simp] theorem State.setOnc_gy (s : State) (v : Bool) : (s.setOnc v).gy = s.gy := rfl
@[simp] theorem State.setOnc_n (s : State) (v : Bool) : (s.setOnc v).n = s.n := rfl
@[simp] theorem State.setOnc_bitsize (s : State) (v : Bool) : (s.setOnc v).bitsize = s.bitsize := rfl
@[simp] theorem State.setOnc_flocked (s : State) (v : Bool) : (s.setOnc v).flocked = s.flocked := rfl
@[simp] theorem State.setOnc_clocked (s : State) (v : Bool) : (s.setOnc v).clocked = s.clocked := rfl
@[simp] theorem State.setOnc_ferr (s : State) (v : Bool) : (s.setOnc v).ferr = s.ferr := rfl
@[simp] theorem State.setOnc_cerr (s : State) (v : Bool) : (s.setOnc v).cerr = s.cerr := rfl
@[simp] theorem State.setOnc_strict58 (s : State) (v : Bool) : (s.setOnc v).strict58 = s.strict58 := rfl
@[simp] theorem State.setOnc_ieDone (s : State) (v : Bool) : (s.setOnc v).ieDone = s.ieDone := rfl
@[simp] theorem State.setOnc_ieErr (s : State) (v : Bool) : (s.setOnc v).ieErr = s.ieErr := rfl
@[simp] theorem State.setOnc_ieHost (s : State) (v : Bool) : (s.setOnc v).ieHost = s.ieHost := rfl
@[simp] theorem State.setOnc_busy (s : State) (v : Bool) : (s.setOnc v).busy = s.busy := rfl
@[simp] theorem State.setOnc_done (s : State) (v : Bool) : (s.setOnc v).done = s.done := rfl
@[simp] theorem State.setOnc_err (s : State) (v : Bool) : (s.setOnc v).err = s.err := rfl
@[simp] theorem State.setOnc_hosterr (s : State) (v : Bool) : (s.setOnc v).hosterr = s.hosterr := rfl
@[simp] theorem State.setOnc_onc (s : State) (v : Bool) : (s.setOnc v).onc = v := rfl
@[simp] theorem State.setOnc_entry (s : State) (v : Bool) : (s.setOnc v).entry = s.entry := rfl
@[simp] theorem State.setOnc_pc (s : State) (v : Bool) : (s.setOnc v).pc = s.pc := rfl
@[simp] theorem State.setOnc_errcode (s : State) (v : Bool) : (s.setOnc v).errcode = s.errcode := rfl
@[simp] theorem State.setOnc_errpc (s : State) (v : Bool) : (s.setOnc v).errpc = s.errpc := rfl
@[simp] theorem State.setOnc_errcmd (s : State) (v : Bool) : (s.setOnc v).errcmd = s.errcmd := rfl
@[simp] theorem State.setOnc_mem (s : State) (v : Bool) : (s.setOnc v).mem = s.mem := rfl
@[simp] theorem State.setOnc_blen (s : State) (v : Bool) : (s.setOnc v).blen = s.blen := rfl
@[simp] theorem State.setOnc_slen (s : State) (v : Bool) : (s.setOnc v).slen = s.slen := rfl
@[simp] theorem State.setOnc_b58n (s : State) (v : Bool) : (s.setOnc v).b58n = s.b58n := rfl
@[simp] theorem State.setOnc_b58ver (s : State) (v : Bool) : (s.setOnc v).b58ver = s.b58ver := rfl
@[simp] theorem State.setOnc_agenda (s : State) (v : Bool) : (s.setOnc v).agenda = s.agenda := rfl
@[simp] theorem State.setOnc_reply (s : State) (v : Bool) : (s.setOnc v).reply = s.reply := rfl
@[simp] theorem State.setOnc_draws (s : State) (v : Bool) : (s.setOnc v).draws = s.draws := rfl

/-! ## stopError -/

@[simp] theorem State.stopError_params (s : State) (e : ErrKind) : (s.stopError e).params = s.params := rfl
@[simp] theorem State.stopError_f (s : State) (e : ErrKind) : (s.stopError e).f = s.f := rfl
@[simp] theorem State.stopError_ptag (s : State) (e : ErrKind) : (s.stopError e).ptag = s.ptag := rfl
@[simp] theorem State.stopError_p (s : State) (e : ErrKind) : (s.stopError e).p = s.p := rfl
@[simp] theorem State.stopError_a (s : State) (e : ErrKind) : (s.stopError e).a = s.a := rfl
@[simp] theorem State.stopError_b (s : State) (e : ErrKind) : (s.stopError e).b = s.b := rfl
@[simp] theorem State.stopError_gx (s : State) (e : ErrKind) : (s.stopError e).gx = s.gx := rfl
@[simp] theorem State.stopError_gy (s : State) (e : ErrKind) : (s.stopError e).gy = s.gy := rfl
@[simp] theorem State.stopError_n (s : State) (e : ErrKind) : (s.stopError e).n = s.n := rfl
@[simp] theorem State.stopError_bitsize (s : State) (e : ErrKind) : (s.stopError e).bitsize = s.bitsize := rfl
@[simp] theorem State.stopError_flocked (s : State) (e : ErrKind) : (s.stopError e).flocked = s.flocked := rfl
@[simp] theorem State.stopError_clocked (s : State) (e : ErrKind) : (s.stopError e).clocked = s.clocked := rfl
@[simp] theorem State.stopError_ferr (s : State) (e : ErrKind) : (s.stopError e).ferr = s.ferr := rfl
@[simp] theorem State.stopError_cerr (s : State) (e : ErrKind) : (s.stopError e).cerr = s.cerr := rfl
@[simp] theorem State.stopError_strict58 (s : State) (e : ErrKind) : (s.stopError e).strict58 = s.strict58 := rfl
@[simp] theorem State.stopError_ieDone (s : State) (e : ErrKind) : (s.stopError e).ieDone = s.ieDone := rfl
@[simp] theorem State.stopError_ieErr (s : State) (e : ErrKind) : (s.stopError e).ieErr = s.ieErr := rfl
@[simp] theorem State.stopError_ieHost (s : State) (e : ErrKind) : (s.stopError e).ieHost = s.ieHost := rfl
@[simp] theorem State.stopError_busy (s : State) (e : ErrKind) : (s.stopError e).busy = false := rfl
@[simp] theorem State.stopError_done (s : State) (e : ErrKind) : (s.stopError e).done = s.done := rfl
@[simp] theorem State.stopError_err (s : State) (e : ErrKind) : (s.stopError e).err = true := rfl
@[simp] theorem State.stopError_hosterr (s : State) (e : ErrKind) : (s.stopError e).hosterr = s.hosterr := rfl
@[simp] theorem State.stopError_onc (s : State) (e : ErrKind) : (s.stopError e).onc = s.onc := rfl
@[simp] theorem State.stopError_entry (s : State) (e : ErrKind) : (s.stopError e).entry = s.entry := rfl
@[simp] theorem State.stopError_pc (s : State) (e : ErrKind) : (s.stopError e).pc = s.pc := rfl
@[simp] theorem State.stopError_errcode (s : State) (e : ErrKind) : (s.stopError e).errcode = e.code := rfl
@[simp] theorem State.stopError_errpc (s : State) (e : ErrKind) : (s.stopError e).errpc = s.pc := rfl
@[simp] theorem State.stopError_errcmd (s : State) (e : ErrKind) : (s.stopError e).errcmd = s.fetch := rfl
@[simp] theorem State.stopError_mem (s : State) (e : ErrKind) : (s.stopError e).mem = s.mem := rfl
@[simp] theorem State.stopError_blen (s : State) (e : ErrKind) : (s.stopError e).blen = s.blen := rfl
@[simp] theorem State.stopError_slen (s : State) (e : ErrKind) : (s.stopError e).slen = s.slen := rfl
@[simp] theorem State.stopError_b58n (s : State) (e : ErrKind) : (s.stopError e).b58n = s.b58n := rfl
@[simp] theorem State.stopError_b58ver (s : State) (e : ErrKind) : (s.stopError e).b58ver = s.b58ver := rfl
@[simp] theorem State.stopError_agenda (s : State) (e : ErrKind) : (s.stopError e).agenda = s.agenda := rfl
@[simp] theorem State.stopError_reply (s : State) (e : ErrKind) : (s.stopError e).reply = s.reply := rfl
@[simp] theorem State.stopError_draws (s : State) (e : ErrKind) : (s.stopError e).draws = s.draws := rfl

/-! ## stopDone -/

@[simp] theorem State.stopDone_params (s : State) : (s.stopDone).params = s.params := rfl
@[simp] theorem State.stopDone_f (s : State) : (s.stopDone).f = s.f := rfl
@[simp] theorem State.stopDone_ptag (s : State) : (s.stopDone).ptag = s.ptag := rfl
@[simp] theorem State.stopDone_p (s : State) : (s.stopDone).p = s.p := rfl
@[simp] theorem State.stopDone_a (s : State) : (s.stopDone).a = s.a := rfl
@[simp] theorem State.stopDone_b (s : State) : (s.stopDone).b = s.b := rfl
@[simp] theorem State.stopDone_gx (s : State) : (s.stopDone).gx = s.gx := rfl
@[simp] theorem State.stopDone_gy (s : State) : (s.stopDone).gy = s.gy := rfl
@[simp] theorem State.stopDone_n (s : State) : (s.stopDone).n = s.n := rfl
@[simp] theorem State.stopDone_bitsize (s : State) : (s.stopDone).bitsize = s.bitsize := rfl
@[simp] theorem State.stopDone_flocked (s : State) : (s.stopDone).flocked = s.flocked := rfl
@[simp] theorem State.stopDone_clocked (s : State) : (s.stopDone).clocked = s.clocked := rfl
@[simp] theorem State.stopDone_ferr (s : State) : (s.stopDone).ferr = s.ferr := rfl
@[simp] theorem State.stopDone_cerr (s : State) : (s.stopDone).cerr = s.cerr := rfl
@[simp] theorem State.stopDone_strict58 (s : State) : (s.stopDone).strict58 = s.strict58 := rfl
@[simp] theorem State.stopDone_ieDone (s : State) : (s.stopDone).ieDone = s.ieDone := rfl
@[simp] theorem State.stopDone_ieErr (s : State) : (s.stopDone).ieErr = s.ieErr := rfl
@[simp] theorem State.stopDone_ieHost (s : State) : (s.stopDone).ieHost = s.ieHost := rfl
@[simp] theorem State.stopDone_busy (s : State) : (s.stopDone).busy = false := rfl
@[simp] theorem State.stopDone_done (s : State) : (s.stopDone).done = true := rfl
@[simp] theorem State.stopDone_err (s : State) : (s.stopDone).err = s.err := rfl
@[simp] theorem State.stopDone_hosterr (s : State) : (s.stopDone).hosterr = s.hosterr := rfl
@[simp] theorem State.stopDone_onc (s : State) : (s.stopDone).onc = s.onc := rfl
@[simp] theorem State.stopDone_entry (s : State) : (s.stopDone).entry = s.entry := rfl
@[simp] theorem State.stopDone_pc (s : State) : (s.stopDone).pc = s.pc := rfl
@[simp] theorem State.stopDone_errcode (s : State) : (s.stopDone).errcode = s.errcode := rfl
@[simp] theorem State.stopDone_errpc (s : State) : (s.stopDone).errpc = s.errpc := rfl
@[simp] theorem State.stopDone_errcmd (s : State) : (s.stopDone).errcmd = s.errcmd := rfl
@[simp] theorem State.stopDone_mem (s : State) : (s.stopDone).mem = s.mem := rfl
@[simp] theorem State.stopDone_blen (s : State) : (s.stopDone).blen = s.blen := rfl
@[simp] theorem State.stopDone_slen (s : State) : (s.stopDone).slen = s.slen := rfl
@[simp] theorem State.stopDone_b58n (s : State) : (s.stopDone).b58n = s.b58n := rfl
@[simp] theorem State.stopDone_b58ver (s : State) : (s.stopDone).b58ver = s.b58ver := rfl
@[simp] theorem State.stopDone_agenda (s : State) : (s.stopDone).agenda = s.agenda := rfl
@[simp] theorem State.stopDone_reply (s : State) : (s.stopDone).reply = s.reply := rfl
@[simp] theorem State.stopDone_draws (s : State) : (s.stopDone).draws = s.draws := rfl

/-! ## advance -/

@[simp] theorem State.advance_params (s : State) : (s.advance).params = s.params := by unfold State.advance; split <;> rfl
@[simp] theorem State.advance_f (s : State) : (s.advance).f = s.f := by unfold State.advance; split <;> rfl
@[simp] theorem State.advance_ptag (s : State) : (s.advance).ptag = s.ptag := by unfold State.advance; split <;> rfl
@[simp] theorem State.advance_p (s : State) : (s.advance).p = s.p := by unfold State.advance; split <;> rfl
@[simp] theorem State.advance_a (s : State) : (s.advance).a = s.a := by unfold State.advance; split <;> rfl
@[simp] theorem State.advance_b (s : State) : (s.advance).b = s.b := by unfold State.advance; split <;> rfl
@[simp] theorem State.advance_gx (s : State) : (s.advance).gx = s.gx := by unfold State.advance; split <;> rfl
@[simp] theorem State.advance_gy (s : State) : (s.advance).gy = s.gy := by unfold State.advance; split <;> rfl
@[simp] theorem State.advance_n (s : State) : (s.advance).n = s.n := by unfold State.advance; split <;> rfl
@[simp] theorem State.advance_bitsize (s : State) : (s.advance).bitsize = s.bitsize := by unfold State.advance; split <;> rfl
@[simp] theorem State.advance_flocked (s : State) : (s.advance).flocked = s.flocked := by unfold State.advance; split <;> rfl
@[simp] theorem State.advance_clocked (s : State) : (s.advance).clocked = s.clocked := by unfold State.advance; split <;> rfl
@[simp] theorem State.advance_ferr (s : State) : (s.advance).ferr = s.ferr := by unfold State.advance; split <;> rfl
@[simp] theorem State.advance_cerr (s : State) : (s.advance).cerr = s.cerr := by unfold State.advance; split <;> rfl
@[simp] theorem State.advance_strict58 (s : State) : (s.advance).strict58 = s.strict58 := by unfold State.advance; split <;> rfl
@[simp] theorem State.advance_ieDone (s : State) : (s.advance).ieDone = s.ieDone := by unfold State.advance; split <;> rfl
@[simp] theorem State.advance_ieErr (s : State) : (s.advance).ieErr = s.ieErr := by unfold State.advance; split <;> rfl
@[simp] theorem State.advance_ieHost (s : State) : (s.advance).ieHost = s.ieHost := by unfold State.advance; split <;> rfl
@[simp] theorem State.advance_done (s : State) : (s.advance).done = s.done := by unfold State.advance; split <;> rfl
@[simp] theorem State.advance_hosterr (s : State) : (s.advance).hosterr = s.hosterr := by unfold State.advance; split <;> rfl
@[simp] theorem State.advance_onc (s : State) : (s.advance).onc = s.onc := by unfold State.advance; split <;> rfl
@[simp] theorem State.advance_entry (s : State) : (s.advance).entry = s.entry := by unfold State.advance; split <;> rfl
@[simp] theorem State.advance_mem (s : State) : (s.advance).mem = s.mem := by unfold State.advance; split <;> rfl
@[simp] theorem State.advance_blen (s : State) : (s.advance).blen = s.blen := by unfold State.advance; split <;> rfl
@[simp] theorem State.advance_slen (s : State) : (s.advance).slen = s.slen := by unfold State.advance; split <;> rfl
@[simp] theorem State.advance_b58n (s : State) : (s.advance).b58n = s.b58n := by unfold State.advance; split <;> rfl
@[simp] theorem State.advance_b58ver (s : State) : (s.advance).b58ver = s.b58ver := by unfold State.advance; split <;> rfl
@[simp] theorem State.advance_agenda (s : State) : (s.advance).agenda = s.agenda := by unfold State.advance; split <;> rfl
@[simp] theorem State.advance_reply (s : State) : (s.advance).reply = s.reply := by unfold State.advance; split <;> rfl
@[simp] theorem State.advance_draws (s : State) : (s.advance).draws = s.draws := by unfold State.advance; split <;> rfl

/-! ## answer -/

@[simp] theorem State.answer_params (s : State) (d : Word32) : (s.answer d).params = s.params := rfl
@[simp] theorem State.answer_f (s : State) (d : Word32) : (s.answer d).f = s.f := rfl
@[simp] theorem State.answer_ptag (s : State) (d : Word32) : (s.answer d).ptag = s.ptag := rfl
@[simp] theorem State.answer_p (s : State) (d : Word32) : (s.answer d).p = s.p := rfl
@[simp] theorem State.answer_a (s : State) (d : Word32) : (s.answer d).a = s.a := rfl
@[simp] theorem State.answer_b (s : State) (d : Word32) : (s.answer d).b = s.b := rfl
@[simp] theorem State.answer_gx (s : State) (d : Word32) : (s.answer d).gx = s.gx := rfl
@[simp] theorem State.answer_gy (s : State) (d : Word32) : (s.answer d).gy = s.gy := rfl
@[simp] theorem State.answer_n (s : State) (d : Word32) : (s.answer d).n = s.n := rfl
@[simp] theorem State.answer_bitsize (s : State) (d : Word32) : (s.answer d).bitsize = s.bitsize := rfl
@[simp] theorem State.answer_flocked (s : State) (d : Word32) : (s.answer d).flocked = s.flocked := rfl
@[simp] theorem State.answer_clocked (s : State) (d : Word32) : (s.answer d).clocked = s.clocked := rfl
@[simp] theorem State.answer_ferr (s : State) (d : Word32) : (s.answer d).ferr = s.ferr := rfl
@[simp] theorem State.answer_cerr (s : State) (d : Word32) : (s.answer d).cerr = s.cerr := rfl
@[simp] theorem State.answer_strict58 (s : State) (d : Word32) : (s.answer d).strict58 = s.strict58 := rfl
@[simp] theorem State.answer_ieDone (s : State) (d : Word32) : (s.answer d).ieDone = s.ieDone := rfl
@[simp] theorem State.answer_ieErr (s : State) (d : Word32) : (s.answer d).ieErr = s.ieErr := rfl
@[simp] theorem State.answer_ieHost (s : State) (d : Word32) : (s.answer d).ieHost = s.ieHost := rfl
@[simp] theorem State.answer_busy (s : State) (d : Word32) : (s.answer d).busy = s.busy := rfl
@[simp] theorem State.answer_done (s : State) (d : Word32) : (s.answer d).done = s.done := rfl
@[simp] theorem State.answer_err (s : State) (d : Word32) : (s.answer d).err = s.err := rfl
@[simp] theorem State.answer_hosterr (s : State) (d : Word32) : (s.answer d).hosterr = s.hosterr := rfl
@[simp] theorem State.answer_onc (s : State) (d : Word32) : (s.answer d).onc = s.onc := rfl
@[simp] theorem State.answer_entry (s : State) (d : Word32) : (s.answer d).entry = s.entry := rfl
@[simp] theorem State.answer_pc (s : State) (d : Word32) : (s.answer d).pc = s.pc := rfl
@[simp] theorem State.answer_errcode (s : State) (d : Word32) : (s.answer d).errcode = s.errcode := rfl
@[simp] theorem State.answer_errpc (s : State) (d : Word32) : (s.answer d).errpc = s.errpc := rfl
@[simp] theorem State.answer_errcmd (s : State) (d : Word32) : (s.answer d).errcmd = s.errcmd := rfl
@[simp] theorem State.answer_mem (s : State) (d : Word32) : (s.answer d).mem = s.mem := rfl
@[simp] theorem State.answer_blen (s : State) (d : Word32) : (s.answer d).blen = s.blen := rfl
@[simp] theorem State.answer_slen (s : State) (d : Word32) : (s.answer d).slen = s.slen := rfl
@[simp] theorem State.answer_b58n (s : State) (d : Word32) : (s.answer d).b58n = s.b58n := rfl
@[simp] theorem State.answer_b58ver (s : State) (d : Word32) : (s.answer d).b58ver = s.b58ver := rfl
@[simp] theorem State.answer_agenda (s : State) (d : Word32) : (s.answer d).agenda = s.agenda := rfl
@[simp] theorem State.answer_reply (s : State) (d : Word32) : (s.answer d).reply = some ⟨d, false⟩ := rfl
@[simp] theorem State.answer_draws (s : State) (d : Word32) : (s.answer d).draws = s.draws := rfl

/-! ## refuseAccess -/

@[simp] theorem State.refuseAccess_params (s : State) : (s.refuseAccess).params = s.params := rfl
@[simp] theorem State.refuseAccess_f (s : State) : (s.refuseAccess).f = s.f := rfl
@[simp] theorem State.refuseAccess_ptag (s : State) : (s.refuseAccess).ptag = s.ptag := rfl
@[simp] theorem State.refuseAccess_p (s : State) : (s.refuseAccess).p = s.p := rfl
@[simp] theorem State.refuseAccess_a (s : State) : (s.refuseAccess).a = s.a := rfl
@[simp] theorem State.refuseAccess_b (s : State) : (s.refuseAccess).b = s.b := rfl
@[simp] theorem State.refuseAccess_gx (s : State) : (s.refuseAccess).gx = s.gx := rfl
@[simp] theorem State.refuseAccess_gy (s : State) : (s.refuseAccess).gy = s.gy := rfl
@[simp] theorem State.refuseAccess_n (s : State) : (s.refuseAccess).n = s.n := rfl
@[simp] theorem State.refuseAccess_bitsize (s : State) : (s.refuseAccess).bitsize = s.bitsize := rfl
@[simp] theorem State.refuseAccess_flocked (s : State) : (s.refuseAccess).flocked = s.flocked := rfl
@[simp] theorem State.refuseAccess_clocked (s : State) : (s.refuseAccess).clocked = s.clocked := rfl
@[simp] theorem State.refuseAccess_ferr (s : State) : (s.refuseAccess).ferr = s.ferr := rfl
@[simp] theorem State.refuseAccess_cerr (s : State) : (s.refuseAccess).cerr = s.cerr := rfl
@[simp] theorem State.refuseAccess_strict58 (s : State) : (s.refuseAccess).strict58 = s.strict58 := rfl
@[simp] theorem State.refuseAccess_ieDone (s : State) : (s.refuseAccess).ieDone = s.ieDone := rfl
@[simp] theorem State.refuseAccess_ieErr (s : State) : (s.refuseAccess).ieErr = s.ieErr := rfl
@[simp] theorem State.refuseAccess_ieHost (s : State) : (s.refuseAccess).ieHost = s.ieHost := rfl
@[simp] theorem State.refuseAccess_busy (s : State) : (s.refuseAccess).busy = s.busy := rfl
@[simp] theorem State.refuseAccess_done (s : State) : (s.refuseAccess).done = s.done := rfl
@[simp] theorem State.refuseAccess_err (s : State) : (s.refuseAccess).err = s.err := rfl
@[simp] theorem State.refuseAccess_hosterr (s : State) : (s.refuseAccess).hosterr = true := rfl
@[simp] theorem State.refuseAccess_onc (s : State) : (s.refuseAccess).onc = s.onc := rfl
@[simp] theorem State.refuseAccess_entry (s : State) : (s.refuseAccess).entry = s.entry := rfl
@[simp] theorem State.refuseAccess_pc (s : State) : (s.refuseAccess).pc = s.pc := rfl
@[simp] theorem State.refuseAccess_errcode (s : State) : (s.refuseAccess).errcode = s.errcode := rfl
@[simp] theorem State.refuseAccess_errpc (s : State) : (s.refuseAccess).errpc = s.errpc := rfl
@[simp] theorem State.refuseAccess_errcmd (s : State) : (s.refuseAccess).errcmd = s.errcmd := rfl
@[simp] theorem State.refuseAccess_mem (s : State) : (s.refuseAccess).mem = s.mem := rfl
@[simp] theorem State.refuseAccess_blen (s : State) : (s.refuseAccess).blen = s.blen := rfl
@[simp] theorem State.refuseAccess_slen (s : State) : (s.refuseAccess).slen = s.slen := rfl
@[simp] theorem State.refuseAccess_b58n (s : State) : (s.refuseAccess).b58n = s.b58n := rfl
@[simp] theorem State.refuseAccess_b58ver (s : State) : (s.refuseAccess).b58ver = s.b58ver := rfl
@[simp] theorem State.refuseAccess_agenda (s : State) : (s.refuseAccess).agenda = s.agenda := rfl
@[simp] theorem State.refuseAccess_reply (s : State) : (s.refuseAccess).reply = some ⟨0#32, true⟩ := rfl
@[simp] theorem State.refuseAccess_draws (s : State) : (s.refuseAccess).draws = s.draws := rfl

/-! ## dropWrite -/

@[simp] theorem State.dropWrite_params (s : State) : (s.dropWrite).params = s.params := rfl
@[simp] theorem State.dropWrite_f (s : State) : (s.dropWrite).f = s.f := rfl
@[simp] theorem State.dropWrite_ptag (s : State) : (s.dropWrite).ptag = s.ptag := rfl
@[simp] theorem State.dropWrite_p (s : State) : (s.dropWrite).p = s.p := rfl
@[simp] theorem State.dropWrite_a (s : State) : (s.dropWrite).a = s.a := rfl
@[simp] theorem State.dropWrite_b (s : State) : (s.dropWrite).b = s.b := rfl
@[simp] theorem State.dropWrite_gx (s : State) : (s.dropWrite).gx = s.gx := rfl
@[simp] theorem State.dropWrite_gy (s : State) : (s.dropWrite).gy = s.gy := rfl
@[simp] theorem State.dropWrite_n (s : State) : (s.dropWrite).n = s.n := rfl
@[simp] theorem State.dropWrite_bitsize (s : State) : (s.dropWrite).bitsize = s.bitsize := rfl
@[simp] theorem State.dropWrite_flocked (s : State) : (s.dropWrite).flocked = s.flocked := rfl
@[simp] theorem State.dropWrite_clocked (s : State) : (s.dropWrite).clocked = s.clocked := rfl
@[simp] theorem State.dropWrite_ferr (s : State) : (s.dropWrite).ferr = s.ferr := rfl
@[simp] theorem State.dropWrite_cerr (s : State) : (s.dropWrite).cerr = s.cerr := rfl
@[simp] theorem State.dropWrite_strict58 (s : State) : (s.dropWrite).strict58 = s.strict58 := rfl
@[simp] theorem State.dropWrite_ieDone (s : State) : (s.dropWrite).ieDone = s.ieDone := rfl
@[simp] theorem State.dropWrite_ieErr (s : State) : (s.dropWrite).ieErr = s.ieErr := rfl
@[simp] theorem State.dropWrite_ieHost (s : State) : (s.dropWrite).ieHost = s.ieHost := rfl
@[simp] theorem State.dropWrite_busy (s : State) : (s.dropWrite).busy = s.busy := rfl
@[simp] theorem State.dropWrite_done (s : State) : (s.dropWrite).done = s.done := rfl
@[simp] theorem State.dropWrite_err (s : State) : (s.dropWrite).err = s.err := rfl
@[simp] theorem State.dropWrite_hosterr (s : State) : (s.dropWrite).hosterr = true := rfl
@[simp] theorem State.dropWrite_onc (s : State) : (s.dropWrite).onc = s.onc := rfl
@[simp] theorem State.dropWrite_entry (s : State) : (s.dropWrite).entry = s.entry := rfl
@[simp] theorem State.dropWrite_pc (s : State) : (s.dropWrite).pc = s.pc := rfl
@[simp] theorem State.dropWrite_errcode (s : State) : (s.dropWrite).errcode = s.errcode := rfl
@[simp] theorem State.dropWrite_errpc (s : State) : (s.dropWrite).errpc = s.errpc := rfl
@[simp] theorem State.dropWrite_errcmd (s : State) : (s.dropWrite).errcmd = s.errcmd := rfl
@[simp] theorem State.dropWrite_mem (s : State) : (s.dropWrite).mem = s.mem := rfl
@[simp] theorem State.dropWrite_blen (s : State) : (s.dropWrite).blen = s.blen := rfl
@[simp] theorem State.dropWrite_slen (s : State) : (s.dropWrite).slen = s.slen := rfl
@[simp] theorem State.dropWrite_b58n (s : State) : (s.dropWrite).b58n = s.b58n := rfl
@[simp] theorem State.dropWrite_b58ver (s : State) : (s.dropWrite).b58ver = s.b58ver := rfl
@[simp] theorem State.dropWrite_agenda (s : State) : (s.dropWrite).agenda = s.agenda := rfl
@[simp] theorem State.dropWrite_reply (s : State) : (s.dropWrite).reply = s.reply := rfl
@[simp] theorem State.dropWrite_draws (s : State) : (s.dropWrite).draws = s.draws := rfl

/-! ## setCtrl -/

@[simp] theorem State.setCtrl_params (s : State) (v : Word32) : (s.setCtrl v).params = s.params := rfl
@[simp] theorem State.setCtrl_f (s : State) (v : Word32) : (s.setCtrl v).f = s.f := rfl
@[simp] theorem State.setCtrl_ptag (s : State) (v : Word32) : (s.setCtrl v).ptag = s.ptag := rfl
@[simp] theorem State.setCtrl_p (s : State) (v : Word32) : (s.setCtrl v).p = s.p := rfl
@[simp] theorem State.setCtrl_a (s : State) (v : Word32) : (s.setCtrl v).a = s.a := rfl
@[simp] theorem State.setCtrl_b (s : State) (v : Word32) : (s.setCtrl v).b = s.b := rfl
@[simp] theorem State.setCtrl_gx (s : State) (v : Word32) : (s.setCtrl v).gx = s.gx := rfl
@[simp] theorem State.setCtrl_gy (s : State) (v : Word32) : (s.setCtrl v).gy = s.gy := rfl
@[simp] theorem State.setCtrl_n (s : State) (v : Word32) : (s.setCtrl v).n = s.n := rfl
@[simp] theorem State.setCtrl_bitsize (s : State) (v : Word32) : (s.setCtrl v).bitsize = s.bitsize := rfl
@[simp] theorem State.setCtrl_flocked (s : State) (v : Word32) : (s.setCtrl v).flocked = s.flocked := rfl
@[simp] theorem State.setCtrl_clocked (s : State) (v : Word32) : (s.setCtrl v).clocked = s.clocked := rfl
@[simp] theorem State.setCtrl_ferr (s : State) (v : Word32) : (s.setCtrl v).ferr = s.ferr := rfl
@[simp] theorem State.setCtrl_cerr (s : State) (v : Word32) : (s.setCtrl v).cerr = s.cerr := rfl
@[simp] theorem State.setCtrl_strict58 (s : State) (v : Word32) : (s.setCtrl v).strict58 = v.getLsbD 1 := rfl
@[simp] theorem State.setCtrl_ieDone (s : State) (v : Word32) : (s.setCtrl v).ieDone = v.getLsbD 2 := rfl
@[simp] theorem State.setCtrl_ieErr (s : State) (v : Word32) : (s.setCtrl v).ieErr = v.getLsbD 3 := rfl
@[simp] theorem State.setCtrl_ieHost (s : State) (v : Word32) : (s.setCtrl v).ieHost = v.getLsbD 4 := rfl
@[simp] theorem State.setCtrl_busy (s : State) (v : Word32) : (s.setCtrl v).busy = s.busy := rfl
@[simp] theorem State.setCtrl_done (s : State) (v : Word32) : (s.setCtrl v).done = s.done := rfl
@[simp] theorem State.setCtrl_err (s : State) (v : Word32) : (s.setCtrl v).err = s.err := rfl
@[simp] theorem State.setCtrl_hosterr (s : State) (v : Word32) : (s.setCtrl v).hosterr = s.hosterr := rfl
@[simp] theorem State.setCtrl_onc (s : State) (v : Word32) : (s.setCtrl v).onc = s.onc := rfl
@[simp] theorem State.setCtrl_entry (s : State) (v : Word32) : (s.setCtrl v).entry = s.entry := rfl
@[simp] theorem State.setCtrl_pc (s : State) (v : Word32) : (s.setCtrl v).pc = s.pc := rfl
@[simp] theorem State.setCtrl_errcode (s : State) (v : Word32) : (s.setCtrl v).errcode = s.errcode := rfl
@[simp] theorem State.setCtrl_errpc (s : State) (v : Word32) : (s.setCtrl v).errpc = s.errpc := rfl
@[simp] theorem State.setCtrl_errcmd (s : State) (v : Word32) : (s.setCtrl v).errcmd = s.errcmd := rfl
@[simp] theorem State.setCtrl_mem (s : State) (v : Word32) : (s.setCtrl v).mem = s.mem := rfl
@[simp] theorem State.setCtrl_blen (s : State) (v : Word32) : (s.setCtrl v).blen = s.blen := rfl
@[simp] theorem State.setCtrl_slen (s : State) (v : Word32) : (s.setCtrl v).slen = s.slen := rfl
@[simp] theorem State.setCtrl_b58n (s : State) (v : Word32) : (s.setCtrl v).b58n = s.b58n := rfl
@[simp] theorem State.setCtrl_b58ver (s : State) (v : Word32) : (s.setCtrl v).b58ver = s.b58ver := rfl
@[simp] theorem State.setCtrl_agenda (s : State) (v : Word32) : (s.setCtrl v).agenda = s.agenda := rfl
@[simp] theorem State.setCtrl_reply (s : State) (v : Word32) : (s.setCtrl v).reply = s.reply := rfl
@[simp] theorem State.setCtrl_draws (s : State) (v : Word32) : (s.setCtrl v).draws = s.draws := rfl

/-! ## start -/

@[simp] theorem State.start_params (s : State) : (s.start).params = s.params := rfl
@[simp] theorem State.start_f (s : State) : (s.start).f = s.f := rfl
@[simp] theorem State.start_ptag (s : State) : (s.start).ptag = s.ptag := rfl
@[simp] theorem State.start_p (s : State) : (s.start).p = s.p := rfl
@[simp] theorem State.start_a (s : State) : (s.start).a = s.a := rfl
@[simp] theorem State.start_b (s : State) : (s.start).b = s.b := rfl
@[simp] theorem State.start_gx (s : State) : (s.start).gx = s.gx := rfl
@[simp] theorem State.start_gy (s : State) : (s.start).gy = s.gy := rfl
@[simp] theorem State.start_n (s : State) : (s.start).n = s.n := rfl
@[simp] theorem State.start_bitsize (s : State) : (s.start).bitsize = s.bitsize := rfl
@[simp] theorem State.start_flocked (s : State) : (s.start).flocked = s.flocked := rfl
@[simp] theorem State.start_clocked (s : State) : (s.start).clocked = s.clocked := rfl
@[simp] theorem State.start_ferr (s : State) : (s.start).ferr = s.ferr := rfl
@[simp] theorem State.start_cerr (s : State) : (s.start).cerr = s.cerr := rfl
@[simp] theorem State.start_strict58 (s : State) : (s.start).strict58 = s.strict58 := rfl
@[simp] theorem State.start_ieDone (s : State) : (s.start).ieDone = s.ieDone := rfl
@[simp] theorem State.start_ieErr (s : State) : (s.start).ieErr = s.ieErr := rfl
@[simp] theorem State.start_ieHost (s : State) : (s.start).ieHost = s.ieHost := rfl
@[simp] theorem State.start_busy (s : State) : (s.start).busy = true := rfl
@[simp] theorem State.start_done (s : State) : (s.start).done = false := rfl
@[simp] theorem State.start_err (s : State) : (s.start).err = false := rfl
@[simp] theorem State.start_hosterr (s : State) : (s.start).hosterr = s.hosterr := rfl
@[simp] theorem State.start_onc (s : State) : (s.start).onc = s.onc := rfl
@[simp] theorem State.start_entry (s : State) : (s.start).entry = s.entry := rfl
@[simp] theorem State.start_pc (s : State) : (s.start).pc = s.entry := rfl
@[simp] theorem State.start_errcode (s : State) : (s.start).errcode = 0#8 := rfl
@[simp] theorem State.start_errpc (s : State) : (s.start).errpc = 0#6 := rfl
@[simp] theorem State.start_errcmd (s : State) : (s.start).errcmd = 0#32 := rfl
@[simp] theorem State.start_mem (s : State) : (s.start).mem = s.mem := rfl
@[simp] theorem State.start_blen (s : State) : (s.start).blen = s.blen := rfl
@[simp] theorem State.start_slen (s : State) : (s.start).slen = s.slen := rfl
@[simp] theorem State.start_b58n (s : State) : (s.start).b58n = s.b58n := rfl
@[simp] theorem State.start_b58ver (s : State) : (s.start).b58ver = s.b58ver := rfl
@[simp] theorem State.start_agenda (s : State) : (s.start).agenda = s.agenda := rfl
@[simp] theorem State.start_reply (s : State) : (s.start).reply = s.reply := rfl
@[simp] theorem State.start_draws (s : State) : (s.start).draws = s.draws := rfl

/-! ## clearStatus -/

@[simp] theorem State.clearStatus_params (s : State) (v : Word32) : (s.clearStatus v).params = s.params := rfl
@[simp] theorem State.clearStatus_f (s : State) (v : Word32) : (s.clearStatus v).f = s.f := rfl
@[simp] theorem State.clearStatus_ptag (s : State) (v : Word32) : (s.clearStatus v).ptag = s.ptag := rfl
@[simp] theorem State.clearStatus_p (s : State) (v : Word32) : (s.clearStatus v).p = s.p := rfl
@[simp] theorem State.clearStatus_a (s : State) (v : Word32) : (s.clearStatus v).a = s.a := rfl
@[simp] theorem State.clearStatus_b (s : State) (v : Word32) : (s.clearStatus v).b = s.b := rfl
@[simp] theorem State.clearStatus_gx (s : State) (v : Word32) : (s.clearStatus v).gx = s.gx := rfl
@[simp] theorem State.clearStatus_gy (s : State) (v : Word32) : (s.clearStatus v).gy = s.gy := rfl
@[simp] theorem State.clearStatus_n (s : State) (v : Word32) : (s.clearStatus v).n = s.n := rfl
@[simp] theorem State.clearStatus_bitsize (s : State) (v : Word32) : (s.clearStatus v).bitsize = s.bitsize := rfl
@[simp] theorem State.clearStatus_flocked (s : State) (v : Word32) : (s.clearStatus v).flocked = s.flocked := rfl
@[simp] theorem State.clearStatus_clocked (s : State) (v : Word32) : (s.clearStatus v).clocked = s.clocked := rfl
@[simp] theorem State.clearStatus_ferr (s : State) (v : Word32) : (s.clearStatus v).ferr = s.ferr := rfl
@[simp] theorem State.clearStatus_cerr (s : State) (v : Word32) : (s.clearStatus v).cerr = s.cerr := rfl
@[simp] theorem State.clearStatus_strict58 (s : State) (v : Word32) : (s.clearStatus v).strict58 = s.strict58 := rfl
@[simp] theorem State.clearStatus_ieDone (s : State) (v : Word32) : (s.clearStatus v).ieDone = s.ieDone := rfl
@[simp] theorem State.clearStatus_ieErr (s : State) (v : Word32) : (s.clearStatus v).ieErr = s.ieErr := rfl
@[simp] theorem State.clearStatus_ieHost (s : State) (v : Word32) : (s.clearStatus v).ieHost = s.ieHost := rfl
@[simp] theorem State.clearStatus_busy (s : State) (v : Word32) : (s.clearStatus v).busy = s.busy := rfl
@[simp] theorem State.clearStatus_done (s : State) (v : Word32) : (s.clearStatus v).done = (s.done && !v.getLsbD 1) := rfl
@[simp] theorem State.clearStatus_err (s : State) (v : Word32) : (s.clearStatus v).err = (s.err && !v.getLsbD 2) := rfl
@[simp] theorem State.clearStatus_hosterr (s : State) (v : Word32) : (s.clearStatus v).hosterr = (s.hosterr && !v.getLsbD 3) := rfl
@[simp] theorem State.clearStatus_onc (s : State) (v : Word32) : (s.clearStatus v).onc = s.onc := rfl
@[simp] theorem State.clearStatus_entry (s : State) (v : Word32) : (s.clearStatus v).entry = s.entry := rfl
@[simp] theorem State.clearStatus_pc (s : State) (v : Word32) : (s.clearStatus v).pc = s.pc := rfl
@[simp] theorem State.clearStatus_errcode (s : State) (v : Word32) : (s.clearStatus v).errcode = s.errcode := rfl
@[simp] theorem State.clearStatus_errpc (s : State) (v : Word32) : (s.clearStatus v).errpc = s.errpc := rfl
@[simp] theorem State.clearStatus_errcmd (s : State) (v : Word32) : (s.clearStatus v).errcmd = s.errcmd := rfl
@[simp] theorem State.clearStatus_mem (s : State) (v : Word32) : (s.clearStatus v).mem = s.mem := rfl
@[simp] theorem State.clearStatus_blen (s : State) (v : Word32) : (s.clearStatus v).blen = s.blen := rfl
@[simp] theorem State.clearStatus_slen (s : State) (v : Word32) : (s.clearStatus v).slen = s.slen := rfl
@[simp] theorem State.clearStatus_b58n (s : State) (v : Word32) : (s.clearStatus v).b58n = s.b58n := rfl
@[simp] theorem State.clearStatus_b58ver (s : State) (v : Word32) : (s.clearStatus v).b58ver = s.b58ver := rfl
@[simp] theorem State.clearStatus_agenda (s : State) (v : Word32) : (s.clearStatus v).agenda = s.agenda := rfl
@[simp] theorem State.clearStatus_reply (s : State) (v : Word32) : (s.clearStatus v).reply = s.reply := rfl
@[simp] theorem State.clearStatus_draws (s : State) (v : Word32) : (s.clearStatus v).draws = s.draws := rfl

end Sys2Proof.Machine
end

