-- ==== Sys2Proof/Laws/HostBus.lean ====
section
/-! SUPPORT. What a turn can do, said once: a host read, a host write, a reset, and the step that takes it. -/

namespace Sys2Proof.Machine

/-- A host read is refused, or answers with a stored word, or answers with a free draw. -/
theorem State.hostRead_cases (s : State) (o width : Nat) :
    (accessPlace s.params o width = none ∧ s.hostRead o width = s.refuseAccess) ∨
    ∃ pl, accessPlace s.params o width = some pl ∧
      ((s.hostRead o width = s.answer (s.stored o pl) ∧ (s.busy && unspecifiedWhileBusy s.params pl) = false) ∨
       (s.hostRead o width =
          { s.answer (s.seenWhileBusy o pl (Config.freeRead s.draws)) with draws := s.draws + 1 } ∧
        (s.busy && unspecifiedWhileBusy s.params pl) = true)) := by
  unfold State.hostRead
  cases h : accessPlace s.params o width with
  | none => exact .inl ⟨rfl, rfl⟩
  | some pl =>
    refine .inr ⟨pl, rfl, ?_⟩
    show (s.readWord o pl = _ ∧ _) ∨ (s.readWord o pl = _ ∧ _)
    unfold State.readWord
    cases hb : s.busy && unspecifiedWhileBusy s.params pl
    · exact .inl ⟨by simp, rfl⟩
    · exact .inr ⟨by simp, rfl⟩

/-- A host write is refused, or dropped because a run is in progress, or taken. -/
theorem State.hostWrite_cases (s : State) (o width : Nat) (v : Word32) :
    (accessPlace s.params o width = none ∧ s.hostWrite o width v = s.refuseAccess) ∨
    ∃ pl, accessPlace s.params o width = some pl ∧
      ((s.busy = true ∧ pl ≠ .status ∧ s.hostWrite o width v = s.dropWrite.answer 0#32) ∨
       ((s.busy = false ∨ pl = .status) ∧ s.hostWrite o width v = (s.storeAt o pl v).answer 0#32)) := by
  unfold State.hostWrite
  cases h : accessPlace s.params o width with
  | none => exact .inl ⟨rfl, rfl⟩
  | some pl =>
    refine .inr ⟨pl, rfl, ?_⟩
    show (_ ∧ _ ∧ s.writeWord o pl v = _) ∨ (_ ∧ s.writeWord o pl v = _)
    unfold State.writeWord
    by_cases hp : pl = .status
    · exact .inr ⟨.inr hp, by simp [hp]⟩
    · cases hb : s.busy
      · exact .inr ⟨.inl rfl, by simp⟩
      · exact .inl ⟨rfl, hp, by simp [hp]⟩

/-! ## The parameters are kept -/

@[simp] theorem State.setConfig_params (s : State) (r : ConfigReg) (v : Elem) : (s.setConfig r v).params = s.params := by
  cases r <;> rfl

@[simp] theorem State.requestFieldLock_params (s : State) : s.requestFieldLock.params = s.params := by
  unfold State.requestFieldLock
  split
  · rfl
  · split <;> rfl

@[simp] theorem State.requestCurveLock_params (s : State) : s.requestCurveLock.params = s.params := by
  unfold State.requestCurveLock
  split
  · rfl
  · split <;> rfl

@[simp] theorem State.requestLocks_params (s : State) (v : Word32) : (s.requestLocks v).params = s.params := by
  unfold State.requestLocks
  cases v.getLsbD 0 <;> cases v.getLsbD 1 <;> simp

@[simp] theorem State.storeAt_params (s : State) (o : Nat) (pl : Place) (v : Word32) :
    (s.storeAt o pl v).params = s.params := by
  cases pl <;> simp only [State.storeAt] <;> (repeat' split) <;> simp

@[simp] theorem State.hostRead_params (s : State) (o width : Nat) : (s.hostRead o width).params = s.params := by
  rcases s.hostRead_cases o width with ⟨_, h⟩ | ⟨pl, _, ⟨h, _⟩ | ⟨h, _⟩⟩ <;> rw [h] <;> simp

@[simp] theorem State.hostWrite_params (s : State) (o width : Nat) (v : Word32) :
    (s.hostWrite o width v).params = s.params := by
  rcases s.hostWrite_cases o width v with ⟨_, h⟩ | ⟨pl, _, ⟨_, _, h⟩ | ⟨_, h⟩⟩ <;> rw [h] <;> simp

@[simp] theorem State.resetEvent_params (s : State) : s.resetEvent.params = s.params := rfl

/-! ## The step -/

/-- What a step can do: the engine's own step, or the turn the agenda lists first. -/
theorem step_cases {s t : State} (h : step s = .next t) :
    (s.agenda = [] ∧ engineStep s = .next t) ∨
    ∃ rest, (s.agenda = .engine :: rest ∧ engineStep { s with agenda := rest } = .next t) ∨
      (∃ o w, s.agenda = .read o w :: rest ∧ inWindow o ∧ t = State.hostRead { s with agenda := rest } o w) ∨
      (∃ o w v, s.agenda = .write o w v :: rest ∧ inWindow o ∧
        t = State.hostWrite { s with agenda := rest } o w v) ∨
      (s.agenda = .reset :: rest ∧ t = State.resetEvent { s with agenda := rest }) := by
  unfold step at h
  cases ha : s.agenda with
  | nil => rw [ha] at h; exact .inl ⟨rfl, h⟩
  | cons x rest =>
    rw [ha] at h
    refine .inr ⟨rest, ?_⟩
    cases x with
    | engine => exact .inl ⟨rfl, h⟩
    | read o w =>
      simp only [takeTurn] at h
      split at h
      · injection h with h; exact .inr (.inl ⟨o, w, rfl, ‹_›, h.symm⟩)
      · cases h
    | write o w v =>
      simp only [takeTurn] at h
      split at h
      · injection h with h; exact .inr (.inr (.inl ⟨o, w, v, rfl, ‹_›, h.symm⟩))
      · cases h
    | reset => simp only [takeTurn] at h; injection h with h; exact .inr (.inr (.inr ⟨rfl, h.symm⟩))

/-- What the engine's step can do: nothing while idle; while busy, stop on an illegal word or execute its command. -/
theorem engineStep_cases {s t : State} (h : engineStep s = .next t) :
    (s.busy = false ∧ t = s) ∨
    (s.busy = true ∧ (∃ r, decode s.fetch = .error r) ∧ t = s.stopError .illegalCommand) ∨
    (s.busy = true ∧ ∃ i, decode s.fetch = .ok i ∧ exec i s = .next t) := by
  unfold engineStep at h
  cases hb : s.busy
  · rw [hb] at h; injection h with h; exact .inl ⟨rfl, h.symm⟩
  · rw [hb] at h
    simp only [if_true] at h
    cases hd : decode s.fetch with
    | error r => rw [hd] at h; injection h with h; exact .inr (.inl ⟨rfl, ⟨r, rfl⟩, h.symm⟩)
    | ok i => rw [hd] at h; exact .inr (.inr ⟨rfl, i, rfl, h⟩)

end Sys2Proof.Machine
end

