-- ==== Sys2Proof/Laws/Ops.lean ====
section
/-! SUPPORT. What each shared operation of the commands can do, said once: the end of a command, register and point
access, and the checks and effects the meanings share. -/

namespace Sys2Proof.Machine

/-! ## The end of a command -/

@[simp] theorem retire_ok (s t : State) : retire s (.ok t) = .next t.advance := rfl

@[simp] theorem retire_error (s : State) (e : ErrKind) : retire s (.error e) = .next (s.stopError e) := rfl

/-- What the end of a command can do: stop on its error with the state not updated, or advance. -/
theorem retire_cases {s t : State} {r : Except ErrKind State} (h : retire s r = .next t) :
    (∃ e, r = .error e ∧ t = s.stopError e) ∨ (∃ u, r = .ok u ∧ t = u.advance) := by
  cases r with
  | error e => exact .inl ⟨e, rfl, by injection h with h; exact h.symm⟩
  | ok u => exact .inr ⟨u, rfl, by injection h with h; exact h.symm⟩

/-- What the advance can do: overrun at 63, or the next index. -/
theorem State.advance_cases (s : State) :
    (s.pc = 63#6 ∧ s.advance = s.stopError .commandOverrun) ∨
    (s.pc ≠ 63#6 ∧ s.advance = { s with pc := s.pc + 1#6 }) := by
  unfold State.advance
  split
  · exact .inl ⟨‹_›, rfl⟩
  · exact .inr ⟨‹_›, rfl⟩

/-- The effect of a command before the sequencer's part: its error, or its writes (HALT is ended by the sequencer
itself, so it has none here). -/
def effectOf (i : Instr) (s : State) : Except ErrKind State :=
  match i with
  | .halt => .ok s
  | .nop => .ok s
  | .fmov rd rs1 => .ok (s.setX rd (s.x rs1))
  | .fldi rd imm16 => .ok (s.setX rd imm16.toNat)
  | .fldc rd sel => if s.selLock sel then .ok (s.setX rd (s.selValue sel)) else .error .notConfigured
  | .pinf qd => .ok (s.setPoint qd .inf)
  | .pfin qd => .ok (s.setTag qd false)
  | .fadd rd rs1 rs2 => fieldBinary rd rs1 rs2 noError (addMod s.p) s
  | .fsub rd rs1 rs2 => fieldBinary rd rs1 rs2 noError (subMod s.p) s
  | .fmul rd rs1 rs2 => fieldBinary rd rs1 rs2 noError (mulMod s.p) s
  | .fdiv rd rs1 rs2 => fieldBinary rd rs1 rs2 zeroDivisor (divMod s.p) s
  | .finv rd rs1 => fieldInverse rd rs1 s
  | .fexp rd rs1 rs2 neg => fieldPower rd rs1 rs2 neg s
  | .faddn rd rs cnt => fieldFold rd rs cnt (addMod s.p) s
  | .fsubn rd rs cnt => fieldFold rd rs cnt (subMod s.p) s
  | .fmuln rd rs cnt => fieldFold rd rs cnt (mulMod s.p) s
  | .ecadd qd qa qb => curveWrite qd [s.point qa, s.point qb] (s.add (s.point qa) (s.point qb)) s
  | .ecdbl qd qa => curveWrite qd [s.point qa] (pointDouble s.p s.a (s.point qa)) s
  | .ecmul qd qa rs => curveWrite qd [s.point qa] (s.smul (s.point qa) (s.x rs)) s
  | .ecmulg qd rs => curveWrite qd [] (s.smul (.fin s.gx s.gy) (s.x rs)) s
  | .ecchk qa => curveCheck qa s
  | .tobytes rs size e => codecStore rs size e s
  | .frombytes rd e => codecLoad rd e s
  | .b58enc ver => base58Encode Config.dsha256 ver s
  | .b58dec => base58Decode Config.dsha256 s

/-- Every command but HALT is its effect followed by the sequencer's part. -/
theorem exec_eq_retire {i : Instr} (h : i ≠ .halt) (s : State) : exec i s = retire s (effectOf i s) := by
  cases i with
  | halt => exact absurd rfl h
  | _ => rfl

/-! ## Register access -/

theorem State.x_setX (s : State) (i j : FReg) (v : Elem) : (s.setX i v).x j = if j = i then v else s.x j := by
  unfold State.x State.setX
  by_cases h : j = i
  · subst h; simp
  · have hv : i.val ≠ j.val := fun e => h (Fin.ext e.symm)
    simp [h, Vector.getElem_set_ne _ _ hv]

@[simp] theorem State.x_setX_same (s : State) (i : FReg) (v : Elem) : (s.setX i v).x i = v := by
  rw [State.x_setX, if_pos rfl]

theorem State.x_setX_other (s : State) {i j : FReg} (v : Elem) (h : j ≠ i) : (s.setX i v).x j = s.x j := by
  rw [State.x_setX, if_neg h]

theorem getLsbD_withTag (t : BitVec 8) (q k : PReg) (v : Bool) :
    (withTag t q v).getLsbD k.val = if k = q then v else t.getLsbD k.val := by
  have h : (1#8 <<< q.val).getLsbD k.val = decide (k = q) := by
    revert q k; decide
  cases v <;> simp only [withTag, if_true, Bool.false_eq_true, if_false, BitVec.getLsbD_or, BitVec.getLsbD_and,
    BitVec.getLsbD_not, h]
  all_goals by_cases e : k = q <;> simp [e]

theorem State.tag_setTag (s : State) (q k : PReg) (v : Bool) :
    (s.setTag q v).tag k = if k = q then v else s.tag k := getLsbD_withTag s.ptag q k v

@[simp] theorem State.x_setTag (s : State) (q : PReg) (v : Bool) (i : FReg) : (s.setTag q v).x i = s.x i := rfl

@[simp] theorem State.tag_setX (s : State) (i : FReg) (v : Elem) (k : PReg) : (s.setX i v).tag k = s.tag k := rfl

theorem xReg_ne_yReg (q k : PReg) : xReg q ≠ yReg k := by
  intro h
  have := congrArg Fin.val h
  simp only [xReg, yReg] at this
  omega

theorem xReg_injective {q k : PReg} (h : xReg q = xReg k) : q = k := by
  have := congrArg Fin.val h
  simp only [xReg] at this
  exact Fin.ext (by omega)

theorem yReg_injective {q k : PReg} (h : yReg q = yReg k) : q = k := by
  have := congrArg Fin.val h
  simp only [yReg] at this
  exact Fin.ext (by omega)

/-- A point write sets only its own tag. -/
theorem State.tag_setPoint (s : State) (q k : PReg) (pt : Point) :
    (s.setPoint q pt).tag k = if k = q then (match pt with | .inf => true | .fin _ _ => false) else s.tag k := by
  cases pt <;> exact State.tag_setTag _ q k _

/-- A point write changes no register but its two coordinates. -/
theorem State.x_setPoint_other (s : State) {q : PReg} {i : FReg} (pt : Point) (hx : i ≠ xReg q) (hy : i ≠ yReg q) :
    (s.setPoint q pt).x i = s.x i := by
  cases pt <;>
    simp only [State.setPoint, State.x_setTag, State.x_setX_other _ _ hx, State.x_setX_other _ _ hy]

/-- A point is read back as it was written. -/
theorem State.point_setPoint_same (s : State) (q : PReg) (pt : Point) : (s.setPoint q pt).point q = pt := by
  cases pt with
  | inf => simp [State.point, State.tag_setPoint]
  | fin u v =>
    have h1 : (s.setPoint q (.fin u v)).x (xReg q) = u := by
      simp only [State.setPoint, State.x_setTag]
      rw [State.x_setX_other _ _ (xReg_ne_yReg q q), State.x_setX_same]
    have h2 : (s.setPoint q (.fin u v)).x (yReg q) = v := by
      simp only [State.setPoint, State.x_setTag]
      rw [State.x_setX_same]
    simp [State.point, State.tag_setPoint, h1, h2]

/-! ## The shared effects: when each succeeds, and what it then gives -/

theorem fieldBinary_ok {rd rs1 rs2 : FReg} {own : Nat → Nat → Option ErrKind} {op : Nat → Nat → Nat} {s t : State}
    (h : fieldBinary rd rs1 rs2 own op s = .ok t) :
    s.flocked = true ∧ s.x rs1 < s.p ∧ s.x rs2 < s.p ∧ own (s.x rs1) (s.x rs2) = none ∧
      t = s.setX rd (op (s.x rs1) (s.x rs2)) := by
  unfold fieldBinary at h
  split at h
  · cases h
  · split at h
    · cases h
    · split at h
      · cases h
      · injection h with h
        simp_all [State.valid]

theorem fieldInverse_ok {rd rs1 : FReg} {s t : State} (h : fieldInverse rd rs1 s = .ok t) :
    s.flocked = true ∧ s.x rs1 < s.p ∧ s.x rs1 ≠ 0 ∧
      t = s.setX rd (powmod (s.x rs1) (s.p - 2) s.p) := by
  unfold fieldInverse at h
  split at h
  · cases h
  · split at h
    · cases h
    · split at h
      · cases h
      · injection h with h
        simp_all [State.valid]

/-- FEXP, when it succeeds, writes its destination and nothing else. -/
theorem fieldPower_ok {rd rs1 rs2 : FReg} {neg : Bool} {s t : State} (h : fieldPower rd rs1 rs2 neg s = .ok t) :
    s.flocked = true ∧ s.x rs1 < s.p ∧ ∃ v, t = s.setX rd v := by
  unfold fieldPower at h
  split at h
  · cases h
  · split at h
    · cases h
    · have hv : s.flocked = true ∧ s.x rs1 < s.p := by simp_all [State.valid]
      refine ⟨hv.1, hv.2, ?_⟩
      split at h
      · split at h
        · injection h with h; exact ⟨0, h.symm⟩
        · cases h
      · injection h with h; exact ⟨_, h.symm⟩

theorem fieldFold_ok {rd rs : FReg} {cnt : Count} {op : Nat → Nat → Nat} {s t : State}
    (h : fieldFold rd rs cnt op s = .ok t) :
    windowFits rs cnt ∧ s.flocked = true ∧ 2 ≤ cnt.val ∧ (∀ v ∈ s.window rs cnt, v < s.p) ∧
      t = s.setX rd (foldMod op (s.window rs cnt)) := by
  unfold fieldFold at h
  split at h
  · cases h
  · split at h
    · cases h
    · split at h
      · cases h
      · split at h
        · cases h
        · rename_i hw hf hc hv
          injection h with h
          refine ⟨Classical.not_not.mp hw, by simpa using hf, by omega, ?_, h.symm⟩
          simpa [State.valid] using hv

/-- The checks of the point commands, when they pass (43_curve.md R180). -/
theorem State.checkPoints_ok {s : State} {pts : List Point} (h : s.checkPoints pts = .ok ()) :
    s.clocked = true ∧ (∀ pt ∈ pts, s.inRange pt = true) ∧ ∀ pt ∈ pts, s.onCurve pt = true := by
  unfold State.checkPoints at h
  split at h
  · cases h
  · split at h
    · cases h
    · split at h
      · cases h
      · simp_all

/-- The checks of the point commands raise one of three errors. -/
theorem State.checkPoints_error {s : State} {pts : List Point} {e : ErrKind} (h : s.checkPoints pts = .error e) :
    e = .notConfigured ∨ e = .invalidFieldElement ∨ e = .notOnCurve := by
  unfold State.checkPoints at h
  split at h
  · injection h with h; exact .inl h.symm
  · split at h
    · injection h with h; exact .inr (.inl h.symm)
    · split at h
      · injection h with h; exact .inr (.inr h.symm)
      · cases h

theorem curveWrite_ok {qd : PReg} {pts : List Point} {r : Point} {s t : State} (h : curveWrite qd pts r s = .ok t) :
    s.checkPoints pts = .ok () ∧ t = s.setPoint qd r := by
  unfold curveWrite at h
  split at h
  · cases h
  · injection h with h; exact ⟨‹_›, h.symm⟩

theorem curveCheck_ok {qa : PReg} {s t : State} (h : curveCheck qa s = .ok t) :
    s.clocked = true ∧ s.inRange (s.point qa) = true ∧ t = s.setOnc (s.onCurve (s.point qa)) := by
  unfold curveCheck at h
  split at h
  · cases h
  · split at h
    · cases h
    · injection h with h; simp_all

theorem codecStore_ok {rs : FReg} {size : BitVec 8} {e : Endian} {s t : State} (h : codecStore rs size e s = .ok t) :
    size.toNat ≤ s.params.bufBytes ∧
      ∃ r, toBytes (s.x rs) size.toNat e = some r ∧ t = { s.writeBuf r with blen := size } := by
  unfold codecStore at h
  split at h
  · cases h
  · refine ⟨by omega, ?_⟩
    split at h
    · cases h
    · injection h with h; exact ⟨_, ‹_›, h.symm⟩

theorem codecLoad_ok {rd : FReg} {e : Endian} {s t : State} (h : codecLoad rd e s = .ok t) :
    s.blen.toNat ≤ s.params.bufBytes ∧ fromBytes (s.bufBytes s.blen.toNat) e < 2 ^ s.params.w ∧
      t = s.setX rd (fromBytes (s.bufBytes s.blen.toNat) e) := by
  unfold codecLoad at h
  split at h
  · cases h
  · split at h
    · cases h
    · injection h with h; exact ⟨by omega, by omega, h.symm⟩

theorem base58Encode_ok {hash : List Byte → Vector Byte 32} {ver : Byte} {s t : State}
    (h : base58Encode hash ver s = .ok t) :
    s.blen.toNat ≤ s.params.bufBytes ∧ ∃ r, r = base58Symbols (base58Full hash ver (s.bufBytes s.blen.toNat)) ∧
      t = { s.writeStr r with slen := BitVec.ofNat 8 r.length } := by
  unfold base58Encode at h
  split at h
  · cases h
  · injection h with h; exact ⟨by omega, _, rfl, h.symm⟩

theorem base58Accept_ok {hash : List Byte → Vector Byte 32} {full : List Byte} {s t : State}
    (h : base58Accept hash full s = .ok t) :
    checksum hash (full.take (full.length - 4)) = full.drop (full.length - 4) ∧
      t = { s.writeBuf ((full.take (full.length - 4)).drop 1) with
            blen := s.b58n, b58ver := (full.take (full.length - 4)).headD 0#8 } := by
  unfold base58Accept at h
  simp only at h
  split at h
  · cases h
  · injection h with h; exact ⟨Classical.not_not.mp ‹_›, h.symm⟩

theorem base58Decode_ok {hash : List Byte → Vector Byte 32} {s t : State} (h : base58Decode hash s = .ok t) :
    s.slen.toNat ≤ s.params.strBytes ∧ s.b58n.toNat ≤ s.params.bufBytes ∧
      (s.strict58 = true → ∀ c ∈ s.strBytes s.slen.toNat, digitOf c ≠ none) ∧
      ∃ full, toBytes (base58Value (s.strBytes s.slen.toNat)) (s.b58n.toNat + 5) .big = some full ∧
        base58Accept hash full s = .ok t := by
  unfold base58Decode at h
  split at h
  · cases h
  · split at h
    · cases h
    · split at h
      · cases h
      · refine ⟨by omega, by omega, fun hs c hc hd => ?_, _, ‹_›, h⟩
        simp_all

/-! ## Byte strings -/

@[simp] theorem length_leBytes (n k : Nat) : (leBytes n k).length = k := by
  induction k generalizing n with
  | zero => rfl
  | succ k ih => simp [leBytes, ih]

@[simp] theorem length_beBytes (n k : Nat) : (beBytes n k).length = k := by simp [beBytes]

/-- A byte string made from an integer has the asked length. -/
theorem length_toBytes {n size : Nat} {e : Endian} {r : List Byte} (h : toBytes n size e = some r) :
    r.length = size := by
  unfold toBytes at h
  split at h
  · cases h
  · cases e <;> (injection h with h; rw [← h]; simp)

@[simp] theorem State.length_bufBytes (s : State) (k : Nat) : (s.bufBytes k).length = k := by simp [State.bufBytes]

@[simp] theorem State.length_strBytes (s : State) (k : Nat) : (s.strBytes k).length = k := by simp [State.strBytes]

@[simp] theorem length_checksum (hash : List Byte → Vector Byte 32) (m : List Byte) : (checksum hash m).length = 4 := by
  simp [checksum, first4]

@[simp] theorem length_base58Full (hash : List Byte → Vector Byte 32) (ver : Byte) (payload : List Byte) :
    (base58Full hash ver payload).length = payload.length + 5 := by
  simp [base58Full]

end Sys2Proof.Machine
end

