-- ==== Sys2Proof/Laws/PerInstr.lean ====
section
/-! SUPPORT. A statement about every command, made per command: the two parts of its encoding, the opcode in bits
31..26 and the fields in bits 25..0 (30_encoding.md R91, R92). -/

namespace Sys2Proof

/-- The high part of an appended word. -/
theorem opcodeOf_append (o : BitVec 6) (v : BitVec 26) : opcodeOf (o ++ v) = o := by
  apply BitVec.eq_of_getLsbD_eq
  intro i hi
  unfold opcodeOf
  rw [BitVec.getLsbD_extractLsb', BitVec.getLsbD_append]
  simp [hi]

/-- The low part of an appended word. -/
theorem fields_append (o : BitVec 6) (v : BitVec 26) : (o ++ v).extractLsb' 0 26 = v := by
  apply BitVec.eq_of_getLsbD_eq
  intro i hi
  rw [BitVec.getLsbD_extractLsb', BitVec.getLsbD_append]
  simp [hi]

/-- A field of a command word lies in its low part. -/
theorem extract_encode (i : Instr) {lo len : Nat} (h : lo + len ≤ 26) :
    (encode i).extractLsb' lo len = i.fieldBits.extractLsb' lo len := by
  rw [encode, BitVec.extractLsb'_append_eq_of_add_le h]

namespace Laws

/-- A command's word is its opcode above its fields. -/
def OpcodeField.Statement (i : Instr) : Prop :=
  opcodeOf (encode i) = i.opcode ∧ (encode i).extractLsb' 0 26 = i.fieldBits

theorem OpcodeField.all (i : Instr) : OpcodeField.Statement i :=
  ⟨opcodeOf_append i.opcode i.fieldBits, fields_append i.opcode i.fieldBits⟩

theorem OpcodeField.halt : OpcodeField.Statement (.halt) := OpcodeField.all _
theorem OpcodeField.nop : OpcodeField.Statement (.nop) := OpcodeField.all _
theorem OpcodeField.fmov (rd rs1 : FReg) : OpcodeField.Statement (.fmov rd rs1) := OpcodeField.all _
theorem OpcodeField.fldi (rd : FReg) (imm16 : BitVec 16) : OpcodeField.Statement (.fldi rd imm16) := OpcodeField.all _
theorem OpcodeField.fldc (rd : FReg) (sel : Sel) : OpcodeField.Statement (.fldc rd sel) := OpcodeField.all _
theorem OpcodeField.pinf (qd : PReg) : OpcodeField.Statement (.pinf qd) := OpcodeField.all _
theorem OpcodeField.pfin (qd : PReg) : OpcodeField.Statement (.pfin qd) := OpcodeField.all _
theorem OpcodeField.fadd (rd rs1 rs2 : FReg) : OpcodeField.Statement (.fadd rd rs1 rs2) := OpcodeField.all _
theorem OpcodeField.fsub (rd rs1 rs2 : FReg) : OpcodeField.Statement (.fsub rd rs1 rs2) := OpcodeField.all _
theorem OpcodeField.fmul (rd rs1 rs2 : FReg) : OpcodeField.Statement (.fmul rd rs1 rs2) := OpcodeField.all _
theorem OpcodeField.fdiv (rd rs1 rs2 : FReg) : OpcodeField.Statement (.fdiv rd rs1 rs2) := OpcodeField.all _
theorem OpcodeField.finv (rd rs1 : FReg) : OpcodeField.Statement (.finv rd rs1) := OpcodeField.all _
theorem OpcodeField.fexp (rd rs1 rs2 : FReg) (neg : Bool) : OpcodeField.Statement (.fexp rd rs1 rs2 neg) := OpcodeField.all _
theorem OpcodeField.faddn (rd rs : FReg) (cnt : Count) : OpcodeField.Statement (.faddn rd rs cnt) := OpcodeField.all _
theorem OpcodeField.fsubn (rd rs : FReg) (cnt : Count) : OpcodeField.Statement (.fsubn rd rs cnt) := OpcodeField.all _
theorem OpcodeField.fmuln (rd rs : FReg) (cnt : Count) : OpcodeField.Statement (.fmuln rd rs cnt) := OpcodeField.all _
theorem OpcodeField.ecadd (qd qa qb : PReg) : OpcodeField.Statement (.ecadd qd qa qb) := OpcodeField.all _
theorem OpcodeField.ecdbl (qd qa : PReg) : OpcodeField.Statement (.ecdbl qd qa) := OpcodeField.all _
theorem OpcodeField.ecmul (qd qa : PReg) (rs : FReg) : OpcodeField.Statement (.ecmul qd qa rs) := OpcodeField.all _
theorem OpcodeField.ecmulg (qd : PReg) (rs : FReg) : OpcodeField.Statement (.ecmulg qd rs) := OpcodeField.all _
theorem OpcodeField.ecchk (qa : PReg) : OpcodeField.Statement (.ecchk qa) := OpcodeField.all _
theorem OpcodeField.tobytes (rs : FReg) (size : BitVec 8) (e : Endian) : OpcodeField.Statement (.tobytes rs size e) := OpcodeField.all _
theorem OpcodeField.frombytes (rd : FReg) (e : Endian) : OpcodeField.Statement (.frombytes rd e) := OpcodeField.all _
theorem OpcodeField.b58enc (ver : BitVec 8) : OpcodeField.Statement (.b58enc ver) := OpcodeField.all _
theorem OpcodeField.b58dec : OpcodeField.Statement (.b58dec) := OpcodeField.all _

end Laws

end Sys2Proof
end

