-- ==== Sys2Proof/Machine/Asm.lean ====
section
/-! DEFINITION. The assembler's side of 30_encoding.md: the syntax of each command (R102) and the pseudo-instructions
with their exact expansions (R103). It is textual: the engine sees only the expansion, and no step uses this file. -/

namespace Sys2Proof.Machine

/-- `F0` to `F15` (R102). -/
def fregName (r : FReg) : String := "F" ++ toString r.val

/-- `Q0` to `Q7` (R102). -/
def pregName (q : PReg) : String := "Q" ++ toString q.val

/-- The selectors' names (R102). -/
def selName : Sel → String
  | .p => "P"
  | .pm1 => "PM1"
  | .pm2 => "PM2"
  | .a => "A"
  | .b => "B"
  | .gx => "GX"
  | .gy => "GY"
  | .n => "N"
  | .bitsize => "BITSIZE"

/-- END written BE or LE (R102). -/
def endianName : Endian → String
  | .big => "BE"
  | .little => "LE"

/-- The operands of a command in the order of R102, immediates in decimal (log 20). -/
def asmOperands : Instr → List String
  | .halt => []
  | .nop => []
  | .fmov rd rs1 => [fregName rd, fregName rs1]
  | .fldi rd imm16 => [fregName rd, toString imm16.toNat]
  | .fldc rd sel => [fregName rd, selName sel]
  | .pinf qd => [pregName qd]
  | .pfin qd => [pregName qd]
  | .fadd rd rs1 rs2 => [fregName rd, fregName rs1, fregName rs2]
  | .fsub rd rs1 rs2 => [fregName rd, fregName rs1, fregName rs2]
  | .fmul rd rs1 rs2 => [fregName rd, fregName rs1, fregName rs2]
  | .fdiv rd rs1 rs2 => [fregName rd, fregName rs1, fregName rs2]
  | .finv rd rs1 => [fregName rd, fregName rs1]
  | .fexp rd rs1 rs2 neg => [fregName rd, fregName rs1, (if neg then "-" else "") ++ fregName rs2]
  | .faddn rd rs cnt => [fregName rd, fregName rs, toString cnt.val]
  | .fsubn rd rs cnt => [fregName rd, fregName rs, toString cnt.val]
  | .fmuln rd rs cnt => [fregName rd, fregName rs, toString cnt.val]
  | .ecadd qd qa qb => [pregName qd, pregName qa, pregName qb]
  | .ecdbl qd qa => [pregName qd, pregName qa]
  | .ecmul qd qa rs => [pregName qd, pregName qa, fregName rs]
  | .ecmulg qd rs => [pregName qd, fregName rs]
  | .ecchk qa => [pregName qa]
  | .tobytes rs size e => [fregName rs, toString size.toNat, endianName e]
  | .frombytes rd e => [fregName rd, endianName e]
  | .b58enc ver => [toString ver.toNat]
  | .b58dec => []

/-- One line of assembler: `MNEMONIC operands`, operands separated by commas (R102). -/
def asmLine (i : Instr) : String :=
  match asmOperands i with
  | [] => i.mnemonic
  | ops => i.mnemonic ++ " " ++ String.intercalate ", " ops

/-- The pseudo-instructions (R103). -/
inductive Pseudo where
  | fclr (d : FReg)
  | fsqr (d a : FReg)
  | fneg (d a : FReg)
  | ldg (d : PReg)
  | ldp (d : FReg)
deriving DecidableEq, Repr

/-- The exact expansion of a pseudo-instruction (R103); none where FNEG breaks its requirement d ≠ a. -/
def Pseudo.expand : Pseudo → Option (List Instr)
  | .fclr d => some [.fldi d 0#16]
  | .fsqr d a => some [.fmul d a a]
  | .fneg d a => if d = a then none else some [.fldi d 0#16, .fsub d d a]
  | .ldg d => some
    [.fldc ⟨2 * d.val, by omega⟩ .gx, .fldc ⟨2 * d.val + 1, by omega⟩ .gy, .pfin d]
  | .ldp d => some [.fldc d .p]

end Sys2Proof.Machine
end

