-- ==== Sys2Proof/Tests/Slice0.lean ====
section
/-! SUPPORT. Tests of the model on fixed values, with their source in spec/, and for every statement of the
certificates that has hypotheses a state and operands that meet them. -/

namespace Sys2Proof.Tests

open Sys2Proof Sys2Proof.Machine

/- Checked one after another: every small evaluation on a thread of its own would together ask for more memory than a
check has. -/
set_option Elab.async false

/-! ## Helpers -/

/-- T223 of spec/95: the field of order 223, y² = x³ + 7, G = (47, 71) of order 21, both locks held. -/
def t223 : State :=
  { State.reset with
    p := 223, a := 0, b := 7, gx := 47, gy := 71, n := 21, bitsize := 8#16,
    flocked := true, clocked := true }

/-- The next state of a command, or the state itself if there is none. -/
def ran (i : Instr) (s : State) : State :=
  match exec i s with
  | .next t => t
  | _ => s

/-- The next state of a step, or the state itself if there is none. -/
def stepped (s : State) : State :=
  match step s with
  | .next t => t
  | _ => s

/-- Field registers loaded. -/
def regs (l : List (FReg × Nat)) (s : State) : State := l.foldl (fun s c => s.setX c.1 c.2) s

/-- T223 with Q1 and Q2 loaded. -/
def points (u v : Point) : State := (t223.setPoint 1 u).setPoint 2 v

/-- BUF and BLEN loaded. -/
def buffered (r : List Byte) (s : State) : State :=
  { s with mem := s.mem.writeBytes bufBase r, blen := BitVec.ofNat 8 r.length }

/-- STR and SLEN loaded. -/
def stringed (r : List Byte) (s : State) : State :=
  { s with mem := s.mem.writeBytes strBase r, slen := BitVec.ofNat 8 r.length }

/-- A word in CMDMEM[0] with a run just started. -/
def running (w : Word32) (s : State) : State := { s.setCmdWord 0 w with busy := true }

/-- A hash with a digest given by its first four bytes. -/
def digest (a b c d : Byte) (_ : List Byte) : Vector Byte 32 :=
  ((((Vector.replicate 32 0#8).set 0 a).set 1 b).set 2 c).set 3 d

/-! ## Parameters and memory -/

/-- An instance with the narrowest registers (00_scope.md R6). -/
def narrow : Params := ⟨64, 8, 20⟩

/-- An instance with the widest registers and large buffers (00_scope.md R6). -/
def wide : Params := ⟨512, 176, 252⟩

/-- 00_scope.md R6: the values the spec takes, and others at the ends of their ranges. -/
theorem test_parameters_allowed :
    Params.taken.allowed = true ∧ narrow.allowed = true ∧ wide.allowed = true ∧
    (⟨544, 64, 128⟩ : Params).allowed = false ∧ (⟨256, 64, 92⟩ : Params).allowed = false := by decide +kernel

theorem test_reset_memory_wf : Memory.wf State.reset.mem := Memory.wf_nil

/-- Writing what an unlisted byte reads as removes the cell. -/
theorem test_write_zero_removes : (Memory.write [(0x800, 5#8), (0x801, 6#8)] 0x800 0#8) = [(0x801, 6#8)] := by decide

/-! ## WellFormed: each check refuses an ill-formed term -/

theorem test_ill_formed_faddn : (Instr.faddn 0 14 3).wellFormed = false := by decide
theorem test_ill_formed_fsubn : (Instr.fsubn 0 15 2).wellFormed = false := by decide
theorem test_ill_formed_fmuln : (Instr.fmuln 0 1 15).wellFormed = true ∧ (Instr.fmuln 0 2 15).wellFormed = false := by
  decide

/-! ## Decoding: words of spec/95 and of the formats of 30_encoding.md R92 -/

theorem test_decode_halt : decode 0x04000000#32 = .ok .halt := by decide
theorem test_decode_nop : decode 0x08000000#32 = .ok .nop := by decide
theorem test_decode_fmov : decode 0x0CC40000#32 = .ok (.fmov 3 1) := by decide
theorem test_decode_fldi : decode 0x13C0FFFF#32 = .ok (.fldi 15 65535#16) := by decide
theorem test_decode_fldc : decode 0x14800008#32 = .ok (.fldc 2 .bitsize) := by decide
theorem test_decode_pinf : decode 0x19800000#32 = .ok (.pinf 3) := by decide
theorem test_decode_pfin : decode 0x1D800000#32 = .ok (.pfin 3) := by decide
theorem test_decode_fadd : decode 0x20C48000#32 = .ok (.fadd 3 1 2) := by decide
theorem test_decode_fsub : decode 0x24C48000#32 = .ok (.fsub 3 1 2) := by decide
theorem test_decode_fmul : decode 0x28C48000#32 = .ok (.fmul 3 1 2) := by decide
theorem test_decode_fdiv : decode 0x2CC48000#32 = .ok (.fdiv 3 1 2) := by decide
theorem test_decode_finv : decode 0x30C40000#32 = .ok (.finv 3 1) := by decide
theorem test_decode_fexp : decode 0x34C4A000#32 = .ok (.fexp 3 1 2 true) := by decide
theorem test_decode_faddn : decode 0x4010C000#32 = .ok (.faddn 0 4 3) := by decide
theorem test_decode_fsubn : decode 0x44104000#32 = .ok (.fsubn 0 4 1) := by decide
theorem test_decode_fmuln : decode 0x4810C000#32 = .ok (.fmuln 0 4 3) := by decide
theorem test_decode_ecadd : decode 0x60140000#32 = .ok (.ecadd 0 1 2) := by decide
theorem test_decode_ecdbl : decode 0x64100000#32 = .ok (.ecdbl 0 1) := by decide
theorem test_decode_ecmul : decode 0x6A480000#32 = .ok (.ecmul 4 4 8) := by decide
theorem test_decode_ecmulg : decode 0x6C8D0000#32 = .ok (.ecmulg 1 13) := by decide
theorem test_decode_ecchk : decode 0x70700000#32 = .ok (.ecchk 7) := by decide
theorem test_decode_tobytes : decode 0x80100140#32 = .ok (.tobytes 4 64#8 .little) := by decide
theorem test_decode_frombytes : decode 0x85400100#32 = .ok (.frombytes 5 .little) := by decide
theorem test_decode_b58enc : decode 0xA0000005#32 = .ok (.b58enc 5#8) := by decide
theorem test_decode_b58dec : decode 0xA4000000#32 = .ok .b58dec := by decide

/-- A word decodes to no command. -/
def illegal (w : Word32) : Bool :=
  match decode w with
  | .ok _ => false
  | .error _ => true

/-- spec/95, section 2.8: the illegal words. -/
theorem test_illegal_words_a :
    [0x00000000#32, 0x04000001#32, 0x08008000#32, 0x0C000001#32, 0x10010000#32, 0x14000009#32,
     0x1400000F#32, 0x14000010#32].all illegal = true := by decide
theorem test_illegal_words_b :
    [0x18800001#32, 0x20000001#32, 0x34C49000#32, 0x38000000#32, 0x3C000000#32, 0x4038C000#32,
     0x403C8000#32, 0x4C000000#32].all illegal = true := by decide
theorem test_illegal_words_c :
    [0x60010000#32, 0x64080000#32, 0x6C100000#32, 0x70800000#32, 0x74000000#32, 0x80400000#32,
     0x80000200#32, 0x84400001#32].all illegal = true := by decide
theorem test_illegal_words_d :
    [0x88000000#32, 0xA0000100#32, 0xA4000001#32, 0xA8000000#32, 0xFC000000#32
     ].all illegal = true := by decide

/-- spec/95, section 2.8: words that look illegal and are legal. -/
theorem test_legal_words :
    decode 0x40388000#32 = .ok (.faddn 0 14 2) ∧ decode 0x403C4000#32 = .ok (.faddn 0 15 1) ∧
    decode 0x800000FF#32 = .ok (.tobytes 0 255#8 .big) := by decide

theorem test_decode_table_word : decodeTableWord 32 0x20C48000 = some (.fadd 3 1 2) ∧ decodeTableWord 32 0 = none := by
  decide

/-! ## The assembler's text (30_encoding.md R102, R103) -/

theorem test_asm_line : asmLine (.fexp 3 1 2 true) = "FEXP F3, F1, -F2" ∧ asmLine .halt = "HALT" ∧
    asmLine (.tobytes 4 65#8 .big) = "TOBYTES F4, 65, BE" := by decide +kernel

theorem test_pseudo :
    (Pseudo.ldg 1).expand = some [.fldc 2 .gx, .fldc 3 .gy, .pfin 1] ∧ (Pseudo.fneg 2 2).expand = none ∧
    (Pseudo.fneg 2 3).expand = some [.fldi 2 0#16, .fsub 2 2 3] := by decide

/-! ## One command each: the vectors of spec/95 -/

theorem test_halt : (ran .halt { t223 with pc := 63#6, busy := true }).done = true ∧
    (ran .halt { t223 with pc := 63#6, busy := true }).pc = 63#6 := by decide +kernel
theorem test_nop : (ran .nop { t223 with pc := 5#6 }).pc = 6#6 := by decide +kernel
theorem test_nop_overrun : (ran .nop { t223 with pc := 63#6, busy := true }).errcode = 0x13#8 := by decide +kernel
theorem test_fmov : (ran (.fmov 3 1) (regs [(1, 2 ^ 256 - 1)] t223)).x 3 = 2 ^ 256 - 1 := by decide +kernel
theorem test_fldi : (ran (.fldi 15 65535#16) (regs [(15, 2 ^ 255)] State.reset)).x 15 = 65535 := by decide +kernel
theorem test_fldc : (ran (.fldc 2 .pm1) { t223 with clocked := false }).x 2 = 222 := by decide +kernel
theorem test_fldc_unlocked : (ran (.fldc 2 .a) { t223 with clocked := false }).errcode = 0x11#8 := by decide +kernel
theorem test_pinf : (ran (.pinf 3) (regs [(6, 5), (7, 9)] { t223 with ptag := 0xF7#8 })).ptag = 0xFF#8 ∧
    (ran (.pinf 3) (regs [(6, 5), (7, 9)] { t223 with ptag := 0xF7#8 })).x 7 = 0 := by decide +kernel
theorem test_pfin : (ran (.pfin 3) (regs [(6, 5), (7, 9)] t223)).ptag = 0xF7#8 ∧
    (ran (.pfin 3) (regs [(6, 5), (7, 9)] t223)).point 3 = .fin 5 9 := by decide +kernel
theorem test_fadd : (ran (.fadd 3 1 2) (regs [(1, 200), (2, 100)] t223)).x 3 = 77 := by decide +kernel
theorem test_fadd_invalid : (ran (.fadd 3 1 2) (regs [(1, 223), (2, 1)] t223)).errcode = 0x01#8 := by decide +kernel
theorem test_fsub : (ran (.fsub 3 1 2) (regs [(1, 5), (2, 10)] t223)).x 3 = 218 := by decide +kernel
theorem test_fmul : (ran (.fmul 3 1 2) (regs [(1, 200), (2, 100)] t223)).x 3 = 153 := by decide +kernel
theorem test_fdiv : (ran (.fdiv 3 1 2) (regs [(1, 3), (2, 24)] t223)).x 3 = 28 := by decide +kernel
theorem test_fdiv_priority : (ran (.fdiv 3 1 2) (regs [(1, 300), (2, 0)] t223)).errcode = 0x01#8 := by decide +kernel
theorem test_finv : (ran (.finv 3 1) (regs [(1, 24)] t223)).x 3 = 158 := by decide +kernel
theorem test_finv_zero : (ran (.finv 3 1) (regs [(1, 0)] t223)).errcode = 0x03#8 := by decide +kernel
theorem test_fexp : (ran (.fexp 3 1 2 false) (regs [(1, 3), (2, 2 ^ 255)] t223)).x 3 = 94 := by decide +kernel
theorem test_fexp_negative : (ran (.fexp 3 1 2 true) (regs [(1, 3), (2, 5)] t223)).x 3 = 145 := by decide +kernel
theorem test_faddn : (ran (.faddn 5 4 3) (regs [(4, 10), (5, 20), (6, 30)] t223)).x 5 = 60 := by decide +kernel
theorem test_fsubn : (ran (.fsubn 0 4 3) (regs [(4, 10), (5, 20), (6, 30)] t223)).x 0 = 183 := by decide +kernel
theorem test_fsubn_priority : (ran (.fsubn 0 4 1) (regs [(4, 500)] t223)).errcode = 0x02#8 := by decide +kernel
theorem test_fmuln : (ran (.fmuln 0 4 3) (regs [(4, 10), (5, 20), (6, 30)] t223)).x 0 = 202 := by decide +kernel
theorem test_ecadd : (ran (.ecadd 0 1 2) (points (.fin 47 71) (.fin 36 111))).point 0 = .fin 15 137 := by
  decide +kernel
theorem test_ecadd_vertical : (ran (.ecadd 0 1 2) (points (.fin 6 0) (.fin 6 0))).point 0 = .inf := by decide +kernel
theorem test_ecdbl : (ran (.ecdbl 0 1) (points (.fin 154 150) .inf)).point 0 = .fin 47 152 := by decide +kernel
theorem test_ecmul_alias : (ran (.ecmul 4 4 8) (t223.setPoint 4 (.fin 47 71))).point 4 = .fin 126 96 := by
  decide +kernel
theorem test_ecmul_off_curve : (ran (.ecmul 0 1 8) (points (.fin 47 72) .inf)).errcode = 0x08#8 := by decide +kernel
theorem test_ecmulg : (ran (.ecmulg 0 8) (regs [(8, 13)] t223)).point 0 = .fin 116 168 := by decide +kernel
theorem test_ecmulg_order : (ran (.ecmulg 0 8) (regs [(8, 21)] t223)).point 0 = .inf := by decide +kernel
theorem test_ecchk : (ran (.ecchk 1) (points (.fin 47 71) .inf)).onc = true := by decide +kernel
theorem test_ecchk_off_curve : (ran (.ecchk 1) { points (.fin 47 72) .inf with onc := true }).onc = false := by
  decide +kernel
theorem test_tobytes : (ran (.tobytes 4 4#8 .little) (regs [(4, 0x102)] State.reset)).bufBytes 4 =
    [2#8, 1#8, 0#8, 0#8] := by decide +kernel
theorem test_tobytes_overflow : (ran (.tobytes 4 1#8 .little) (regs [(4, 0x100)] State.reset)).errcode = 0x05#8 := by
  decide +kernel
theorem test_frombytes : (ran (.frombytes 5 .little) (buffered [0#8, 0#8, 1#8, 2#8] State.reset)).x 5 = 0x2010000 := by
  decide +kernel
theorem test_frombytes_overflow :
    (ran (.frombytes 5 .big) (buffered (1#8 :: List.replicate 32 0#8) State.reset)).errcode = 0x05#8 := by
  decide +kernel
/-- S3 of spec/95 with its stated checksum 12181e60: "19g6oo8foQF5jfqK9gH2bLkFNwgCenRBPD". -/
theorem test_b58enc :
    base58Symbols (base58Full (digest 0x12#8 0x18#8 0x1e#8 0x60#8) 0#8
      [0x5f#8, 0x26#8, 0x13#8, 0x79#8, 0x1b#8, 0x36#8, 0xf6#8, 0x67#8, 0xfd#8, 0xb8#8,
       0xe9#8, 0x56#8, 0x08#8, 0xb5#8, 0x5e#8, 0x3d#8, 0xf4#8, 0xc5#8, 0xf9#8, 0xeb#8]) =
    "19g6oo8foQF5jfqK9gH2bLkFNwgCenRBPD".toList.map (fun c => BitVec.ofNat 8 c.toNat) := by decide +kernel
/-- "dDc8z6", B58N = 0: the empty payload and version 0x05 (spec/95, section 2.6). Its value is 05 and the checksum,
SHA-256 applied twice to the byte 05. -/
theorem test_b58dec :
    ((base58Decode (digest 0x88#8 0xe4#8 0x43#8 0xa3#8)
        { stringed ("dDc8z6".toList.map fun c => BitVec.ofNat 8 c.toNat) State.reset with b58n := 0#8 }).toOption.map
      fun t => (t.b58ver, t.blen)) = some (5#8, 0#8) := by decide +kernel
theorem test_b58dec_strict :
    (ran .b58dec { stringed [0x30#8] State.reset with strict58 := true }).errcode = 0x07#8 := by decide +kernel

/-- FROMBYTES on a narrow instance: 2^64 passes W = 64, and BLEN = 9 passes BUFBYTES = 8. -/
theorem test_frombytes_narrow :
    (ran (.frombytes 5 .big) (buffered (List.replicate 8 255#8) (State.resetOf narrow))).x 5 = 2 ^ 64 - 1 ∧
    (ran (.frombytes 5 .big) (buffered (1#8 :: List.replicate 8 0#8) (State.resetOf narrow))).errcode = 0x12#8 := by
  decide +kernel

/-! ## The step and the window -/

/-- 20_memory.md R63, R66 on a narrow instance: word 2 of a slot is no part of a 64-bit register, and 0x808 is
reserved behind 8 bytes of BUF. -/
theorem test_narrow_window :
    ((State.resetOf narrow).hostWrite 0x408 4 9#32).x 0 = 0 ∧
    ((State.resetOf narrow).hostWrite 0x404 4 9#32).x 0 = 9 * 2 ^ 32 ∧
    ((State.resetOf narrow).hostWrite 0x808 4 9#32).reply = some ⟨0#32, true⟩ ∧
    ((State.resetOf narrow).hostRead 0x004 4).reply = some ⟨0x14080040#32, false⟩ := by decide +kernel

/-- H14 of spec/95: a run from reset on the all-zero CMDMEM. -/
theorem test_first_run :
    (stepped (State.reset.hostWrite 0x008 4 1#32)).errcode = 0x10#8 ∧
    (stepped (State.reset.hostWrite 0x008 4 1#32)).busy = false := by decide +kernel

theorem test_with_fetch_word : (stepped (State.reset.withFetchWord 32 0x10C0002F)).x 3 = 47 := by decide +kernel

/-- H10 of spec/95: both locks in one write. -/
theorem test_both_locks :
    ({ t223 with flocked := false, clocked := false }.hostWrite 0x010 4 3#32).cfgWord = 3#32 := by decide +kernel

/-- H8 of spec/95: N = 21 is more than 2^4. -/
theorem test_curve_lock_fails :
    ({ t223 with clocked := false, bitsize := 4#16 }.hostWrite 0x010 4 2#32).cfgWord = 0x201#32 := by decide +kernel

/-- H5 of spec/95: a locked P. -/
theorem test_locked_write : (t223.hostWrite 0x100 4 229#32).p = 223 ∧
    ((t223.hostWrite 0x100 4 229#32).hostRead 0x00C 4).reply = some ⟨8#32, false⟩ := by decide +kernel

/-- H18 and H19 of spec/95. -/
theorem test_refused_reads :
    (State.reset.hostRead 0x040 4).reply = some ⟨0#32, true⟩ ∧ (State.reset.hostRead 0x002 4).hosterr = true := by
  decide +kernel

/-- H17 of spec/95: writes during a run. -/
theorem test_busy_write : ((running 0x08000000#32 t223).hostWrite 0x400 4 9#32).x 0 = 0 ∧
    ((running 0x08000000#32 t223).hostWrite 0x400 4 9#32).hosterr = true := by decide +kernel

/-! ## Witnesses: the hypotheses of each statement are met together -/

/-- A run at a NOP on T223. -/
def nopRun : State := running 0x08000000#32 t223

theorem witness_nopRun_inv : nopRun.Inv where
  parameters := by decide +kernel
  fieldWidth := by decide +kernel
  configWidth := fun r => by cases r <;> decide +kernel
  fieldLock := by decide +kernel
  curveLock := by decide +kernel
  running := by decide +kernel
  ended := by decide +kernel
  doneClean := by decide +kernel
  errCoded := by decide +kernel
  codeListed := .inl rfl
  errorAtPc := by decide +kernel
  memoryForm := by decide +kernel
  memoryPlace := by decide +kernel

/-- An idle state that holds both locks and meets the invariant, with a host turn to come. -/
def hostTurn (t : Turn) : State := { t223 with agenda := [t] }

theorem witness_hostTurn_inv (t : Turn) : (hostTurn t).Inv where
  parameters := by show t223.params.allowed = true; decide +kernel
  fieldWidth := by show ∀ i, (t223.x i) < 2 ^ t223.params.w; decide +kernel
  configWidth := fun r => by show (t223.config r) < 2 ^ t223.params.w; cases r <;> decide +kernel
  fieldLock := fun _ => by show t223.fieldLockPasses = true; decide +kernel
  curveLock := fun _ => by show t223.curveLockPasses = true; decide +kernel
  running := fun h => absurd h (by show ¬ t223.busy = true; decide)
  ended := by show ¬ (t223.done = true ∧ t223.err = true); decide
  doneClean := fun _ => rfl
  errCoded := fun h => absurd h (by show ¬ t223.err = true; decide)
  codeListed := .inl rfl
  errorAtPc := fun _ => rfl
  memoryForm := Memory.wf_nil
  memoryPlace := by show ∀ c ∈ t223.mem, memoryOffset t223.params c.1 = true; decide

theorem witness_EveryStepKeepsTheInvariant_engine :
    ∃ t, nopRun.Inv ∧ step nopRun = .next t := ⟨_, witness_nopRun_inv, rfl⟩
theorem witness_EveryStepKeepsTheInvariant_host :
    ∃ t, (hostTurn (.write 0x014 4 63#32)).Inv ∧ step (hostTurn (.write 0x014 4 63#32)) = .next t :=
  ⟨_, witness_hostTurn_inv _, rfl⟩
theorem witness_EveryStepKeepsTheInvariant_reset :
    ∃ t, (hostTurn .reset).Inv ∧ step (hostTurn .reset) = .next t := ⟨_, witness_hostTurn_inv _, rfl⟩

theorem witness_StepRunsTheDecodedCommand :
    nopRun.busy = true ∧ decode (nopRun.cmdWord nopRun.pc) = .ok .nop ∧ nopRun.agenda = [] := by decide +kernel
theorem witness_StepRunsTheDecodedCommand_listed :
    ∃ s : State, s.busy = true ∧ decode (s.cmdWord s.pc) = .ok .nop ∧ s.agenda = [.engine, .reset] :=
  ⟨{ nopRun with agenda := [.engine, .reset] }, by decide +kernel⟩

theorem witness_IllegalWordStops :
    (running 0#32 t223).agenda = [] ∧ (running 0#32 t223).busy = true ∧
    decode ((running 0#32 t223).cmdWord (running 0#32 t223).pc) = .error .unassignedOpcode := by decide +kernel
theorem witness_IllegalWordStops_listed :
    ∃ s : State, s.busy = true ∧ decode (s.cmdWord s.pc) = .error .unassignedOpcode ∧ s.agenda = [.engine, .reset] :=
  ⟨{ running 0#32 t223 with agenda := [.engine, .reset] }, by decide +kernel⟩
theorem witness_IdleEngineWaits : t223.busy = false ∧ t223.agenda = [] := by decide
theorem witness_IdleEngineWaits_listed :
    (hostTurn .engine).busy = false ∧ (hostTurn .engine).agenda = [.engine] := by decide

theorem witness_StepTakesTheListedTurn_read :
    (hostTurn (.read 0xFFC 4)).agenda = [.read 0xFFC 4] ∧ 0xFFC < 0x1000 := by decide
theorem witness_StepTakesTheListedTurn_write :
    (hostTurn (.write 0 4 1#32)).agenda = [.write 0 4 1#32] ∧ 0 < 0x1000 := by decide
theorem witness_StepTakesTheListedTurn_read_outside :
    (hostTurn (.read 0x1000 4)).agenda = [.read 0x1000 4] ∧ ¬ 0x1000 < 0x1000 := by decide
theorem witness_StepTakesTheListedTurn_write_outside :
    (hostTurn (.write 0x1000 4 1#32)).agenda = [.write 0x1000 4 1#32] ∧ ¬ 0x1000 < 0x1000 := by decide
theorem witness_StepTakesTheListedTurn_reset : (hostTurn .reset).agenda = [.reset] := by decide
theorem witness_StepIsNeverRefused_fault : step (hostTurn (.read 0x1000 4)) = .fault .outsideWindow := rfl

theorem witness_EveryRunEnds : nopRun.Inv ∧ nopRun.agenda = [] ∧ nopRun.busy = true :=
  ⟨witness_nopRun_inv, by decide⟩

theorem witness_DecodeOfEncode : (Instr.faddn 0 14 2).wellFormed = true ∧ (Instr.faddn 0 15 1).wellFormed = true := by
  decide
theorem witness_EncodeOfDecode : decode 0x40388000#32 = .ok (.faddn 0 14 2) := by decide

theorem witness_AdvanceOrOverrun :
    ({ t223 with pc := 63#6 } : State).pc = 63#6 ∧ ({ t223 with pc := 62#6 } : State).pc ≠ 63#6 := by decide

theorem witness_Fldc_locked : t223.flocked = true ∧ 3 ≤ t223.p ∧ t223.clocked = true := by decide +kernel
theorem witness_Fldc_least_field :
    ({ t223 with p := 3 } : State).flocked = true ∧ 3 ≤ ({ t223 with p := 3 } : State).p := by
  decide +kernel
theorem witness_Fldc_unlocked : State.reset.flocked = false ∧ State.reset.clocked = false := by decide

theorem witness_PointRegistersAreAliases : (0 : FReg).val / 2 ≠ (7 : PReg).val ∧ (7 : PReg) ≠ 0 ∧
    State.reset.ptag.getLsbD 7 = true := by decide

/-- F1 = P - 1, F2 = 1 and F15 = P - 1 on T223, F14 the least element. -/
def elements : State := regs [(1, 222), (2, 1), (14, 0), (15, 222)] t223

theorem witness_FaddFsubFmul :
    elements.flocked = true ∧ elements.x 1 < elements.p ∧ elements.x 2 < elements.p := by
  decide +kernel
theorem witness_FdivFinv :
    elements.flocked = true ∧ elements.x 2 < elements.p ∧ elements.x 1 < elements.p ∧
    elements.x 1 ≠ 0 := by decide +kernel
theorem witness_Fexp_nonzero_base :
    elements.flocked = true ∧ elements.x 1 < elements.p ∧ elements.x 1 ≠ 0 := by decide +kernel
theorem witness_Fexp_zero_base :
    elements.flocked = true ∧ elements.x 14 < elements.p ∧ elements.x 14 = 0 ∧
    (0 : Int) < (elements.x 2 : Int) ∧ -(elements.x 2 : Int) ≤ 0 ∧
    (elements.x 14 : Int) ≤ 0 := by decide +kernel
theorem witness_Folds :
    (14 : FReg).val + (2 : Count).val - 1 ≤ 15 ∧ 2 ≤ (2 : Count).val ∧ elements.flocked = true ∧
    [0, 222] = (List.range (2 : Count).val).map
      (fun j => elements.f.toList.getD ((14 : FReg).val + j) 0) ∧
    ∀ v ∈ [0, 222], v < elements.p := by decide +kernel

theorem witness_FieldErrors_window : 2 ≤ (2 : Count).val ∧ 16 < (15 : FReg).val + (2 : Count).val := by decide
theorem witness_FieldErrors_unlocked :
    State.reset.flocked = false ∧ (15 : FReg).val + (1 : Count).val ≤ 16 ∧ (1 : Count).val < 2 := by decide
theorem witness_FieldErrors_count : elements.flocked = true ∧ (1 : Count).val < 2 ∧ (0 : Count).val < 2 := by decide
theorem witness_FieldErrors_fold_range :
    (regs [(15, 223)] t223).flocked = true ∧ 2 ≤ (2 : Count).val ∧ (14 : FReg).val + (2 : Count).val ≤ 16 ∧
    ∃ j : FReg, (14 : FReg).val ≤ j.val ∧ j.val < (14 : FReg).val + (2 : Count).val ∧
      (regs [(15, 223)] t223).p ≤ ((regs [(15, 223)] t223).x j) :=
  ⟨by decide, by decide, by decide, 15, by decide +kernel⟩
theorem witness_FieldErrors_range :
    (regs [(1, 223)] t223).flocked = true ∧ (regs [(1, 223)] t223).p ≤ ((regs [(1, 223)] t223).x 1) := by
  decide +kernel
theorem witness_FieldErrors_division :
    elements.flocked = true ∧ elements.x 1 < elements.p ∧ elements.x 14 = 0 ∧
    0 < elements.p := by decide +kernel
theorem witness_FieldResultsLieBelowP : ∃ t, exec (.fadd 3 1 1) elements = .next t ∧ (3 : FReg) ≠ 2 :=
  ⟨_, rfl, by decide⟩
theorem witness_FieldResultsLieBelowP_error : ∃ t, exec (.faddn 3 1 1) elements = .next t := ⟨_, rfl⟩
theorem witness_FieldInverse :
    elements.flocked = true ∧ elements.p % 2 = 1 ∧ 3 ≤ elements.p ∧
    elements.x 2 < elements.p ∧ elements.x 1 < elements.p ∧ (3 : FReg) ≠ 1 ∧
    elements.x 1 ≠ 0 := by decide +kernel

/-- With `witness_FieldInverse`: its prime field. -/
theorem prime_223 : Nat.Prime t223.p := by
  show Nat.Prime 223
  norm_num

/-- T223 with Q1 = G and Q2 = 2G. -/
def onG : State := points (.fin 47 71) (.fin 36 111)

theorem witness_PointCommandsComplete :
    onG.clocked = true ∧ onG.inRange (onG.point 1) = true ∧ onG.onCurve (onG.point 1) = true ∧
    onG.inRange (onG.point 2) = true ∧ onG.onCurve (onG.point 2) = true := by decide +kernel
theorem witness_PointCommandsComplete_identity :
    onG.inRange (onG.point 7) = true ∧ onG.onCurve (onG.point 7) = true ∧ onG.point 7 = .inf := by decide +kernel
theorem witness_CurveErrors_unlocked : State.reset.clocked = false := by decide
theorem witness_CurveErrors_range :
    (points (.fin 47 223) .inf).clocked = true ∧
    (points (.fin 47 223) .inf).inRange ((points (.fin 47 223) .inf).point 1) = false := by decide +kernel
theorem witness_CurveErrors_off_curve :
    (points (.fin 47 72) .inf).clocked = true ∧
    (points (.fin 47 72) .inf).inRange ((points (.fin 47 72) .inf).point 1) = true ∧
    (points (.fin 47 72) .inf).inRange ((points (.fin 47 72) .inf).point 2) = true ∧
    (points (.fin 47 72) .inf).onCurve ((points (.fin 47 72) .inf).point 1) = false := by decide +kernel
theorem witness_EcchkSetsOnc :
    onG.clocked = true ∧ onG.point 7 = .inf ∧ onG.point 1 = .fin 47 71 ∧ 47 < onG.p ∧ 71 < onG.p := by
  decide +kernel
/-- With `witness_PointCommandsComplete`: for EcaddCommutes and PointResultsStayOnTheCurve. -/
theorem witness_prime_field : Nat.Prime onG.p ∧ onG.p ≠ 2 := ⟨prime_223, by decide⟩

theorem witness_PointResultsStayOnTheCurve_generator :
    (hostTurn .engine).Inv ∧ (hostTurn .engine).clocked = true ∧ Nat.Prime (hostTurn .engine).p ∧
    (hostTurn .engine).p ≠ 2 := ⟨witness_hostTurn_inv _, rfl, prime_223, by decide⟩

/-- G is a nonsingular point of the curve of T223. -/
theorem nonsingular_G :
    letI : Fact (Nat.Prime 223) := ⟨by norm_num⟩
    (shortCurve 223 0 7).toAffine.Nonsingular ((47 : Nat) : ZMod 223) ((71 : Nat) : ZMod 223) := by
  rw [WeierstrassCurve.Affine.nonsingular_iff, WeierstrassCurve.Affine.equation_iff]
  decide

/-- The identity and G as points of the group, with N = 21 and BITSIZE = 8: for PointAddIsTheGroupLaw and
ScalarMulIsTheGroupMultiple. -/
theorem witness_PointAddIsTheGroupLaw :
    letI : Fact (Nat.Prime 223) := ⟨by norm_num⟩
    (223 : Nat) ≠ 2 ∧
    (∃ U : (shortCurve 223 0 7).toAffine.Point, Represents 223 0 7 .inf U) ∧
    (∃ U : (shortCurve 223 0 7).toAffine.Point, Represents 223 0 7 (.fin 47 71) U) ∧
    1 ≤ 21 ∧ 21 ≤ 2 ^ 8 :=
  ⟨by decide, ⟨_, rfl⟩, ⟨_, by decide, by decide, nonsingular_G, rfl⟩, by decide, by decide⟩

theorem witness_ScalarCornerCases : 1 ≤ 21 ∧ 21 ∣ 42 ∧ 2 ≤ 21 ∧ 1 ≤ 8 := by decide
theorem witness_NoCurveCommandDividesByZero :
    ∃ t, (Instr.ecadd 0 1 2).mnemonic ∈ ["ECADD", "ECDBL", "ECMUL", "ECMULG", "ECCHK"] ∧
      State.reset.err = false ∧ exec (.ecadd 0 1 2) State.reset = .next t ∧ t.err = true :=
  ⟨ran (.ecadd 0 1 2) State.reset, by decide, rfl, rfl, by decide +kernel⟩
theorem witness_NoCurveCommandDividesByZero_divisors :
    0 < 223 ∧ 222 < 223 ∧ 0 ≠ 222 ∧ 223 % 2 = 1 ∧ 1 ≤ 222 := by decide

theorem witness_Tobytes :
    elements.mem.wf ∧ (0#8).toNat ≤ elements.params.bufBytes ∧ elements.x 14 < 256 ^ (0#8).toNat ∧
    (64#8).toNat ≤ elements.params.bufBytes ∧ elements.x 1 < 256 ^ (64#8).toNat := by decide +kernel
theorem witness_Tobytes_errors :
    elements.params.bufBytes < (65#8).toNat ∧ (0#8).toNat ≤ elements.params.bufBytes ∧
    256 ^ (0#8).toNat ≤ elements.x 2 := by decide +kernel

/-- The value of BUF as FROMBYTES sums it, little-endian. -/
def bufferValue (s : State) : Nat :=
  ((List.range s.blen.toNat).map (fun j => (s.mem.read (bufBase + j)).toNat * 256 ^ j)).sum

/-- BUF full of a byte. -/
def filled (v : Byte) : State := buffered (List.replicate 64 v) State.reset

theorem witness_Frombytes :
    (filled 0#8).blen.toNat ≤ (filled 0#8).params.bufBytes ∧ bufferValue (filled 0#8) < 2 ^ (filled 0#8).params.w := by
  decide +kernel
theorem witness_Frombytes_bound :
    ∃ s : State, s.params.bufBytes < s.blen.toNat := ⟨buffered (List.replicate 65 0#8) State.reset, by decide +kernel⟩
/-- The least value that W bits do not hold. -/
theorem witness_Frombytes_overflow :
    ∃ s : State, s.blen.toNat ≤ s.params.bufBytes ∧ 2 ^ s.params.w = bufferValue s :=
  ⟨buffered (List.replicate 32 0#8 ++ [1#8]) State.reset, by decide +kernel⟩

/-- A full BUF of zero bytes after reset, B58N its length. -/
def fullBuffer : State := { State.reset with blen := 64#8, b58n := 64#8 }

theorem witness_fullBuffer_inv : fullBuffer.Inv where
  parameters := by decide +kernel
  fieldWidth := by decide +kernel
  configWidth := fun r => by cases r <;> decide +kernel
  fieldLock := by decide +kernel
  curveLock := by decide +kernel
  running := by decide +kernel
  ended := by decide +kernel
  doneClean := by decide +kernel
  errCoded := by decide +kernel
  codeListed := .inl rfl
  errorAtPc := by decide +kernel
  memoryForm := by decide +kernel
  memoryPlace := by decide +kernel

theorem witness_CodecRoundTrip :
    fullBuffer.Inv ∧ (64#8).toNat ≤ fullBuffer.params.bufBytes ∧ fullBuffer.x 0 < 256 ^ (64#8).toNat ∧
    fullBuffer.blen.toNat ≤ fullBuffer.params.bufBytes ∧
    fromBytes (fullBuffer.bufBytes fullBuffer.blen.toNat) .big < 2 ^ fullBuffer.params.w :=
  ⟨witness_fullBuffer_inv, by decide +kernel⟩
theorem witness_ByteLength : 255 < 256 ^ 1 ∧ 256 < 256 ^ 2 := by decide

theorem witness_B58enc :
    (filled 255#8).params.allowed = true ∧ (filled 255#8).mem.wf ∧
    (filled 255#8).blen.toNat ≤ (filled 255#8).params.bufBytes := by decide +kernel
theorem witness_B58enc_bound :
    ∃ s : State, s.params.allowed = true ∧ s.mem.wf ∧ s.params.bufBytes < s.blen.toNat :=
  ⟨buffered (List.replicate 65 255#8) State.reset, by decide +kernel⟩
theorem witness_Base58RoundTrip :
    fullBuffer.Inv ∧ fullBuffer.blen.toNat ≤ fullBuffer.params.bufBytes ∧ fullBuffer.b58n = fullBuffer.blen :=
  ⟨witness_fullBuffer_inv, by decide +kernel⟩
theorem witness_UnrecognisedCharacter : (0x30#8 : Byte) ∉ alphabet := by decide

/-- A string of k symbols with a given value below 58^k. -/
def base58String : Nat → Nat → List Byte
  | 0, _ => []
  | k + 1, v => base58String k (v / 58) ++ [symbolOf (v % 58)]

theorem length_base58String (k v : Nat) : (base58String k v).length = k := by
  induction k generalizing v with
  | zero => rfl
  | succ k ih => simp [base58String, ih]

theorem digitOf_symbolOf : ∀ d < 58, digitOf (symbolOf d) = some d ∧ symbolOf d ∈ alphabet := by decide

theorem base58Value_base58String {k v : Nat} (h : v < 58 ^ k) : base58Value (base58String k v) = v := by
  induction k generalizing v with
  | zero => simp at h; subst h; rfl
  | succ k ih =>
    have h2 : v / 58 < 58 ^ k := Nat.div_lt_of_lt_mul (by rw [pow_succ] at h; omega)
    have h3 := ih h2
    unfold base58Value at h3 ⊢
    rw [base58String, List.foldl_append, h3]
    simp only [List.foldl_cons, List.foldl_nil, (digitOf_symbolOf _ (Nat.mod_lt v (by decide))).1, Option.getD_some]
    omega

theorem base58String_in_alphabet {k v : Nat} : ∀ c ∈ base58String k v, c ∈ alphabet := by
  induction k generalizing v with
  | zero => simp [base58String]
  | succ k ih =>
    intro c hc
    rcases List.mem_append.mp hc with h | h
    · exact ih c h
    · rw [List.mem_singleton.mp h]
      exact (digitOf_symbolOf _ (Nat.mod_lt v (by decide))).2

theorem intBe_zeros (z : Nat) (l : List Byte) : intBe (List.replicate z 0#8 ++ l) = intBe l := by
  induction z with
  | zero => rfl
  | succ z ih => rw [List.replicate_succ]; exact ih

theorem intBe_four (d : List Byte) (h : d.length = 4) : intBe d < 58 ^ 6 := by
  obtain ⟨a, b, c, e, rfl⟩ : ∃ a b c e, d = [a, b, c, e] := by
    match d, h with
    | [a, b, c, e], _ => exact ⟨a, b, c, e, rfl⟩
  have ha := a.isLt
  have hb := b.isLt
  have hc := c.isLt
  have he := e.isLt
  simp only [intBe, List.foldl_cons, List.foldl_nil]
  omega

/-- STR holds the six symbols of a value, STRICT58 = 1, and B58N is given. -/
def decodable (n : BitVec 8) (v : Nat) : State :=
  { stringed (base58String 6 v) State.reset with b58n := n, strict58 := true }

theorem str_decodable (n : BitVec 8) (v : Nat) :
    (decodable n v).mem.readBytes strBase (decodable n v).slen.toNat = base58String 6 v := by
  have h := Memory.readBytes_writeBytes Memory.wf_nil strBase (base58String 6 v)
  rw [length_base58String] at h
  have hs : (decodable n v).slen.toNat = 6 := by
    show (BitVec.ofNat 8 (base58String 6 v).length).toNat = 6
    rw [length_base58String]; rfl
  rw [hs]
  exact h

/-- The string of `z` zero bytes and the checksum that DSHA256 gives them. -/
def checked (z : Nat) : List Byte :=
  List.replicate z 0#8 ++ (Config.dsha256 (List.replicate z 0#8)).toList.take 4

theorem witness_B58decCompletes (n : BitVec 8) (hn : n = 0#8 ∨ n = 64#8) :
    let s := decodable n (intBe (checked (n.toNat + 1)))
    let full := checked (n.toNat + 1)
    let str := s.mem.readBytes strBase s.slen.toNat
    s.mem.wf ∧ s.slen.toNat ≤ s.params.strBytes ∧ s.b58n.toNat ≤ s.params.bufBytes ∧
    (s.strict58 = true → ∀ c ∈ str, c ∈ alphabet) ∧
    full.length = s.b58n.toNat + 5 ∧ intBe full = base58Value str ∧
    (Config.dsha256 (full.take (s.b58n.toNat + 1))).toList.take 4 = full.drop (s.b58n.toNat + 1) := by
  intro s full str
  have h4 : ((Config.dsha256 (List.replicate (n.toNat + 1) 0#8)).toList.take 4).length = 4 := by simp
  have hstr : str = base58String 6 (intBe full) := str_decodable n _
  have hb : s.b58n = n := rfl
  refine ⟨Memory.wf_writeBytes Memory.wf_nil _ _, ?_, ?_, ?_, ?_, ?_, ?_⟩
  · show (BitVec.ofNat 8 (base58String 6 _).length).toNat ≤ Params.taken.strBytes
    rw [length_base58String]; decide
  · rw [hb]; show n.toNat ≤ Params.taken.bufBytes; rcases hn with rfl | rfl <;> decide
  · intro _; rw [hstr]; exact base58String_in_alphabet
  · rw [hb]; simp only [full, checked, List.length_append, List.length_replicate, h4]
  · rw [hstr, base58Value_base58String]
    rw [show intBe full = _ from intBe_zeros _ _]
    exact intBe_four _ h4
  · rw [hb]; simp [full, checked]

theorem witness_B58dec_bound :
    State.reset.params.strBytes < (stringed (List.replicate 129 0x31#8) State.reset).slen.toNat ∧
    State.reset.params.bufBytes < ({ State.reset with b58n := 65#8 } : State).b58n.toNat := by decide +kernel
theorem witness_B58dec_strict :
    ∃ s : State, s.slen.toNat ≤ s.params.strBytes ∧ s.b58n.toNat ≤ s.params.bufBytes ∧ s.strict58 = true ∧
      ∃ c ∈ s.mem.readBytes strBase s.slen.toNat, c ∉ alphabet :=
  ⟨{ stringed [0x30#8] State.reset with strict58 := true }, by decide +kernel, by decide +kernel, rfl, 0x30#8,
    by decide +kernel⟩
/-- The least value that does not fit 5 bytes. -/
theorem witness_B58dec_overflow :
    ∃ s : State, s.slen.toNat ≤ s.params.strBytes ∧ s.b58n.toNat ≤ s.params.bufBytes ∧ s.strict58 = false ∧
      256 ^ (s.b58n.toNat + 5) = base58Value (s.mem.readBytes strBase s.slen.toNat) :=
  ⟨{ stringed (base58String 128 (256 ^ 5)) State.reset with b58n := 0#8 }, by decide +kernel⟩
/-- Of the values 0 and 1 of five bytes at least one has another checksum than DSHA256 gives. -/
theorem witness_B58dec_mismatch :
    ∃ (s : State) (full : List Byte),
      s.slen.toNat ≤ s.params.strBytes ∧ s.b58n.toNat ≤ s.params.bufBytes ∧ s.strict58 = false ∧
      full.length = s.b58n.toNat + 5 ∧ intBe full = base58Value (s.mem.readBytes strBase s.slen.toNat) ∧
      (Config.dsha256 (full.take (s.b58n.toNat + 1))).toList.take 4 ≠ full.drop (s.b58n.toNat + 1) := by
  by_cases h : (Config.dsha256 [0#8]).toList.take 4 = [0#8, 0#8, 0#8, 0#8]
  · refine ⟨{ stringed [0x32#8] State.reset with b58n := 0#8 }, [0#8, 0#8, 0#8, 0#8, 1#8], by decide +kernel,
      by decide, rfl, rfl, by decide +kernel, ?_⟩
    show (Config.dsha256 [0#8]).toList.take 4 ≠ [0#8, 0#8, 0#8, 1#8]
    rw [h]; decide
  · exact ⟨{ stringed [0x31#8] State.reset with b58n := 0#8 }, [0#8, 0#8, 0#8, 0#8, 0#8], by decide +kernel,
      by decide, rfl, rfl, by decide +kernel, h⟩

theorem witness_ErrorsArePrecise :
    ∃ t, t223.err = false ∧ exec (.finv 3 1) t223 = .next t ∧ t.err = true ∧ t.errcode ≠ 0x13#8 :=
  ⟨ran (.finv 3 1) t223, rfl, rfl, by decide +kernel⟩
theorem witness_CommandsKeepTheHostsState :
    ∃ t, elements.mem.wf ∧ exec (.tobytes 1 64#8 .big) elements = .next t := ⟨_, by decide +kernel, rfl⟩
theorem witness_OnlyNamedCommands_ptag :
    ∃ t, t223.params.allowed = true ∧ t223.mem.wf ∧ exec (.pfin 7) t223 = .next t ∧ t.ptag ≠ t223.ptag :=
  ⟨ran (.pfin 7) t223, by decide +kernel, by decide +kernel, rfl, by decide +kernel⟩
theorem witness_OnlyNamedCommands_onc :
    ∃ t, onG.params.allowed = true ∧ onG.mem.wf ∧ exec (.ecchk 1) onG = .next t ∧ t.onc ≠ onG.onc :=
  ⟨ran (.ecchk 1) onG, by decide +kernel, by decide +kernel, rfl, by decide +kernel⟩
theorem witness_OnlyNamedCommands_done :
    ∃ t, t223.params.allowed = true ∧ t223.mem.wf ∧ exec .halt t223 = .next t ∧ t.done ≠ t223.done :=
  ⟨ran .halt t223, by decide +kernel, by decide +kernel, rfl, by decide +kernel⟩
theorem witness_OnlyNamedCommands_buffer :
    ∃ t, elements.params.allowed = true ∧ elements.mem.wf ∧ exec (.tobytes 1 64#8 .big) elements = .next t ∧
      t.blen ≠ elements.blen ∧ 63 < elements.params.bufBytes ∧
      t.mem.read (bufBase + 63) ≠ elements.mem.read (bufBase + 63) :=
  ⟨ran (.tobytes 1 64#8 .big) elements, by decide +kernel, by decide +kernel, rfl, by decide +kernel⟩
theorem witness_OnlyNamedCommands_f :
    ∃ t, t223.params.allowed = true ∧ t223.mem.wf ∧ exec (.fldi 15 65535#16) t223 = .next t ∧ t.f ≠ t223.f :=
  ⟨ran (.fldi 15 65535#16) t223, by decide +kernel, by decide +kernel, rfl, by decide +kernel⟩

theorem witness_StartWrite :
    (5#32).getLsbD 0 = true ∧ t223.busy = false ∧ nopRun.busy = true := by decide
theorem witness_RefusedAccess :
    RefusedAccess Params.taken 0x040 4 ∧ RefusedAccess Params.taken 0x002 4 ∧ RefusedAccess Params.taken 0x000 2 ∧
    RefusedAccess Params.taken 0xFFC 4 ∧ RefusedAccess Params.taken 0x840 4 := by
  unfold RefusedAccess; decide
/-- The ends of the window, and a read-only register (log 9). -/
theorem witness_BusyWrites :
    nopRun.busy = true ∧ nopRun.params = Params.taken ∧
    ¬ RefusedAccess Params.taken 0x000 4 ∧ ¬ RefusedAccess Params.taken 0x03C 4 ∧
    ¬ RefusedAccess Params.taken 0x83C 4 ∧ ¬ RefusedAccess Params.taken 0xCFC 4 ∧
    0x000 ≠ 0x00C ∧ 0x03C ≠ 0x00C ∧ 0xCFC ≠ 0x00C ∧ 0xCFC < 0x1000 := by
  unfold RefusedAccess; decide
theorem witness_Hosterr : t223.hosterr = false ∧ 0xFFC < 0x1000 ∧ t223.flocked = true ∧ t223.clocked = true := by decide
theorem witness_LockRequests :
    CurveLockCheck t223 true ∧ t223.busy = false ∧ ¬ CurveLockCheck { t223 with gy := 72 } true := by
  refine ⟨?_, rfl, ?_⟩ <;> (unfold CurveLockCheck; decide +kernel)
theorem witness_LockedConfiguration :
    7 < t223.params.w / 32 ∧ 7 < 16 ∧ t223.flocked = true ∧ t223.clocked = true := by decide
theorem witness_LocksAreReleasedOnlyByReset :
    ∃ t, step (hostTurn (.write 0x100 4 9#32)) = .next t ∧
      (∀ rest, (hostTurn (.write 0x100 4 9#32)).agenda ≠ .reset :: rest) ∧
      (hostTurn (.write 0x100 4 9#32)).flocked = true ∧ (hostTurn (.write 0x100 4 9#32)).clocked = true :=
  ⟨_, rfl, by simp [hostTurn], by decide⟩
theorem witness_IdleControlAccesses :
    State.reset.busy = false ∧ State.reset.clocked = false ∧ (30#32).getLsbD 0 = false := by decide
theorem witness_WideRegisters :
    State.reset.busy = false ∧ 15 < 16 ∧ State.reset.configLocked .p = false ∧ State.reset.configLocked .n = false := by
  decide
theorem witness_WideRegisters_locked :
    t223.busy = false ∧ t223.configLocked .p = true ∧ t223.configLocked .n = true ∧ t223.params.w / 32 ≤ 8 := by decide
theorem witness_BuffersAndCommands :
    State.reset.busy = false ∧ Memory.wf State.reset.mem ∧ 0x83C % 4 = 0 ∧
    (bufBase ≤ 0x83C ∧ 0x83C < bufBase + State.reset.params.bufBytes) ∧
    0x97C % 4 = 0 ∧ (strBase ≤ 0x97C ∧ 0x97C < strBase + State.reset.params.strBytes) ∧ 0xCFC % 4 = 0 ∧
    (cmdBase ≤ 0xCFC ∧ 0xCFC < cmdBase + 256) ∧ 0xCFC = cmdBase + 4 * (63#6).toNat := by decide
theorem witness_ReadsHaveNoSideEffects :
    ¬ RefusedAccess nopRun.params 0xCFC 4 ∧ nopRun.params.allowed = true ∧ nopRun.busy = true ∧ 0x030 % 4 = 0 := by
  unfold RefusedAccess; decide +kernel
theorem witness_ReadsHaveNoSideEffects_status : nopRun.Inv ∧ nopRun.busy = true := ⟨witness_nopRun_inv, by decide⟩

end Sys2Proof.Tests
end

section
/-! ## Byte lengths, powers and the results of the arithmetic

What R14 says of `bytelen` and `powmod`, and the range of every result of the field and the group law. -/

namespace Sys2Proof.Machine

/-- `k` bytes hold n exactly when `bytelen(n)` is at most k. -/
theorem lt_pow_iff_byteLen_le (n k : Nat) : n < 256 ^ k ↔ byteLen n ≤ k := by
  unfold byteLen
  split
  · subst n; simp
  · rename_i hn
    rw [show (256 : Nat) = 2 ^ 8 by rfl, ← Nat.pow_mul, ← Nat.log2_lt hn]
    omega

/-- The invariant of square-and-multiply: what is accumulated times what is left of the power. -/
theorem powmodLoop_eq (m : Nat) {k base e acc : Nat} (he : e < 2 ^ k) (hacc : acc % m = acc) :
    powmodLoop m k base e acc = acc * base ^ e % m := by
  induction k generalizing base e acc with
  | zero =>
    obtain rfl : e = 0 := by omega
    simp [powmodLoop, hacc]
  | succ k ih =>
    have hhalf : e / 2 < 2 ^ k := by omega
    have hsquare : (base * base % m) ^ (e / 2) ≡ base ^ (2 * (e / 2)) [MOD m] := by
      rw [pow_mul, pow_two]; exact (Nat.mod_modEq _ _).pow _
    rcases Nat.mod_two_eq_zero_or_one e with h | h
    · have hexp : 2 * (e / 2) = e := by omega
      rw [powmodLoop, if_neg (by omega), ih hhalf hacc]
      rw [hexp] at hsquare
      exact hsquare.mul_left acc
    · have hexp : base ^ e = base * base ^ (2 * (e / 2)) := by
        rw [← pow_succ', show 2 * (e / 2) + 1 = e by omega]
      rw [powmodLoop, if_pos h, ih hhalf (Nat.mod_mod _ _), hexp, ← mul_assoc]
      exact (Nat.mod_modEq _ _).mul hsquare

theorem powmod_eq (x e m : Nat) : powmod x e m = x ^ e % m := by
  rw [powmod, powmodLoop_eq m Nat.lt_log2_self (Nat.mod_mod 1 m)]
  simp

/-- Settles O39: the byte length by its comparison with the base-2 logarithm, the power by the invariant of
square-and-multiply. -/
theorem byteLengthAndPowerAreTheSpecs : Obligations.ByteLengthAndPowerAreTheSpecs :=
  ⟨fun n => ⟨(lt_pow_iff_byteLen_le n _).mpr le_rfl, fun k => (lt_pow_iff_byteLen_le n k).mp⟩, powmod_eq⟩

theorem addMod_lt {p : Nat} (hp : 0 < p) (a b : Nat) : addMod p a b < p := Nat.mod_lt _ hp

theorem mulMod_lt {p : Nat} (hp : 0 < p) (a b : Nat) : mulMod p a b < p := Nat.mod_lt _ hp

theorem subMod_lt {p : Nat} (hp : 0 < p) (a b : Nat) : subMod p a b < p := by
  have := Int.emod_nonneg ((a : Int) - b) (b := p) (by omega)
  have := Int.emod_lt_of_pos ((a : Int) - b) (b := p) (by omega)
  unfold subMod
  omega

theorem divMod_lt {p : Nat} (hp : 0 < p) (a b : Nat) : divMod p a b < p := mulMod_lt hp a _

theorem powmod_lt {m : Nat} (hm : 0 < m) (x e : Nat) : powmod x e m < m := by
  rw [powmod_eq]; exact Nat.mod_lt _ hm

/-- A fold of an operation with results below p, over operands below p, is below p. -/
theorem foldMod_lt {op : Nat → Nat → Nat} {p : Nat} (hp : 0 < p) (hop : ∀ a b, op a b < p) :
    ∀ {vs : List Nat}, (∀ v ∈ vs, v < p) → foldMod op vs < p
  | [], _ => hp
  | v :: vs, h => List.foldlRecOn vs op (motive := (· < p)) (h v (by simp)) fun a _ b _ => hop a b

/-- Both coordinates of a point value are below a bound; the identity has none. -/
def Point.Below (p : Nat) : Point → Prop
  | .inf => True
  | .fin x y => x < p ∧ y < p

/-- The range check of R180 is the bound at the field order. -/
theorem State.inRange_iff (s : State) (pt : Point) : s.inRange pt = true ↔ pt.Below s.p := by
  cases pt <;> simp [State.inRange, State.valid, Point.Below]

theorem chord_below {p : Nat} (hp : 0 < p) (m x1 y1 x2 : Nat) : (chord p m x1 y1 x2).Below p :=
  ⟨subMod_lt hp _ _, subMod_lt hp _ _⟩

/-- The group law keeps coordinates below the field order (R181). -/
theorem pointAdd_below {p a : Nat} (hp : 0 < p) {u v : Point} (hu : u.Below p) (hv : v.Below p) :
    (pointAdd p a u v).Below p := by
  cases u with
  | inf => cases v <;> exact hv
  | fin x1 y1 =>
    cases v with
    | inf => exact hu
    | fin x2 y2 =>
      simp only [pointAdd]
      split
      · exact chord_below hp _ _ _ _
      · split
        · trivial
        · exact chord_below hp _ _ _ _

theorem pointDouble_below {p a : Nat} (hp : 0 < p) {u : Point} (hu : u.Below p) : (pointDouble p a u).Below p :=
  pointAdd_below hp hu hu

theorem scalarLoop_below {p a : Nat} (hp : 0 < p) {c k : Nat} {r d : Point} (hr : r.Below p) (hd : d.Below p) :
    (scalarLoop p a c k r d).Below p := by
  induction c generalizing k r d with
  | zero => exact hr
  | succ c ih =>
    refine ih ?_ (pointDouble_below hp hd)
    split
    · exact pointAdd_below hp hr hd
    · exact hr

theorem scalarMul_below {p a n bits k : Nat} (hp : 0 < p) {u : Point} (hu : u.Below p) :
    (scalarMul p a n bits u k).Below p := by
  cases u with
  | inf => trivial
  | fin x y => exact scalarLoop_below hp trivial hu

/-! ## The length of a Base58Check string -/

theorem foldl_bytes_lt (bs : List Byte) (acc : Nat) :
    bs.foldl (fun a v => a * 256 + v.toNat) acc < (acc + 1) * 256 ^ bs.length := by
  induction bs generalizing acc with
  | nil => simp
  | cons v bs ih =>
    have hv : v.toNat < 256 := v.isLt
    calc (v :: bs).foldl (fun a v => a * 256 + v.toNat) acc
        < (acc * 256 + v.toNat + 1) * 256 ^ bs.length := ih _
      _ ≤ (acc + 1) * 256 * 256 ^ bs.length := Nat.mul_le_mul_right _ (by omega)
      _ = (acc + 1) * 256 ^ (v :: bs).length := by rw [List.length_cons, pow_succ']; ring

/-- The big-endian reading of k bytes is below 256^k. -/
theorem intBe_lt (bs : List Byte) : intBe bs < 256 ^ bs.length := by
  simpa [intBe] using foldl_bytes_lt bs 0

/-- A number below 58^m has at most m base 58 symbols. -/
theorem length_base58Digits_le {k n m : Nat} (h : n < 58 ^ m) : (base58Digits k n).length ≤ m := by
  induction k generalizing n m with
  | zero => exact Nat.zero_le m
  | succ k ih =>
    unfold base58Digits
    split
    · exact Nat.zero_le m
    · cases m with
      | zero => rw [pow_zero] at h; omega
      | succ m =>
        have hq : n / 58 < 58 ^ m := by rw [pow_succ] at h; omega
        exact Nat.succ_le_succ (ih hq)

/-- The symbols of a byte string fit wherever a power of 58 is no smaller than the string's power of 256 (R212): each
leading zero byte costs one symbol, and the rest as many as its value needs. -/
theorem length_base58Symbols_le {full : List Byte} {m : Nat} (h : 256 ^ full.length ≤ 58 ^ m) :
    (base58Symbols full).length ≤ m := by
  set z := (full.takeWhile (· == 0#8)).length with hz
  have hzl : z ≤ full.length := (List.takeWhile_prefix _).length_le
  have hpow : ∀ j, (58 : Nat) ^ j ≤ 256 ^ j := fun j => Nat.pow_le_pow_left (by norm_num) j
  have hm : full.length ≤ m := (Nat.pow_le_pow_iff_right (by norm_num)).mp ((hpow _).trans h)
  have hrest : 256 ^ (full.length - z) ≤ 58 ^ (m - z) := by
    refine Nat.le_of_mul_le_mul_right ?_ (show 0 < 58 ^ z by positivity)
    calc 256 ^ (full.length - z) * 58 ^ z
        ≤ 256 ^ (full.length - z) * 256 ^ z := Nat.mul_le_mul_left _ (hpow z)
      _ = 256 ^ full.length := by rw [← pow_add, Nat.sub_add_cancel hzl]
      _ ≤ 58 ^ m := h
      _ = 58 ^ (m - z) * 58 ^ z := by rw [← pow_add, Nat.sub_add_cancel (hzl.trans hm)]
  have hvalue : intBe (full.drop z) < 58 ^ (m - z) :=
    (List.length_drop ▸ intBe_lt (full.drop z)).trans_le hrest
  have hdigits := length_base58Digits_le (k := (intBe (full.drop z)).log2 + 1) hvalue
  simp only [base58Symbols, ← hz, List.length_append, List.length_replicate, List.length_reverse]
  omega

end Sys2Proof.Machine
end

section
/-! ## What a command may write

The effect of every command leaves the host's part of the state and the sequencer alone; its end writes only PC, the
status bits and the error record. -/

namespace Sys2Proof.Machine

/-- `u` is `s` but for the state that a command's effect may write: F0 to F15, PTAG, ONC, BUF and STR, BLEN, SLEN and
B58VER. -/
def EffectWrites (s u : State) : Prop :=
  u = { s with f := u.f, ptag := u.ptag, onc := u.onc, mem := u.mem,
               blen := u.blen, slen := u.slen, b58ver := u.b58ver }

theorem EffectWrites.setX (s : State) (i : FReg) (v : Elem) : EffectWrites s (s.setX i v) := rfl

theorem EffectWrites.setPoint (s : State) (q : PReg) (pt : Point) : EffectWrites s (s.setPoint q pt) := by
  cases pt <;> rfl

/-- Every command's effect, when it succeeds, writes engine-written state only. -/
theorem effectOf_writes {i : Instr} {s u : State} (h : effectOf i s = .ok u) : EffectWrites s u := by
  cases i with simp only [effectOf] at h
  | halt | nop => injection h with h; exact h ▸ rfl
  | fmov | fldi | pfin => injection h with h; exact h ▸ rfl
  | pinf => injection h with h; exact h ▸ .setPoint s _ _
  | fldc => split at h <;> cases h; rfl
  | fadd | fsub | fmul | fdiv => obtain ⟨_, _, _, _, rfl⟩ := fieldBinary_ok h; rfl
  | finv => obtain ⟨_, _, _, rfl⟩ := fieldInverse_ok h; rfl
  | fexp => obtain ⟨_, _, _, rfl⟩ := fieldPower_ok h; rfl
  | faddn | fsubn | fmuln => obtain ⟨_, _, _, _, rfl⟩ := fieldFold_ok h; rfl
  | ecadd | ecdbl | ecmul | ecmulg => obtain ⟨_, rfl⟩ := curveWrite_ok h; exact .setPoint s _ _
  | ecchk => obtain ⟨_, _, rfl⟩ := curveCheck_ok h; rfl
  | tobytes => obtain ⟨_, _, _, rfl⟩ := codecStore_ok h; rfl
  | frombytes => obtain ⟨_, _, rfl⟩ := codecLoad_ok h; rfl
  | b58enc => obtain ⟨_, _, _, rfl⟩ := base58Encode_ok h; rfl
  | b58dec =>
    obtain ⟨_, _, _, _, _, h⟩ := base58Decode_ok h
    obtain ⟨_, rfl⟩ := base58Accept_ok h
    rfl

/-- What a command can do: HALT ends the run, an error stops it with nothing else written, and otherwise the effect is
followed by the advance. -/
theorem exec_cases {i : Instr} {s t : State} (h : exec i s = .next t) :
    (i = .halt ∧ t = s.stopDone) ∨ (∃ e, effectOf i s = .error e ∧ t = s.stopError e) ∨
    (∃ u, effectOf i s = .ok u ∧ t = u.advance) := by
  by_cases hi : i = .halt
  · subst hi; injection h with h; exact .inl ⟨rfl, h.symm⟩
  · rw [exec_eq_retire hi] at h
    exact .inr (retire_cases h)

/-! ## Locks are one way -/

/-- No held lock is released, and no register that a held lock makes read-only changes (10_state.md R33). -/
def KeepsLocks (s t : State) : Prop :=
  (s.flocked = true → t.flocked = true ∧ t.p = s.p) ∧
  (s.clocked = true → t.clocked = true ∧ t.a = s.a ∧ t.b = s.b ∧ t.gx = s.gx ∧ t.gy = s.gy ∧ t.n = s.n ∧
    t.bitsize = s.bitsize)

/-- A change that leaves the locks and the configuration registers alone. -/
theorem KeepsLocks.of_same {s t : State} (hf : t.flocked = s.flocked) (hc : t.clocked = s.clocked)
    (hr : ∀ r, t.config r = s.config r) (hb : t.bitsize = s.bitsize) : KeepsLocks s t :=
  ⟨fun h => ⟨hf.trans h, hr .p⟩, fun h => ⟨hc.trans h, hr .a, hr .b, hr .gx, hr .gy, hr .n, hb⟩⟩

theorem KeepsLocks.trans {s t u : State} (hst : KeepsLocks s t) (htu : KeepsLocks t u) : KeepsLocks s u := by
  refine ⟨fun h => ?_, fun h => ?_⟩
  · obtain ⟨hf, hp⟩ := hst.1 h
    obtain ⟨hf', hp'⟩ := htu.1 hf
    exact ⟨hf', hp'.trans hp⟩
  · obtain ⟨hc, ha, hb, hgx, hgy, hn, hz⟩ := hst.2 h
    obtain ⟨hc', ha', hb', hgx', hgy', hn', hz'⟩ := htu.2 hc
    exact ⟨hc', ha'.trans ha, hb'.trans hb, hgx'.trans hgx, hgy'.trans hgy, hn'.trans hn, hz'.trans hz⟩

theorem KeepsLocks.refl (s : State) : KeepsLocks s s := .of_same rfl rfl (fun _ => rfl) rfl

theorem KeepsLocks.stopError (s : State) (e : ErrKind) : KeepsLocks s (s.stopError e) :=
  .of_same rfl rfl (fun _ => rfl) rfl

theorem KeepsLocks.advance (s : State) : KeepsLocks s s.advance := by
  rcases s.advance_cases with ⟨_, h⟩ | ⟨_, h⟩ <;> rw [h] <;> exact .of_same rfl rfl (fun _ => rfl) rfl

theorem KeepsLocks.of_effectWrites {s u : State} (h : EffectWrites s u) : KeepsLocks s u := by
  rw [h]; exact .of_same rfl rfl (fun _ => rfl) rfl

theorem exec_keepsLocks {i : Instr} {s t : State} (h : exec i s = .next t) : KeepsLocks s t := by
  rcases exec_cases h with ⟨_, rfl⟩ | ⟨e, _, rfl⟩ | ⟨u, hu, rfl⟩
  · exact .of_same rfl rfl (fun _ => rfl) rfl
  · exact .stopError s e
  · exact (KeepsLocks.of_effectWrites (effectOf_writes hu)).trans (.advance u)

/-- A granted or refused field-lock request changes no configuration register. -/
theorem KeepsLocks.requestFieldLock (s : State) : KeepsLocks s s.requestFieldLock := by
  unfold State.requestFieldLock
  split
  · exact .refl s
  · split
    · exact ⟨fun _ => ⟨rfl, rfl⟩, fun h => ⟨h, rfl, rfl, rfl, rfl, rfl, rfl⟩⟩
    · exact .of_same rfl rfl (fun _ => rfl) rfl

/-- A granted or refused curve-lock request changes no configuration register. -/
theorem KeepsLocks.requestCurveLock (s : State) : KeepsLocks s s.requestCurveLock := by
  unfold State.requestCurveLock
  split
  · exact .refl s
  · split
    · exact ⟨fun h => ⟨h, rfl⟩, fun _ => ⟨rfl, rfl, rfl, rfl, rfl, rfl, rfl⟩⟩
    · exact .of_same rfl rfl (fun _ => rfl) rfl

/-- What a write to CFG can do: none, one or both of the requests, the field request first (10_state.md R30). -/
theorem State.requestLocks_cases (s : State) (v : Word32) :
    s.requestLocks v = s ∨ s.requestLocks v = s.requestFieldLock ∨ s.requestLocks v = s.requestCurveLock ∨
    s.requestLocks v = s.requestFieldLock.requestCurveLock := by
  unfold State.requestLocks
  cases v.getLsbD 0 <;> cases v.getLsbD 1 <;> simp

theorem KeepsLocks.requestLocks (s : State) (v : Word32) : KeepsLocks s (s.requestLocks v) := by
  rcases s.requestLocks_cases v with h | h | h | h <;> rw [h]
  · exact .refl s
  · exact .requestFieldLock s
  · exact .requestCurveLock s
  · exact (KeepsLocks.requestFieldLock s).trans (.requestCurveLock _)

/-- A configuration register whose lock is not held may be written. -/
theorem KeepsLocks.setConfig {s : State} {r : ConfigReg} (h : s.configLocked r ≠ true) (v : Elem) :
    KeepsLocks s (s.setConfig r v) := by
  cases r with
  | p => exact ⟨fun hf => absurd hf h, fun hc => ⟨hc, rfl, rfl, rfl, rfl, rfl, rfl⟩⟩
  | a | b | gx | gy | n => exact ⟨fun hf => ⟨hf, rfl⟩, fun hc => absurd hc h⟩

theorem KeepsLocks.dropWrite (s : State) : KeepsLocks s s.dropWrite := .of_same rfl rfl (fun _ => rfl) rfl

theorem KeepsLocks.storeAt (s : State) (o : Nat) (pl : Place) (v : Word32) : KeepsLocks s (s.storeAt o pl v) := by
  cases pl with simp only [State.storeAt]
  | cfg => exact .requestLocks s v
  | bitsize =>
    split
    · exact .dropWrite s
    · exact ⟨fun hf => ⟨hf, rfl⟩, fun hc => by contradiction⟩
  | config r j =>
    split
    · exact .refl s
    · split
      · exact .dropWrite s
      · exact .setConfig ‹_› _
  | ctrl => split <;> exact .of_same rfl rfl (fun _ => rfl) rfl
  | _ => exact .of_same rfl rfl (fun _ => rfl) rfl

theorem KeepsLocks.hostRead (s : State) (o width : Nat) : KeepsLocks s (s.hostRead o width) := by
  rcases s.hostRead_cases o width with ⟨_, h⟩ | ⟨pl, _, ⟨h, _⟩ | ⟨h, _⟩⟩ <;> rw [h] <;>
    exact .of_same rfl rfl (fun _ => rfl) rfl

theorem KeepsLocks.hostWrite (s : State) (o width : Nat) (v : Word32) : KeepsLocks s (s.hostWrite o width v) := by
  rcases s.hostWrite_cases o width v with ⟨_, h⟩ | ⟨pl, _, ⟨_, _, h⟩ | ⟨_, h⟩⟩ <;> rw [h]
  · exact .of_same rfl rfl (fun _ => rfl) rfl
  · exact .of_same rfl rfl (fun _ => rfl) rfl
  · exact (KeepsLocks.storeAt s o pl v).trans (.of_same rfl rfl (fun _ => rfl) rfl)

theorem engineStep_keepsLocks {s t : State} (h : engineStep s = .next t) : KeepsLocks s t := by
  rcases engineStep_cases h with ⟨_, rfl⟩ | ⟨_, _, rfl⟩ | ⟨_, i, _, h⟩
  · exact .refl t
  · exact .stopError s _
  · exact exec_keepsLocks h

/-- Only a reset turn can release a lock or change a register that a lock holds (10_state.md R33). -/
theorem step_keepsLocks {s t : State} (h : step s = .next t) (hr : ∀ rest, s.agenda ≠ .reset :: rest) :
    KeepsLocks s t := by
  have hagenda : ∀ rest, KeepsLocks s { s with agenda := rest } := fun _ => .of_same rfl rfl (fun _ => rfl) rfl
  rcases step_cases h with ⟨_, h⟩ | ⟨rest, ⟨_, h⟩ | ⟨o, w, _, _, rfl⟩ | ⟨o, w, v, _, _, rfl⟩ | ⟨ha, _⟩⟩
  · exact engineStep_keepsLocks h
  · exact (hagenda rest).trans (engineStep_keepsLocks h)
  · exact (hagenda rest).trans (.hostRead _ o w)
  · exact (hagenda rest).trans (.hostWrite _ o w v)
  · exact absurd ha (hr rest)

theorem exec_params {i : Instr} {s t : State} (h : exec i s = .next t) : t.params = s.params := by
  rcases exec_cases h with ⟨_, rfl⟩ | ⟨e, _, rfl⟩ | ⟨u, hu, rfl⟩
  · rfl
  · rfl
  · rw [State.advance_params, effectOf_writes hu]

theorem engineStep_params {s t : State} (h : engineStep s = .next t) : t.params = s.params := by
  rcases engineStep_cases h with ⟨_, rfl⟩ | ⟨_, _, rfl⟩ | ⟨_, i, _, h⟩
  · rfl
  · rfl
  · exact exec_params h

/-- No step, not even a reset, changes the parameters (00_scope.md R6). -/
theorem step_params {s t : State} (h : step s = .next t) : t.params = s.params := by
  rcases step_cases h with ⟨_, h⟩ | ⟨rest, ⟨_, h⟩ | ⟨o, w, _, _, rfl⟩ | ⟨o, w, v, _, _, rfl⟩ | ⟨_, rfl⟩⟩
  · exact engineStep_params h
  · exact (engineStep_params h).trans rfl
  · simp
  · simp
  · simp

/-- Settles O55: `step_params` for the parameters and, turn by turn, `step_keepsLocks` for the locks. -/
theorem locksAreReleasedOnlyByReset : Obligations.LocksAreReleasedOnlyByReset :=
  fun _ _ h => ⟨step_params h, step_keepsLocks h⟩

end Sys2Proof.Machine
end

section
/-! ## The invariant

One lemma per named update that says when it keeps `State.Inv`; the effects of the commands, the host's writes and the
step are put together from them. -/

namespace Sys2Proof

/-- The allowed parameter values of R6, condition by condition. -/
theorem Params.allowed_iff (c : Params) : c.allowed = true ↔
    c.w % 32 = 0 ∧ 64 ≤ c.w ∧ c.w ≤ 512 ∧ 5 ≤ c.bufBytes ∧ c.bufBytes ≤ 255 ∧ c.bufBytes % 4 = 0 ∧
    256 ^ (c.bufBytes + 5) ≤ 58 ^ c.strBytes ∧ c.strBytes % 4 = 0 ∧ c.strBytes ≤ 255 := by
  simp [Params.allowed, and_assoc]

namespace Machine

/-- The three regions of the byte memory. -/
theorem memoryOffset_iff (c : Params) (o : Nat) : memoryOffset c o = true ↔
    (bufBase ≤ o ∧ o < bufBase + c.bufBytes) ∨ (strBase ≤ o ∧ o < strBase + c.strBytes) ∨
    (cmdBase ≤ o ∧ o < cmdBase + 0x100) := by
  simp [memoryOffset, or_assoc]

/-! ### Reset -/

theorem State.resetOf_inv {c : Params} (hc : c.allowed = true) : (State.resetOf c).Inv where
  parameters := hc
  fieldWidth := by simp [State.x, State.resetOf]
  configWidth := by intro r; cases r <;> simp [State.config, State.resetOf]
  fieldLock := by simp [State.resetOf]
  curveLock := by simp [State.resetOf]
  running := by simp [State.resetOf]
  ended := by simp [State.resetOf]
  doneClean := by simp [State.resetOf]
  errCoded := by simp [State.resetOf]
  codeListed := .inl rfl
  errorAtPc := fun h => absurd rfl h
  memoryForm := Memory.wf_nil
  memoryPlace := by simp [State.resetOf]

/-- Settles O2. -/
theorem resetMeetsTheInvariant : Obligations.ResetMeetsTheInvariant :=
  ⟨State.resetOf_inv (by decide), fun _ => State.resetOf_inv⟩

/-! ### The updates of the engine -/

variable {s t u : State}

/-- A value of 16 bits fits every register (R6). -/
theorem State.Inv.lt_of_lt_16 (h : s.Inv) {v : Nat} (hv : v < 2 ^ 16) : v < 2 ^ s.params.w := by
  obtain ⟨_, hw, _⟩ := s.params.allowed_iff.mp h.parameters
  exact hv.trans_le (Nat.pow_le_pow_right (by norm_num) (by omega))

theorem State.Inv.setX (h : s.Inv) (i : FReg) {v : Elem} (hv : v < 2 ^ s.params.w) : (s.setX i v).Inv :=
  { h with
    fieldWidth := fun j => by
      rw [State.x_setX, State.setX_params]
      split
      · exact hv
      · exact h.fieldWidth j }

/-- A field element fits every register, since P does. -/
theorem State.Inv.setX_of_lt_p (h : s.Inv) (i : FReg) {v : Elem} (hv : v < s.p) : (s.setX i v).Inv :=
  h.setX i (hv.trans (h.configWidth .p))

theorem State.Inv.setTag (h : s.Inv) (q : PReg) (v : Bool) : (s.setTag q v).Inv := { h with }

theorem State.Inv.setOnc (h : s.Inv) (v : Bool) : (s.setOnc v).Inv := { h with }

theorem State.Inv.setPoint (h : s.Inv) (q : PReg) {pt : Point} (hpt : pt.Below s.p) : (s.setPoint q pt).Inv := by
  cases pt with
  | inf =>
    have h0 : 0 < 2 ^ s.params.w := Nat.two_pow_pos _
    exact ((h.setX _ h0).setX _ h0).setTag q true
  | fin x y =>
    obtain ⟨hx, hy⟩ := hpt
    exact ((h.setX_of_lt_p _ hx).setX_of_lt_p _ hy).setTag q false

/-- A byte string written inside BUF, STR or CMDMEM. -/
theorem State.Inv.writeBytes (h : s.Inv) {o : Nat} {r : List Byte}
    (hr : ∀ k, o ≤ k → k < o + r.length → memoryOffset s.params k = true) :
    State.Inv { s with mem := s.mem.writeBytes o r } :=
  { h with
    memoryForm := Memory.wf_writeBytes h.memoryForm o r
    memoryPlace := fun c hc => by
      rcases Memory.mem_writeBytes hc with ⟨hlo, hhi⟩ | hc
      · exact hr c.1 hlo hhi
      · exact h.memoryPlace c hc }

theorem State.Inv.writeBuf (h : s.Inv) {r : List Byte} (hr : r.length ≤ s.params.bufBytes) : (s.writeBuf r).Inv :=
  h.writeBytes fun k hlo hhi => (memoryOffset_iff s.params k).mpr (.inl ⟨hlo, by omega⟩)

theorem State.Inv.writeStr (h : s.Inv) {r : List Byte} (hr : r.length ≤ s.params.strBytes) : (s.writeStr r).Inv :=
  h.writeBytes fun k hlo hhi => (memoryOffset_iff s.params k).mpr (.inr (.inl ⟨hlo, by omega⟩))

/-! ### The sequencer's part, during a run -/

theorem State.Inv.stopError (h : s.Inv) (hb : s.busy = true) (e : ErrKind) : (s.stopError e).Inv := by
  obtain ⟨hd, -⟩ := h.running hb
  have hcode : e.code ≠ 0#8 := by cases e <;> decide
  exact { h with
    running := fun hb' => absurd hb' (by simp)
    ended := by simp [hd]
    doneClean := by simp [hd]
    errCoded := fun _ => hcode
    codeListed := .inr ⟨e, rfl⟩
    errorAtPc := fun _ => rfl }

theorem State.Inv.stopDone (h : s.Inv) (hb : s.busy = true) : s.stopDone.Inv := by
  obtain ⟨-, he, hcode, -⟩ := h.running hb
  exact { h with
    running := fun hb' => absurd hb' (by simp)
    ended := by simp [he]
    doneClean := fun _ => hcode }

theorem State.Inv.advance (h : s.Inv) (hb : s.busy = true) : s.advance.Inv := by
  rcases s.advance_cases with ⟨_, ha⟩ | ⟨_, ha⟩ <;> rw [ha]
  · exact h.stopError hb _
  · obtain ⟨-, -, hcode, -⟩ := h.running hb
    exact { h with errorAtPc := fun hne => absurd hcode hne }

/-! ### The effects of the commands -/

/-- A curve lock is held only with the field lock, and a field lock only with P at least 3 (R31, R32). -/
theorem State.Inv.p_pos_of_flocked (h : s.Inv) (hf : s.flocked = true) : 0 < s.p := by
  have hpass := h.fieldLock hf
  simp only [State.fieldLockPasses, Bool.and_eq_true, decide_eq_true_eq] at hpass
  obtain ⟨_, hp⟩ := hpass
  exact Nat.zero_lt_of_lt hp

theorem State.Inv.flocked_of_clocked (h : s.Inv) (hc : s.clocked = true) : s.flocked = true := by
  have := h.curveLock hc
  simp only [State.curveLockPasses, Bool.and_eq_true] at this
  tauto

/-- The generator of a locked curve is a pair of field elements (R32). -/
theorem State.Inv.generator_below (h : s.Inv) (hc : s.clocked = true) : (Point.fin s.gx s.gy).Below s.p := by
  have := h.curveLock hc
  simp only [State.curveLockPasses, State.valid, Bool.and_eq_true, decide_eq_true_eq] at this
  exact ⟨by tauto, by tauto⟩

theorem State.Inv.selValue_lt (h : s.Inv) (sel : Sel) : s.selValue sel < 2 ^ s.params.w := by
  cases sel with
  | p => exact h.configWidth .p
  | pm1 | pm2 => exact (Nat.sub_le _ _).trans_lt (h.configWidth .p)
  | a => exact h.configWidth .a
  | b => exact h.configWidth .b
  | gx => exact h.configWidth .gx
  | gy => exact h.configWidth .gy
  | n => exact h.configWidth .n
  | bitsize => exact h.lt_of_lt_16 s.bitsize.isLt

theorem fieldBinary_inv {rd rs1 rs2 : FReg} {own : Nat → Nat → Option ErrKind} {op : Nat → Nat → Nat} (h : s.Inv)
    (hop : 0 < s.p → ∀ a b, op a b < s.p) (hu : fieldBinary rd rs1 rs2 own op s = .ok u) : u.Inv := by
  obtain ⟨_, hx, _, _, rfl⟩ := fieldBinary_ok hu
  exact h.setX_of_lt_p rd (hop (Nat.zero_lt_of_lt hx) _ _)

theorem fieldFold_inv {rd rs : FReg} {cnt : Count} {op : Nat → Nat → Nat} (h : s.Inv)
    (hop : 0 < s.p → ∀ a b, op a b < s.p) (hu : fieldFold rd rs cnt op s = .ok u) : u.Inv := by
  obtain ⟨_, hf, _, hv, rfl⟩ := fieldFold_ok hu
  have hp := h.p_pos_of_flocked hf
  exact h.setX_of_lt_p rd (foldMod_lt hp (hop hp) hv)

/-- FEXP, when it succeeds, writes a field element (R156). -/
theorem fieldPower_below {rd rs1 rs2 : FReg} {neg : Bool} (hu : fieldPower rd rs1 rs2 neg s = .ok u) :
    ∃ v < s.p, u = s.setX rd v := by
  obtain ⟨_, hx, _⟩ := fieldPower_ok hu
  have hp : 0 < s.p := Nat.zero_lt_of_lt hx
  unfold fieldPower at hu
  repeat' split at hu
  all_goals cases hu
  · exact ⟨0, hp, rfl⟩
  · exact ⟨_, powmod_lt hp _ _, rfl⟩

/-- A point command keeps the invariant when its result has coordinates below P once its operands have. -/
theorem curveWrite_inv {qd : PReg} {pts : List Point} {r : Point} (h : s.Inv)
    (hr : 0 < s.p → s.clocked = true → (∀ pt ∈ pts, pt.Below s.p) → r.Below s.p)
    (hu : curveWrite qd pts r s = .ok u) : u.Inv := by
  obtain ⟨hcheck, rfl⟩ := curveWrite_ok hu
  obtain ⟨hc, hrange, _⟩ := State.checkPoints_ok hcheck
  exact h.setPoint qd (hr (h.p_pos_of_flocked (h.flocked_of_clocked hc)) hc
    fun pt hpt => (s.inRange_iff pt).mp (hrange pt hpt))

theorem codecStore_inv {rs : FReg} {size : BitVec 8} {e : Endian} (h : s.Inv)
    (hu : codecStore rs size e s = .ok u) : u.Inv := by
  obtain ⟨hsize, r, hr, rfl⟩ := codecStore_ok hu
  exact { h.writeBuf ((length_toBytes hr).trans_le hsize) with }

/-- STR holds the symbols of every payload that BUF holds (00_scope.md R7, 44_base58.md R212). -/
theorem base58Encode_inv {hash : List Byte → Vector Byte 32} {ver : Byte} (h : s.Inv)
    (hu : base58Encode hash ver s = .ok u) : u.Inv := by
  obtain ⟨hlen, r, rfl, rfl⟩ := base58Encode_ok hu
  obtain ⟨_, _, _, _, _, _, hstr, _⟩ := s.params.allowed_iff.mp h.parameters
  have hfits : 256 ^ (base58Full hash ver (s.bufBytes s.blen.toNat)).length ≤ 58 ^ s.params.strBytes := by
    rw [length_base58Full, State.length_bufBytes]
    exact (Nat.pow_le_pow_right (by norm_num) (by omega)).trans hstr
  exact { h.writeStr (length_base58Symbols_le hfits) with }

theorem base58Decode_inv {hash : List Byte → Vector Byte 32} (h : s.Inv) (hu : base58Decode hash s = .ok u) :
    u.Inv := by
  obtain ⟨_, hn, _, full, hfull, hu⟩ := base58Decode_ok hu
  obtain ⟨_, rfl⟩ := base58Accept_ok hu
  have hlen := length_toBytes hfull
  have hpayload : ((full.take (full.length - 4)).drop 1).length ≤ s.params.bufBytes := by
    rw [List.length_drop, List.length_take]; omega
  exact { h.writeBuf hpayload with }

/-- Every command's effect, when it succeeds, keeps the invariant. -/
theorem effectOf_inv {i : Instr} (h : s.Inv) (hu : effectOf i s = .ok u) : u.Inv := by
  cases i with simp only [effectOf] at hu
  | halt | nop => injection hu with hu; exact hu ▸ h
  | fmov rd rs1 => injection hu with hu; exact hu ▸ h.setX rd (h.fieldWidth rs1)
  | fldi rd imm16 => injection hu with hu; exact hu ▸ h.setX rd (h.lt_of_lt_16 imm16.isLt)
  | fldc rd sel =>
    split at hu
    · injection hu with hu; exact hu ▸ h.setX rd (h.selValue_lt sel)
    · cases hu
  | pinf qd => injection hu with hu; exact hu ▸ h.setPoint qd (pt := .inf) trivial
  | pfin qd => injection hu with hu; exact hu ▸ h.setTag qd false
  | fadd => exact fieldBinary_inv h addMod_lt hu
  | fsub => exact fieldBinary_inv h subMod_lt hu
  | fmul => exact fieldBinary_inv h mulMod_lt hu
  | fdiv => exact fieldBinary_inv h divMod_lt hu
  | finv rd =>
    obtain ⟨_, hx, _, rfl⟩ := fieldInverse_ok hu
    exact h.setX_of_lt_p rd (powmod_lt (Nat.zero_lt_of_lt hx) _ _)
  | fexp rd =>
    obtain ⟨v, hv, rfl⟩ := fieldPower_below hu
    exact h.setX_of_lt_p rd hv
  | faddn => exact fieldFold_inv h addMod_lt hu
  | fsubn => exact fieldFold_inv h subMod_lt hu
  | fmuln => exact fieldFold_inv h mulMod_lt hu
  | ecadd => exact curveWrite_inv h (fun hp _ ho => pointAdd_below hp (ho _ (by simp)) (ho _ (by simp))) hu
  | ecdbl => exact curveWrite_inv h (fun hp _ ho => pointDouble_below hp (ho _ (by simp))) hu
  | ecmul => exact curveWrite_inv h (fun hp _ ho => scalarMul_below hp (ho _ (by simp))) hu
  | ecmulg => exact curveWrite_inv h (fun hp hc _ => scalarMul_below hp (h.generator_below hc)) hu
  | ecchk qa =>
    obtain ⟨_, _, rfl⟩ := curveCheck_ok hu
    exact h.setOnc _
  | tobytes => exact codecStore_inv h hu
  | frombytes rd =>
    obtain ⟨_, hv, rfl⟩ := codecLoad_ok hu
    exact h.setX rd hv
  | b58enc => exact base58Encode_inv h hu
  | b58dec => exact base58Decode_inv h hu

theorem exec_inv {i : Instr} (h : s.Inv) (hb : s.busy = true) (ht : exec i s = .next t) : t.Inv := by
  rcases exec_cases ht with ⟨_, rfl⟩ | ⟨e, _, rfl⟩ | ⟨u, hu, rfl⟩
  · exact h.stopDone hb
  · exact h.stopError hb e
  · have hub : u.busy = true := by rw [effectOf_writes hu]; exact hb
    exact (effectOf_inv h hu).advance hub

theorem engineStep_inv (h : s.Inv) (ht : engineStep s = .next t) : t.Inv := by
  rcases engineStep_cases ht with ⟨_, rfl⟩ | ⟨hb, _, rfl⟩ | ⟨hb, i, _, ht⟩
  · exact h
  · exact h.stopError hb _
  · exact exec_inv h hb ht

/-! ### The updates of the host -/

theorem State.Inv.answer (h : s.Inv) (d : Word32) : (s.answer d).Inv := { h with }

theorem State.Inv.dropWrite (h : s.Inv) : s.dropWrite.Inv := { h with }

theorem State.Inv.refuseAccess (h : s.Inv) : s.refuseAccess.Inv := { h with }

theorem State.Inv.setCtrl (h : s.Inv) (v : Word32) : (s.setCtrl v).Inv := { h with }

/-- START clears the record of the last run (40_sequencer.md R120). -/
theorem State.Inv.start (h : s.Inv) : s.start.Inv :=
  { h with
    running := fun _ => ⟨rfl, rfl, rfl, rfl, rfl⟩
    ended := by simp
    doneClean := fun _ => rfl
    errCoded := by simp
    codeListed := .inl rfl
    errorAtPc := fun hne => absurd rfl hne }

theorem State.Inv.clearStatus (h : s.Inv) (v : Word32) : (s.clearStatus v).Inv :=
  { h with
    running := fun hb => by
      obtain ⟨hd, he, hrecord⟩ := h.running hb
      exact ⟨by simp [hd], by simp [he], hrecord⟩
    ended := fun ⟨hd, he⟩ => h.ended ⟨(Bool.and_eq_true_iff.mp hd).1, (Bool.and_eq_true_iff.mp he).1⟩
    doneClean := fun hd => h.doneClean (Bool.and_eq_true_iff.mp hd).1
    errCoded := fun he => h.errCoded (Bool.and_eq_true_iff.mp he).1 }

theorem State.Inv.requestFieldLock (h : s.Inv) : s.requestFieldLock.Inv := by
  unfold State.requestFieldLock
  split
  · exact h
  · rename_i hf
    have hc : s.clocked ≠ true := fun hc => hf (h.flocked_of_clocked hc)
    split
    · rename_i hpass
      exact { h with fieldLock := fun _ => hpass, curveLock := fun hc' => absurd hc' hc }
    · exact { h with }

theorem State.Inv.requestCurveLock (h : s.Inv) : s.requestCurveLock.Inv := by
  unfold State.requestCurveLock
  split
  · exact h
  · split
    · rename_i hpass
      exact { h with curveLock := fun _ => hpass }
    · exact { h with }

theorem State.Inv.requestLocks (h : s.Inv) (v : Word32) : (s.requestLocks v).Inv := by
  rcases s.requestLocks_cases v with e | e | e | e <;> rw [e]
  · exact h
  · exact h.requestFieldLock
  · exact h.requestCurveLock
  · exact h.requestFieldLock.requestCurveLock

/-- A written word of a slot stays within the register's W bits (20_memory.md R66). -/
theorem slotWrite_lt {c : Params} {v : Elem} (hc : c.allowed = true) (hv : v < 2 ^ c.w) (j : Nat) (w : Word32) :
    slotWrite c v j w < 2 ^ c.w := by
  unfold slotWrite
  split
  · rename_i hj
    obtain ⟨hmod, _⟩ := c.allowed_iff.mp hc
    have hword : 32 * j + 32 ≤ c.w := by unfold Params.slotWords at hj; omega
    have hhigh : (v >>> (32 * (j + 1))) <<< (32 * (j + 1)) < 2 ^ c.w := by
      rw [Nat.shiftRight_eq_div_pow, Nat.shiftLeft_eq]
      exact (Nat.div_mul_le_self _ _).trans_lt hv
    have hmid : w.toNat <<< (32 * j) < 2 ^ c.w := by
      have hshift : w.toNat <<< (32 * j) < 2 ^ (32 + 32 * j) := by
        rw [Nat.shiftLeft_eq, pow_add]
        exact Nat.mul_lt_mul_of_pos_right w.isLt (Nat.two_pow_pos _)
      exact hshift.trans_le (Nat.pow_le_pow_right (by norm_num) (by omega))
    have hlow : v % 2 ^ (32 * j) < 2 ^ c.w := (Nat.mod_le _ _).trans_lt hv
    exact Nat.or_lt_two_pow (Nat.or_lt_two_pow hhigh hmid) hlow
  · exact hv

theorem State.config_setConfig (s : State) (r q : ConfigReg) (v : Elem) :
    (s.setConfig r v).config q = if q = r then v else s.config q := by
  cases r <;> cases q <;> rfl

/-- An unlocked configuration register takes any W-bit value. -/
theorem State.Inv.setConfig (h : s.Inv) {r : ConfigReg} (hr : s.configLocked r ≠ true) {v : Elem}
    (hv : v < 2 ^ s.params.w) : (s.setConfig r v).Inv := by
  have hwidth : ∀ q, (s.setConfig r v).config q < 2 ^ s.params.w := by
    intro q
    rw [State.config_setConfig]
    split
    · exact hv
    · exact h.configWidth q
  cases r with
  | p =>
    exact { h with
      configWidth := hwidth
      fieldLock := fun hf => absurd hf hr
      curveLock := fun hc => absurd (h.flocked_of_clocked hc) hr }
  | a | b | gx | gy | n => exact { h with configWidth := hwidth, curveLock := fun hc => absurd hc hr }

/-! ### The host's accesses -/

theorem controlPlace_not_memory {o : Nat} {pl : Place} (h : controlPlace o = some pl) :
    pl ≠ .buf ∧ pl ≠ .str ∧ pl ≠ .cmd := by
  unfold controlPlace at h
  split at h <;> cases h <;> exact ⟨nofun, nofun, nofun⟩

/-- The places of BUF, STR and CMDMEM stand at their offsets (20_memory.md R63). -/
theorem locate_memory {c : Params} {o : Nat} {pl : Place} (h : locate c o = some pl)
    (hpl : pl = .buf ∨ pl = .str ∨ pl = .cmd) : memoryOffset c o = true := by
  unfold locate at h
  rw [memoryOffset_iff]
  repeat' split at h
  · have := controlPlace_not_memory h
    tauto
  · obtain ⟨r, _, rfl⟩ := Option.map_eq_some_iff.mp h
    simp at hpl
  all_goals cases h
  · simp at hpl
  · exact .inl ⟨by unfold bufBase; omega, ‹_›⟩
  · exact .inr (.inl ⟨by omega, ‹_›⟩)
  · exact .inr (.inr ⟨by omega, ‹_›⟩)

/-- The four bytes of an aligned word lie in one region, since each region's size is a multiple of 4 (R6). -/
theorem memoryOffset_of_word {c : Params} (hc : c.allowed = true) {o k : Nat} (ho : o % 4 = 0)
    (h : memoryOffset c o = true) (hlo : o ≤ k) (hhi : k < o + 4) : memoryOffset c k = true := by
  obtain ⟨_, _, _, _, _, hbuf, _, hstr, _⟩ := c.allowed_iff.mp hc
  rw [memoryOffset_iff] at h ⊢
  unfold bufBase strBase cmdBase at *
  omega

/-- A bus word written inside BUF, STR or CMDMEM. -/
theorem State.Inv.writeMemWord (h : s.Inv) {o : Nat} (ho : o % 4 = 0) (hplace : memoryOffset s.params o = true)
    (v : Word32) : State.Inv { s with mem := s.mem.writeWord o v } :=
  h.writeBytes fun _ hlo hhi => memoryOffset_of_word h.parameters ho hplace hlo hhi

/-- A performed access is aligned, and its place is the one that stands at its offset. -/
theorem accessPlace_some {c : Params} {o width : Nat} {pl : Place} (h : accessPlace c o width = some pl) :
    width = 4 ∧ o % 4 = 0 ∧ locate c o = some pl := by
  unfold accessPlace at h
  split at h
  · rename_i ha; exact ⟨ha.1, ha.2, h⟩
  · cases h

theorem State.Inv.storeAt (h : s.Inv) {o : Nat} (ho : o % 4 = 0) {pl : Place}
    (hpl : locate s.params o = some pl) (v : Word32) : (s.storeAt o pl v).Inv := by
  cases pl with simp only [State.storeAt]
  | id | param | pc | errcode | errpc | errcmd | b58ver => exact h
  | entry | ptag | b58n | blen | slen => exact { h with }
  | ctrl =>
    split
    · exact (h.setCtrl v).start
    · exact h.setCtrl v
  | status => exact h.clearStatus v
  | cfg => exact h.requestLocks v
  | bitsize =>
    split
    · exact h.dropWrite
    · rename_i hc; exact { h with curveLock := fun hc' => absurd hc' hc }
  | config r j =>
    split
    · exact h
    · split
      · exact h.dropWrite
      · exact h.setConfig ‹_› (slotWrite_lt h.parameters (h.configWidth r) j v)
  | field i j => exact h.setX i (slotWrite_lt h.parameters (h.fieldWidth i) j v)
  | buf | str | cmd => exact h.writeMemWord ho (locate_memory hpl (by simp)) v

theorem State.Inv.hostRead (h : s.Inv) (o width : Nat) : (s.hostRead o width).Inv := by
  rcases s.hostRead_cases o width with ⟨_, e⟩ | ⟨pl, _, ⟨e, _⟩ | ⟨e, _⟩⟩ <;> rw [e]
  · exact h.refuseAccess
  · exact h.answer _
  · exact { h with }

theorem State.Inv.hostWrite (h : s.Inv) (o width : Nat) (v : Word32) : (s.hostWrite o width v).Inv := by
  rcases s.hostWrite_cases o width v with ⟨_, e⟩ | ⟨pl, hpl, ⟨_, _, e⟩ | ⟨_, e⟩⟩ <;> rw [e]
  · exact h.refuseAccess
  · exact h.dropWrite.answer _
  · obtain ⟨_, ho, hpl⟩ := accessPlace_some hpl
    exact (h.storeAt ho hpl v).answer _

theorem State.Inv.resetEvent (h : s.Inv) : s.resetEvent.Inv := { State.resetOf_inv h.parameters with }

/-- Settles O3: the engine's turn by `engineStep_inv`, the host's by the access it makes, the reset input by the
invariant at reset. -/
theorem everyStepKeepsTheInvariant : Obligations.EveryStepKeepsTheInvariant := by
  intro s t h ht
  have hagenda : ∀ rest, State.Inv { s with agenda := rest } := fun _ => { h with }
  rcases step_cases ht with ⟨_, ht⟩ | ⟨rest, ⟨_, ht⟩ | ⟨o, w, _, _, rfl⟩ | ⟨o, w, v, _, _, rfl⟩ | ⟨_, rfl⟩⟩
  · exact engineStep_inv h ht
  · exact engineStep_inv (hagenda rest) ht
  · exact (hagenda rest).hostRead o w
  · exact (hagenda rest).hostWrite o w v
  · exact (hagenda rest).resetEvent

end Machine

end Sys2Proof
end

section
/-! ## Point registers

A point register is a pair of field registers and a tag (10_state.md R22). -/

namespace Sys2Proof.Machine

/-- The field registers of a point register are the two that its number is half of. -/
theorem half_eq_iff (i : FReg) (q : PReg) : i.val / 2 = q.val ↔ i = xReg q ∨ i = yReg q := by
  simp only [xReg, yReg, Fin.ext_iff]
  omega

theorem State.point_of_tag {s : State} {q : PReg} (h : s.tag q = true) : s.point q = .inf := by
  rw [State.point, if_pos h]

/-- A point write leaves every other point register as it was. -/
theorem State.point_setPoint_other (s : State) {q k : PReg} (pt : Point) (h : k ≠ q) :
    (s.setPoint q pt).point k = s.point k := by
  have hx : (s.setPoint q pt).x (xReg k) = s.x (xReg k) :=
    s.x_setPoint_other pt (h ∘ xReg_injective) (xReg_ne_yReg k q)
  have hy : (s.setPoint q pt).x (yReg k) = s.x (yReg k) :=
    s.x_setPoint_other pt (xReg_ne_yReg q k).symm (h ∘ yReg_injective)
  simp only [State.point, State.tag_setPoint, if_neg h, hx, hy]

/-- The identity is written with both coordinates 0. -/
theorem State.x_setPoint_inf (s : State) (q : PReg) (i : FReg) :
    (s.setPoint q .inf).x i = if i.val / 2 = q.val then 0 else s.x i := by
  simp only [State.setPoint, State.x_setTag, State.x_setX, half_eq_iff]
  by_cases hy : i = yReg q
  · simp [hy]
  · by_cases hx : i = xReg q <;> simp [hx, hy]

/-- Settles O18: the point is read by its definition; what a point write changes is said register by register and tag
by tag. -/
theorem pointRegistersAreAliases : Obligations.PointRegistersAreAliases := by
  intro s q
  refine ⟨rfl, fun pt => ⟨s.point_setPoint_same q pt, ?frame, fun i hi => ?reg, fun k hk => ⟨?point, ?tag⟩⟩,
    s.x_setPoint_inf q, fun i v => ⟨rfl, fun k hk => State.point_of_tag hk⟩⟩
  case frame => cases pt <;> rfl
  case reg =>
    obtain ⟨hx, hy⟩ := not_or.mp (mt (half_eq_iff i q).mpr hi)
    exact s.x_setPoint_other pt hx hy
  case point => exact s.point_setPoint_other pt hk
  case tag => exact (s.tag_setPoint q k pt).trans (if_neg hk)

end Sys2Proof.Machine
end

section
/-! ## Which command writes what

The effect of every command is one of seven writes, each made by the commands named with it, or none. What a command may change
and what it leaves alone follow from the write and from the sequencer's part. -/

namespace Sys2Proof.Machine

/-- What a command's effect makes of `s`: nothing, or a write and the commands that make it. A byte string
written to BUF or STR stays inside its region and its gap up to the next one (20_memory.md R63). -/
inductive WriteOf (i : Instr) (s : State) : State → Prop
  | nothing : WriteOf i s s
  | register (hi : i.mnemonic ∉ ["HALT", "NOP", "PFIN", "ECCHK", "TOBYTES", "B58ENC", "B58DEC"])
      (rd : FReg) (v : Elem) : WriteOf i s (s.setX rd v)
  | point (hi : i.mnemonic ∈ ["PINF", "ECADD", "ECDBL", "ECMUL", "ECMULG"]) (qd : PReg) (pt : Point) :
      WriteOf i s (s.setPoint qd pt)
  | tag (hi : i.mnemonic = "PFIN") (qd : PReg) (v : Bool) : WriteOf i s (s.setTag qd v)
  | flag (hi : i.mnemonic = "ECCHK") (v : Bool) : WriteOf i s (s.setOnc v)
  | bytes (hi : i.mnemonic = "TOBYTES") {r : List Byte} (hr : r.length < 0x100) (len : BitVec 8) :
      WriteOf i s { s.writeBuf r with blen := len }
  | symbols (hi : i.mnemonic = "B58ENC") {r : List Byte} (hr : r.length < 0x300) (len : BitVec 8) :
      WriteOf i s { s.writeStr r with slen := len }
  | payload (hi : i.mnemonic = "B58DEC") {r : List Byte} (hr : r.length < 0x100) (len ver : BitVec 8) :
      WriteOf i s { s.writeBuf r with blen := len, b58ver := ver }

/-- Even at the largest BLEN the symbols of B58ENC end below CMDMEM: a byte costs at most two symbols. -/
theorem length_base58Encode_lt (hash : List Byte → Vector Byte 32) (ver : Byte) (s : State) (len : BitVec 8) :
    (base58Symbols (base58Full hash ver (s.bufBytes len.toNat))).length < 0x300 := by
  have hlen := len.isLt
  have hpow : ∀ n, 256 ^ n ≤ 58 ^ (2 * n) := fun n => by
    rw [pow_mul]; exact Nat.pow_le_pow_left (by norm_num) n
  have := length_base58Symbols_le (hpow (base58Full hash ver (s.bufBytes len.toNat)).length)
  rw [length_base58Full, State.length_bufBytes] at this
  omega

/-- Every command's effect, when it succeeds, is the write of its kind. -/
theorem effectOf_writeOf {i : Instr} {s u : State} (h : effectOf i s = .ok u) : WriteOf i s u := by
  cases i with simp only [effectOf] at h
  | halt | nop => cases h; exact .nothing
  | fmov | fldi => cases h; exact .register (by simp [Instr.mnemonic]) _ _
  | fldc => split at h <;> cases h; exact .register (by simp [Instr.mnemonic]) _ _
  | pinf => cases h; exact .point (by simp [Instr.mnemonic]) _ _
  | pfin => cases h; exact .tag rfl _ _
  | fadd | fsub | fmul | fdiv =>
    obtain ⟨_, _, _, _, rfl⟩ := fieldBinary_ok h
    exact .register (by simp [Instr.mnemonic]) _ _
  | finv =>
    obtain ⟨_, _, _, rfl⟩ := fieldInverse_ok h
    exact .register (by simp [Instr.mnemonic]) _ _
  | fexp =>
    obtain ⟨_, _, _, rfl⟩ := fieldPower_ok h
    exact .register (by simp [Instr.mnemonic]) _ _
  | faddn | fsubn | fmuln =>
    obtain ⟨_, _, _, _, rfl⟩ := fieldFold_ok h
    exact .register (by simp [Instr.mnemonic]) _ _
  | ecadd | ecdbl | ecmul | ecmulg =>
    obtain ⟨_, rfl⟩ := curveWrite_ok h
    exact .point (by simp [Instr.mnemonic]) _ _
  | ecchk =>
    obtain ⟨_, _, rfl⟩ := curveCheck_ok h
    exact .flag rfl _
  | tobytes _ size =>
    obtain ⟨_, _, hr, rfl⟩ := codecStore_ok h
    exact .bytes rfl ((length_toBytes hr).trans_lt size.isLt) _
  | frombytes =>
    obtain ⟨_, _, rfl⟩ := codecLoad_ok h
    exact .register (by simp [Instr.mnemonic]) _ _
  | b58enc ver =>
    obtain ⟨_, _, rfl, rfl⟩ := base58Encode_ok h
    exact .symbols rfl (length_base58Encode_lt _ ver s s.blen) _
  | b58dec =>
    obtain ⟨_, _, _, full, hfull, h⟩ := base58Decode_ok h
    obtain ⟨_, rfl⟩ := base58Accept_ok h
    have hlen := length_toBytes hfull
    have hn := s.b58n.isLt
    refine .payload rfl ?_ _ _
    rw [List.length_drop, List.length_take]
    omega

/-- `t` is `u` but for the state that the sequencer's part of a command other than HALT may write. -/
def SequencerWrites (u t : State) : Prop :=
  t = { u with pc := t.pc, busy := t.busy, err := t.err, errcode := t.errcode, errpc := t.errpc,
               errcmd := t.errcmd }

theorem SequencerWrites.advance (u : State) : SequencerWrites u u.advance := by
  rcases u.advance_cases with ⟨_, h⟩ | ⟨_, h⟩ <;> rw [h] <;> rfl

/-- What a command can do: HALT ends the run, and any other command makes the write of its kind, or none, followed by
the sequencer's part. -/
theorem exec_writeOf {i : Instr} {s t : State} (h : exec i s = .next t) :
    (i = .halt ∧ t = s.stopDone) ∨ ∃ u, WriteOf i s u ∧ SequencerWrites u t := by
  rcases exec_cases h with hhalt | ⟨e, _, rfl⟩ | ⟨u, hu, rfl⟩
  · exact .inl hhalt
  · exact .inr ⟨s, .nothing, rfl⟩
  · exact .inr ⟨u, effectOf_writeOf hu, .advance u⟩

/-! ### The byte memory -/

/-- A command may leave byte memory `m` as `m'`: TOBYTES and B58DEC write BUF, B58ENC writes STR, and no other command
writes it (10_state.md R37, R38). -/
def MemoryWrite (i : Instr) (m m' : Memory) : Prop :=
  m' = m ∨
  (i.mnemonic ∈ ["TOBYTES", "B58DEC"] ∧ ∃ r, r.length < 0x100 ∧ m' = m.writeBytes bufBase r) ∨
  (i.mnemonic = "B58ENC" ∧ ∃ r, r.length < 0x300 ∧ m' = m.writeBytes strBase r)

theorem WriteOf.memoryWrite {i : Instr} {s u : State} (h : WriteOf i s u) : MemoryWrite i s.mem u.mem := by
  cases h with
  | nothing | register | tag | flag => exact .inl rfl
  | point => exact .inl (State.setPoint_mem _ _ _)
  | bytes hi hr | payload hi hr => exact .inr (.inl ⟨by simp [hi], _, hr, rfl⟩)
  | symbols hi hr => exact .inr (.inr ⟨hi, _, hr, rfl⟩)

theorem exec_memoryWrite {i : Instr} {s t : State} (h : exec i s = .next t) : MemoryWrite i s.mem t.mem := by
  rcases exec_writeOf h with ⟨_, rfl⟩ | ⟨u, hu, ht⟩
  · exact .inl rfl
  · rw [congrArg State.mem ht]
    exact hu.memoryWrite

/-- Only TOBYTES and B58DEC change a byte below STR. -/
theorem exec_read_buf {i : Instr} {s t : State} (hm : s.mem.wf) (h : exec i s = .next t) {k : Nat}
    (hk : k < strBase) (hne : t.mem.read k ≠ s.mem.read k) : i.mnemonic ∈ ["TOBYTES", "B58DEC"] := by
  rcases exec_memoryWrite h with he | ⟨hi, _⟩ | ⟨_, r, _, he⟩
  · exact absurd (by rw [he]) hne
  · exact hi
  · exact absurd (by rw [he, Memory.read_writeBytes_outside hm (by omega)]) hne

/-- Only B58ENC changes a byte from STR up. -/
theorem exec_read_str {i : Instr} {s t : State} (hm : s.mem.wf) (h : exec i s = .next t) {k : Nat}
    (hk : strBase ≤ k) (hne : t.mem.read k ≠ s.mem.read k) : i.mnemonic = "B58ENC" := by
  rcases exec_memoryWrite h with he | ⟨_, r, hr, he⟩ | ⟨hi, _⟩
  · exact absurd (by rw [he]) hne
  · refine absurd ?_ hne
    rw [he, Memory.read_writeBytes_outside hm (by unfold bufBase strBase at *; omega)]
  · exact hi

/-- No command changes a byte of CMDMEM. -/
theorem exec_read_cmd {i : Instr} {s t : State} (hm : s.mem.wf) (h : exec i s = .next t) {k : Nat}
    (hk : cmdBase ≤ k) : t.mem.read k = s.mem.read k := by
  unfold cmdBase at hk
  rcases exec_memoryWrite h with he | ⟨_, r, hr, he⟩ | ⟨_, r, hr, he⟩ <;> rw [he]
  · exact Memory.read_writeBytes_outside hm (by unfold bufBase; omega)
  · exact Memory.read_writeBytes_outside hm (by unfold strBase; omega)

theorem exec_cmdWord {i : Instr} {s t : State} (hm : s.mem.wf) (h : exec i s = .next t) (k : BitVec 6) :
    t.cmdWord k = s.cmdWord k := by
  have hread : ∀ j, t.mem.read (cmdBase + 4 * k.toNat + j) = s.mem.read (cmdBase + 4 * k.toNat + j) :=
    fun j => exec_read_cmd hm h (by omega)
  have h0 := hread 0
  simp only [State.cmdWord, Memory.readWord, hread, Nat.add_zero] at h0 ⊢
  rw [h0]

/-! ### The host's part of the state -/

/-- `t` is `s` but for the state that a command, its sequencer's part included, may write. -/
def EngineWrites (s t : State) : Prop :=
  t = { s with f := t.f, ptag := t.ptag, onc := t.onc, mem := t.mem, blen := t.blen, slen := t.slen,
               b58ver := t.b58ver, pc := t.pc, busy := t.busy, done := t.done, err := t.err,
               errcode := t.errcode, errpc := t.errpc, errcmd := t.errcmd }

theorem exec_engineWrites {i : Instr} {s t : State} (h : exec i s = .next t) : EngineWrites s t := by
  rcases exec_cases h with ⟨_, rfl⟩ | ⟨e, _, rfl⟩ | ⟨u, hu, rfl⟩
  · rfl
  · rfl
  · rw [EngineWrites, SequencerWrites.advance u, effectOf_writes hu]

/-- Settles O47: a command writes nothing but the engine's state, and in the byte memory nothing of CMDMEM. -/
theorem commandsKeepTheHostsState : Obligations.CommandsKeepTheHostsState := by
  intro i s t hm h
  have hcmd := exec_cmdWord hm h
  rw [exec_engineWrites h] at hcmd ⊢
  simpa using hcmd

/-! ### The engine's pieces of state -/

/-- Which commands may change each register and flag by their write; DONE is changed by none. -/
theorem WriteOf.named {i : Instr} {s u : State} (h : WriteOf i s u) :
    (u.ptag ≠ s.ptag → i.mnemonic ∈ ["PINF", "PFIN", "ECADD", "ECDBL", "ECMUL", "ECMULG"]) ∧
    (u.onc ≠ s.onc → i.mnemonic = "ECCHK") ∧
    u.done = s.done ∧
    (u.blen ≠ s.blen → i.mnemonic ∈ ["TOBYTES", "B58DEC"]) ∧
    (u.slen ≠ s.slen → i.mnemonic = "B58ENC") ∧
    (u.b58ver ≠ s.b58ver → i.mnemonic = "B58DEC") ∧
    (u.f ≠ s.f → i.mnemonic ∉ ["HALT", "NOP", "PFIN", "ECCHK", "TOBYTES", "B58ENC", "B58DEC"]) := by
  cases h with
  | nothing => simp
  | register hi => simp_all
  | point hi =>
    simp only [List.mem_cons, List.not_mem_nil, or_false] at hi
    obtain hi | hi | hi | hi | hi := hi <;> simp [hi]
  | tag hi | flag hi | bytes hi | symbols hi | payload hi => simp [hi]

/-- Settles O48: HALT changes DONE alone, and every other command what its write names. -/
theorem onlyNamedCommandsWriteEachPiece : Obligations.OnlyNamedCommandsWriteEachPiece := by
  intro i s t hc hm h
  obtain ⟨_, _, _, _, hbytes, _⟩ := s.params.allowed_iff.mp hc
  have hbuf : ∀ j, j < s.params.bufBytes → t.mem.read (bufBase + j) ≠ s.mem.read (bufBase + j) →
      i.mnemonic ∈ ["TOBYTES", "B58DEC"] := fun j hj => exec_read_buf hm h (by unfold bufBase strBase; omega)
  have hstr : ∀ j, j < s.params.strBytes → t.mem.read (strBase + j) ≠ s.mem.read (strBase + j) →
      i.mnemonic = "B58ENC" := fun j _ => exec_read_str hm h (by omega)
  rcases exec_writeOf h with ⟨rfl, rfl⟩ | ⟨u, hu, ht⟩
  · simp [Instr.mnemonic]
  · obtain ⟨hptag, honc, hdone, hblen, hslen, hver, hf⟩ := hu.named
    rw [ht] at hbuf hstr ⊢
    exact ⟨hptag, honc, fun hd => absurd hdone hd, hblen, hslen, hver, hbuf, hstr, hf⟩

end Sys2Proof.Machine
end

section
/-! ## The host's registers

What a read and a write of each register of the window do (20_memory.md R62, R63): the place that stands at its
offset, the word it shows and the field it stores. -/

namespace Sys2Proof.Machine

/-! ### Accesses to a place -/

/-- A read of a word that is not unspecified answers with the stored word (20_memory.md R73, R74). -/
theorem State.hostRead_reply {s : State} {o : Nat} {pl : Place} (hpl : accessPlace s.params o 4 = some pl)
    (hb : (s.busy && unspecifiedWhileBusy s.params pl) = false) :
    (s.hostRead o 4).reply = some ⟨s.stored o pl, false⟩ := by
  simp only [State.hostRead, hpl, State.readWord, hb]
  rfl

theorem State.hostRead_reply_idle {s : State} {o : Nat} {pl : Place} (hb : s.busy = false)
    (hpl : accessPlace s.params o 4 = some pl) : (s.hostRead o 4).reply = some ⟨s.stored o pl, false⟩ :=
  State.hostRead_reply hpl (by rw [hb, Bool.false_and])

/-- A write while idle, and a write to STATUS at any time, is taken (20_memory.md R71). -/
theorem State.hostWrite_taken {s : State} {o : Nat} {pl : Place} (hpl : accessPlace s.params o 4 = some pl)
    (hb : s.busy = false ∨ pl = .status) (v : Word32) : s.hostWrite o 4 v = (s.storeAt o pl v).answer 0#32 := by
  simp only [State.hostWrite, hpl, State.writeWord]
  rcases hb with hb | hb <;> simp [hb]

theorem State.hostWrite_idle {s : State} {o : Nat} {pl : Place} (hb : s.busy = false)
    (hpl : accessPlace s.params o 4 = some pl) (v : Word32) :
    s.hostWrite o 4 v = (s.storeAt o pl v).answer 0#32 :=
  State.hostWrite_taken hpl (.inl hb) v

/-- A write that the busy rule would drop, and that the place drops too, is dropped (20_memory.md R71, 10_state.md
R33). -/
theorem State.hostWrite_dropped {s : State} {o : Nat} {pl : Place} (hpl : accessPlace s.params o 4 = some pl)
    {v : Word32} (hstore : s.storeAt o pl v = s.dropWrite) : s.hostWrite o 4 v = s.dropWrite.answer 0#32 := by
  simp only [State.hostWrite, hpl, State.writeWord, hstore, ite_self]

/-- Word j of a configuration register's slot stands at its offset (20_memory.md R63, R66). -/
theorem accessPlace_configSlot (c : Params) (r : ConfigReg) {j : Nat} (hj : j < 16) :
    accessPlace c (configSlot r + 4 * j) 4 = some (.config r j) := by
  have hslot : 0x100 ≤ configSlot r ∧ configSlot r ≤ 0x240 ∧ configSlot r % 0x40 = 0 := by cases r <;> decide
  have hreg : configPlace ((configSlot r - 0x100) / 0x40) = some r := by cases r <;> rfl
  rw [accessPlace, if_pos ⟨rfl, by omega⟩, locate, if_neg (by omega), if_pos (by omega),
    show (configSlot r + 4 * j - 0x100) / 0x40 = (configSlot r - 0x100) / 0x40 by omega, hreg,
    show (configSlot r + 4 * j) % 0x40 / 4 = j by omega]
  rfl

/-! ### Words made of bits -/

theorem getLsbD_bitAt (v : Bool) {i : Nat} (hi : i < 32) (k : Nat) :
    (bitAt v i).getLsbD k = (v && decide (i = k)) := by
  cases v with
  | false => simp [bitAt]
  | true => rw [bitAt, if_pos rfl, ← BitVec.twoPow_eq, BitVec.getLsbD_twoPow, decide_eq_true hi]

/-- STATUS holds its six bits in their places, and 0 elsewhere (10_state.md R25, R47). -/
theorem State.getLsbD_statusWord (s : State) (onc : Bool) (k : Nat) : (s.statusWord onc).getLsbD k =
    (s.busy && decide (0 = k) || s.done && decide (1 = k) || s.err && decide (2 = k) ||
     s.hosterr && decide (3 = k) || onc && decide (4 = k) || s.irq && decide (5 = k)) := by
  simp (disch := omega) only [State.statusWord, BitVec.getLsbD_or, getLsbD_bitAt]

/-- STATUS as a number while idle (10_state.md R25). -/
theorem State.statusWord_idle {s : State} (hb : s.busy = false) (onc : Bool) : s.statusWord onc = BitVec.ofNat 32
    (2 * s.done.toNat + 4 * s.err.toNat + 8 * s.hosterr.toNat + 16 * onc.toNat + 32 * s.irq.toNat) := by
  have h : ∀ d e h o i : Bool,
      bitAt false 0 ||| bitAt d 1 ||| bitAt e 2 ||| bitAt h 3 ||| bitAt o 4 ||| bitAt i 5 =
        BitVec.ofNat 32 (2 * d.toNat + 4 * e.toNat + 8 * h.toNat + 16 * o.toNat + 32 * i.toNat) := by decide
  rw [State.statusWord, hb, h]

/-- CTRL as a number (10_state.md R24). -/
theorem State.ctrlWord_eq (s : State) : s.ctrlWord = BitVec.ofNat 32
    (2 * s.strict58.toNat + 4 * s.ieDone.toNat + 8 * s.ieErr.toNat + 16 * s.ieHost.toNat) := by
  have h : ∀ a b c d : Bool, bitAt a 1 ||| bitAt b 2 ||| bitAt c 3 ||| bitAt d 4 =
      BitVec.ofNat 32 (2 * a.toNat + 4 * b.toNat + 8 * c.toNat + 16 * d.toNat) := by decide
  exact h _ _ _ _

/-- CFG as a number (10_state.md R26). -/
theorem State.cfgWord_eq (s : State) : s.cfgWord = BitVec.ofNat 32
    (s.flocked.toNat + 2 * s.clocked.toNat + 256 * s.ferr.toNat + 512 * s.cerr.toNat) := by
  have h : ∀ a b c d : Bool, bitAt a 0 ||| bitAt b 1 ||| bitAt c 8 ||| bitAt d 9 =
      BitVec.ofNat 32 (a.toNat + 2 * b.toNat + 256 * c.toNat + 512 * d.toNat) := by decide
  exact h _ _ _ _

/-- PARAM as a number, for parameters that fit their fields (10_state.md R28). -/
theorem paramWord_eq {c : Params} (hc : c.allowed = true) :
    paramWord c = BitVec.ofNat 32 (c.w + 0x10000 * c.bufBytes + 0x1000000 * c.strBytes) := by
  obtain ⟨_, _, hw, _, hbuf, _, _, _, hstr⟩ := c.allowed_iff.mp hc
  apply BitVec.eq_of_toNat_eq
  rw [paramWord, BitVec.toNat_append, ← Nat.shiftLeft_add_eq_or_of_lt (BitVec.isLt _), BitVec.toNat_append,
    ← Nat.shiftLeft_add_eq_or_of_lt (BitVec.isLt _)]
  simp only [Nat.shiftLeft_eq, BitVec.toNat_ofNat]
  omega

/-! ### The control registers -/

/-- Settles O56: a write to STATUS is taken in every state, and STATUS is read bit by bit. -/
theorem statusClearsByOnesAndShowsIrq : Obligations.StatusClearsByOnesAndShowsIrq := by
  intro s v onc
  refine ⟨⟨0#32, State.hostWrite_taken (pl := .status) rfl (.inr rfl) v⟩, rfl, ?_⟩
  simp only [State.getLsbD_statusWord]
  refine ⟨by simp, by simp, by simp, by simp, by simp, by simp, fun k hk => ?_⟩
  simp (disch := omega) [Nat.ne_of_lt]

/-- Settles O57: each offset has its place, whose word is stored and shown by definition; CTRL, STATUS and CFG are put
together from their bits. -/
theorem idleControlAccessesStoreAndShowTheFields : Obligations.IdleControlAccessesStoreAndShowTheFields := by
  intro s v hb
  have hwrite : ∀ {o : Nat} {t : Word32 → State} (pl : Place), accessPlace s.params o 4 = some pl →
      (s.storeAt o pl v).answer 0#32 = t 0#32 → ∃ d, s.hostWrite o 4 v = t d :=
    fun _ hpl ht => ⟨0#32, by rw [State.hostWrite_idle hb hpl, ht]⟩
  have hread : ∀ {o : Nat} {w : Word32} (pl : Place), accessPlace s.params o 4 = some pl → s.stored o pl = w →
      (s.hostRead o 4).reply = some ⟨w, false⟩ :=
    fun _ hpl hw => by rw [State.hostRead_reply_idle hb hpl, hw]
  have hlow : ∀ {n : Nat}, n ≤ 32 → v.extractLsb' 0 n = v.setWidth n :=
    fun h => (BitVec.setWidth_eq_extractLsb' h).symm
  simp (disch := omega) only [hlow]
  refine ⟨hwrite .entry rfl rfl, hwrite .ptag rfl rfl, hwrite .b58n rfl rfl, hwrite .blen rfl rfl,
    hwrite .slen rfl rfl, fun hc => hwrite .bitsize rfl ?bitsize, fun hv => hwrite .ctrl rfl ?ctrl, ?readOnly,
    hread .ctrl rfl s.ctrlWord_eq, hread .status rfl (State.statusWord_idle hb s.onc), hread .cfg rfl s.cfgWord_eq,
    hread .entry rfl rfl, hread .pc rfl rfl, hread .errcode rfl rfl, hread .errpc rfl rfl, hread .errcmd rfl rfl,
    hread .ptag rfl rfl, hread .bitsize rfl rfl, hread .b58n rfl rfl, hread .blen rfl rfl, hread .slen rfl rfl,
    hread .b58ver rfl rfl⟩
  case bitsize => simp only [State.storeAt, hc]; rfl
  case ctrl => simp only [State.storeAt, hv]; rfl
  case readOnly =>
    simp only [List.forall_mem_cons]
    exact ⟨hwrite .id rfl rfl, hwrite .param rfl rfl, hwrite .pc rfl rfl, hwrite .errcode rfl rfl,
      hwrite .errpc rfl rfl, hwrite .errcmd rfl rfl, hwrite .b58ver rfl rfl, nofun⟩

/-- Settles O1: the registers and the empty memory by the definition of the reset state, ID and PARAM as the host
reads them. -/
theorem resetLeavesTheStatedValues : Obligations.ResetLeavesTheStatedValues := by
  refine ⟨rfl, rfl, fun c hc => ?_⟩
  have hx : ∀ i, (State.resetOf c).x i = 0 := by simp [State.x, State.resetOf]
  have hparam : ((State.resetOf c).hostRead 0x004 4).reply = some ⟨paramWord c, false⟩ :=
    State.hostRead_reply_idle (pl := .param) rfl rfl
  rw [paramWord_eq hc] at hparam
  have hbytes : ∀ o, (State.resetOf c).mem.read o = 0#8 := fun _ => rfl
  have hwords : ∀ i, (State.resetOf c).cmdWord i = 0#32 := fun i => by
    rw [State.cmdWord, Memory.readWord, hbytes, hbytes, hbytes, hbytes]; rfl
  exact ⟨rfl, hx, rfl, rfl, rfl, rfl, rfl, rfl, rfl, rfl, rfl, rfl, rfl, rfl, rfl, rfl, rfl, rfl, rfl, rfl, rfl, rfl,
    rfl, rfl, rfl, rfl, rfl, rfl, rfl, fun _ _ => hbytes _, fun _ _ => hbytes _, rfl, rfl, rfl, rfl, hwords,
    rfl, hparam⟩

/-! ### The locks -/

theorem curveEq_iff (p a b x y : Nat) :
    curveEq p a b x y = true ↔ (p : Int) ∣ (y : Int) ^ 2 - ((x : Int) ^ 3 + a * x + b) := by
  rw [curveEq, beq_iff_eq, ← Int.dvd_iff_emod_eq_zero, pow_two, pow_three']

/-- The field-lock check is the one of R31. -/
theorem State.fieldLockPasses_eq (s : State) : s.fieldLockPasses = decide (s.p % 2 = 1 ∧ 3 ≤ s.p) := by
  rw [Bool.eq_iff_iff]
  simp [State.fieldLockPasses]

/-- The curve-lock check is the one of R32. -/
theorem State.curveLockPasses_iff (s : State) : s.curveLockPasses = true ↔ CurveLockCheck s s.flocked := by
  simp only [State.curveLockPasses, State.valid, CurveLockCheck, Bool.and_eq_true, decide_eq_true_eq, curveEq_iff,
    and_assoc]

/-- A request has an effect only when it is made and the lock is not held. -/
theorem ite_asked_unheld {α : Type} (asked held : Bool) (x y : α) :
    (if asked then if held then x else y else x) = if asked && !held then y else x := by
  cases asked <;> cases held <;> rfl

/-- A field-lock request, made or not: an evaluated one sets the lock or FERR (10_state.md R30, R31). -/
theorem State.requestFieldLock_eq (s : State) (asked : Bool) : (if asked then s.requestFieldLock else s) =
    { s with flocked := s.flocked || (asked && !s.flocked && s.fieldLockPasses)
             ferr := if asked && !s.flocked then !s.fieldLockPasses else s.ferr } := by
  rw [State.requestFieldLock, ite_asked_unheld]
  cases hask : asked && !s.flocked
  · simp
  · cases hp : s.fieldLockPasses <;> simp_all

/-- A curve-lock request, made or not: an evaluated one sets the lock or CERR (10_state.md R30, R32). -/
theorem State.requestCurveLock_eq (s : State) (asked : Bool) : (if asked then s.requestCurveLock else s) =
    { s with clocked := s.clocked || (asked && !s.clocked && s.curveLockPasses)
             cerr := if asked && !s.clocked then !s.curveLockPasses else s.cerr } := by
  rw [State.requestCurveLock, ite_asked_unheld]
  cases hask : asked && !s.clocked
  · simp
  · cases hp : s.curveLockPasses <;> simp_all

/-- Settles O53: the two requests in their order, the curve check under the field lock's new value. -/
theorem lockRequestsAreEvaluated : Obligations.LockRequestsAreEvaluated := by
  intro s v hb askF passF flocked askC
  refine ⟨0#32, State.curveLockPasses { s with flocked := flocked }, State.curveLockPasses_iff _, ?_⟩
  rw [State.hostWrite_idle hb (pl := .cfg) rfl]
  simp only [State.storeAt, State.requestLocks, State.requestCurveLock_eq, State.requestFieldLock_eq,
    State.fieldLockPasses_eq]
  rfl

/-- Settles O54: the place of each locked register drops the write, busy or not, and no read of it is unspecified. -/
theorem lockedConfigurationIsReadOnly : Obligations.LockedConfigurationIsReadOnly := by
  intro s v j hj hj16
  have hplace := fun r => accessPlace_configSlot s.params r hj16
  have hdrop : ∀ r, s.configLocked r = true →
      ∃ a, s.hostWrite (configSlot r + 4 * j) 4 v = { s with hosterr := true, reply := a } := fun r hr =>
    ⟨_, State.hostWrite_dropped (hplace r)
      (by simp only [State.storeAt, if_neg (not_le.mpr hj : ¬ s.params.slotWords ≤ j), if_pos hr])⟩
  have hread : ∀ r, s.stored (configSlot r + 4 * j) (.config r j) = BitVec.ofNat 32 (s.config r >>> (32 * j)) :=
    fun r => if_pos hj
  refine ⟨hdrop .p, fun hc => ⟨⟨_, State.hostWrite_dropped (pl := .bitsize) rfl (if_pos hc)⟩, ?curve⟩,
    fun r => ?slot, State.hostRead_reply (pl := .bitsize) rfl (Bool.and_false _)⟩
  case curve =>
    simp only [List.forall_mem_cons]
    exact ⟨hdrop .a hc, hdrop .b hc, hdrop .gx hc, hdrop .gy hc, hdrop .n hc, nofun⟩
  case slot => rw [State.hostRead_reply (hplace r) (Bool.and_false _), hread r]

end Sys2Proof.Machine
end

section
/-! ## The host's window

What stands at an offset of the window (20_memory.md R63, R64), what an access there does, and so which accesses are
refused, dropped or taken, and what they show and store (R62 to R74). -/

namespace Sys2Proof.Machine

/-! ### The address map -/

/-- The control registers fill the word offsets below 0x040. -/
theorem controlPlace_eq_none_iff {o : Nat} (ho : o % 4 = 0) : controlPlace o = none ↔ 0x40 ≤ o := by
  constructor
  · intro h
    by_contra hlt
    obtain ⟨k, rfl⟩ : ∃ k, o = 4 * k := ⟨o / 4, by omega⟩
    have hk : k < 16 := by omega
    interval_cases k <;> cases h
  · intro h
    unfold controlPlace
    split
    case h_17 => rfl
    all_goals omega

/-- The configuration registers have the first six slots. -/
theorem configPlace_eq_none_iff (k : Nat) : configPlace k = none ↔ 6 ≤ k := by
  constructor
  · intro h
    by_contra hlt
    interval_cases k <;> cases h
  · intro h
    unfold configPlace
    split
    case h_7 => rfl
    all_goals omega

/-- A word offset holds nothing exactly where it is reserved (20_memory.md R64). -/
theorem locate_eq_none_iff (c : Params) {o : Nat} (ho : o % 4 = 0) :
    locate c o = none ↔ mappedOffset c o = false := by
  simp only [mappedOffset, Bool.or_eq_false_iff, Bool.and_eq_false_iff, decide_eq_false_iff_not]
  unfold locate bufBase strBase cmdBase
  split
  · rw [controlPlace_eq_none_iff ho]; omega
  · split
    · rw [Option.map_eq_none_iff, configPlace_eq_none_iff]; omega
    · repeat' split
      all_goals simp only [reduceCtorEq, true_iff, false_iff]; omega

/-- The block performs exactly the accesses that no rule refuses (20_memory.md R64, R69, R70). -/
theorem accessPlace_eq_none_iff {c : Params} {o width : Nat} :
    accessPlace c o width = none ↔ RefusedAccess c o width := by
  unfold accessPlace RefusedAccess
  split
  · rename_i h; rw [locate_eq_none_iff c h.2]; simp [h]
  · rename_i h; simp only [true_iff]; tauto

theorem accessPlace_of_not_refused {c : Params} {o width : Nat} (h : ¬ RefusedAccess c o width) :
    ∃ pl, accessPlace c o width = some pl :=
  Option.ne_none_iff_exists'.mp (mt accessPlace_eq_none_iff.mp h)

/-- STATUS and BITSIZE stand among the control registers. -/
theorem locate_control {c : Params} {o : Nat} {pl : Place} (h : locate c o = some pl)
    (hpl : pl = .status ∨ pl = .bitsize) : controlPlace o = some pl := by
  unfold locate at h
  repeat' split at h
  · exact h
  · obtain ⟨r, _, rfl⟩ := Option.map_eq_some_iff.mp h
    simp at hpl
  all_goals cases h
  all_goals simp at hpl

theorem locate_status {c : Params} {o : Nat} (h : locate c o = some .status) : o = 0x00C := by
  have hplace := locate_control h (.inl rfl)
  unfold controlPlace at hplace
  split at hplace <;> cases hplace
  rfl

theorem locate_bitsize {c : Params} {o : Nat} (h : locate c o = some .bitsize) : o = 0x02C := by
  have hplace := locate_control h (.inr rfl)
  unfold controlPlace at hplace
  split at hplace <;> cases hplace
  rfl

/-- Each word from 0x100 to 0x27F is a word of one configuration slot. -/
theorem exists_configSlot {o : Nat} (ho : o % 4 = 0) (hlo : 0x100 ≤ o) (hhi : o < 0x280) :
    ∃ r j, j < 16 ∧ o = configSlot r + 4 * j := by
  have hslot : ∃ r, configSlot r = o / 0x40 * 0x40 := by
    obtain ⟨k, hk⟩ : ∃ k, k = o / 0x40 := ⟨_, rfl⟩
    have h4 : 4 ≤ k := by omega
    have h9 : k ≤ 9 := by omega
    rw [← hk]
    interval_cases k
    exacts [⟨.p, rfl⟩, ⟨.a, rfl⟩, ⟨.b, rfl⟩, ⟨.gx, rfl⟩, ⟨.gy, rfl⟩, ⟨.n, rfl⟩]
  obtain ⟨r, hr⟩ := hslot
  exact ⟨r, o % 0x40 / 4, by omega, by omega⟩

/-- A word of a configuration slot stands nowhere else (the converse of `accessPlace_configSlot`). -/
theorem locate_config {c : Params} {o j : Nat} {r : ConfigReg} (ho : o % 4 = 0)
    (h : locate c o = some (.config r j)) : j < 16 ∧ o = configSlot r + 4 * j := by
  have hrange : 0x100 ≤ o ∧ o < 0x280 := by
    unfold locate at h
    repeat' split at h
    · unfold controlPlace at h
      split at h <;> cases h
    · obtain ⟨q, hq, _⟩ := Option.map_eq_some_iff.mp h
      have hk : ¬ 6 ≤ (o - 0x100) / 0x40 := mt (configPlace_eq_none_iff _).mpr (by simp [hq])
      omega
    all_goals cases h
  obtain ⟨q, i, hi, rfl⟩ := exists_configSlot ho hrange.1 hrange.2
  obtain ⟨_, _, hplace⟩ := accessPlace_some (accessPlace_configSlot c q hi)
  cases hplace.symm.trans h
  exact ⟨hi, rfl⟩

/-- Word j of a field register's slot stands at its offset (20_memory.md R63, R66). -/
theorem accessPlace_fieldSlot (c : Params) (i : FReg) {j : Nat} (hj : j < 16) :
    accessPlace c (fieldSlot i + 4 * j) 4 = some (.field i j) := by
  have hi := i.isLt
  have hreg : Fin.ofNat 16 ((0x400 + 0x40 * i.val + 4 * j - 0x400) / 0x40) = i :=
    Fin.ext (by simp only [Fin.val_ofNat]; omega)
  unfold fieldSlot
  rw [accessPlace, if_pos ⟨rfl, by omega⟩, locate, if_neg (by omega), if_neg (by omega), if_pos (by omega), hreg,
    show (0x400 + 0x40 * i.val + 4 * j) % 0x40 / 4 = j by omega]

/-- Every aligned word of BUF, STR and CMDMEM is a word of the byte memory (the converse of `locate_memory`). -/
theorem accessPlace_memory {c : Params} {o : Nat} (ho : o % 4 = 0) (h : memoryOffset c o = true) :
    ∃ pl, accessPlace c o 4 = some pl ∧ (pl = .buf ∨ pl = .str ∨ pl = .cmd) := by
  rw [memoryOffset_iff] at h
  rw [accessPlace, if_pos ⟨rfl, ho⟩]
  unfold locate
  unfold bufBase strBase cmdBase at *
  rw [if_neg (by omega), if_neg (by omega), if_neg (by omega)]
  repeat' split
  · exact ⟨_, rfl, .inl rfl⟩
  · omega
  · exact ⟨_, rfl, .inr (.inl rfl)⟩
  · omega
  · exact ⟨_, rfl, .inr (.inr rfl)⟩
  · omega

/-! ### Refused accesses -/

theorem State.hostRead_refused {s : State} {o width : Nat} (h : RefusedAccess s.params o width) :
    s.hostRead o width = s.refuseAccess := by
  simp only [State.hostRead, accessPlace_eq_none_iff.mpr h]

theorem State.hostWrite_refused {s : State} {o width : Nat} (h : RefusedAccess s.params o width) (v : Word32) :
    s.hostWrite o width v = s.refuseAccess := by
  simp only [State.hostWrite, accessPlace_eq_none_iff.mpr h]

/-- Settles O51: no place stands at a refused access, and both accesses then only refuse. -/
theorem refusedAccessesAreNotPerformed : Obligations.RefusedAccessesAreNotPerformed := by
  intro s o w v _ hrefused
  exact ⟨State.hostRead_refused hrefused, 0#32, State.hostWrite_refused hrefused v⟩

/-! ### Writes while busy -/

/-- While busy a write to any place but STATUS is dropped (20_memory.md R71). -/
theorem State.hostWrite_busy {s : State} {o width : Nat} {pl : Place} (hb : s.busy = true)
    (hpl : accessPlace s.params o width = some pl) (hne : pl ≠ .status) (v : Word32) :
    s.hostWrite o width v = s.dropWrite.answer 0#32 := by
  simp only [State.hostWrite, hpl, State.writeWord, hb, Bool.true_and, bne_iff_ne, if_pos hne]

/-- Settles O50: a mapped offset other than 0x00C has a place other than STATUS, whose write the busy rule drops. -/
theorem busyWritesAreDropped : Obligations.BusyWritesAreDropped := by
  intro s o w v hb _
  obtain ⟨hstatus, _⟩ := statusClearsByOnesAndShowsIrq s v s.onc
  refine ⟨fun hmapped ho => ?_, hstatus, fun hrefused => ⟨0#32, State.hostWrite_refused hrefused v⟩⟩
  obtain ⟨pl, hpl⟩ := accessPlace_of_not_refused hmapped
  obtain ⟨_, _, hplace⟩ := accessPlace_some hpl
  have hne : pl ≠ .status := fun h => ho (locate_status (h ▸ hplace))
  exact ⟨0#32, State.hostWrite_busy hb hpl hne v⟩

/-! ### HOSTERR -/

/-- The place is a word of a configuration register that a lock holds (10_state.md R33). The words of a slot from W/32
up are no part of the register (log 10). -/
def State.LockedAt (s : State) : Place → Prop
  | .bitsize => s.clocked = true
  | .config r j => j < s.params.w / 32 ∧ s.configLocked r = true
  | _ => False

theorem State.requestLocks_hosterr (s : State) (v : Word32) : (s.requestLocks v).hosterr = s.hosterr := by
  simp only [State.requestLocks, State.requestCurveLock_eq, State.requestFieldLock_eq]

theorem State.setConfig_hosterr (s : State) (r : ConfigReg) (v : Elem) : (s.setConfig r v).hosterr = s.hosterr := by
  cases r <;> rfl

/-- A write that is taken sets HOSTERR exactly where a lock holds the register (20_memory.md R72). -/
theorem State.storeAt_hosterr_iff {s : State} (hh : s.hosterr = false) (o : Nat) (pl : Place) (v : Word32) :
    (s.storeAt o pl v).hosterr = true ↔ s.LockedAt pl := by
  cases pl with simp only [State.storeAt, State.LockedAt, iff_false]
  | id | param | pc | errcode | errpc | errcmd | b58ver => simp [hh]
  | entry | ptag | b58n | blen | slen | field | buf | str | cmd => simp [hh]
  | ctrl => split <;> simp [hh]
  | status => simp [hh]
  | cfg => simp [State.requestLocks_hosterr, hh]
  | bitsize => cases hc : s.clocked <;> simp [hh]
  | config r j =>
    by_cases hj : s.params.slotWords ≤ j
    · simp [hj, hh, show ¬ j < s.params.w / 32 from not_lt.mpr hj]
    · cases hl : s.configLocked r <;>
        simp [hj, hh, State.setConfig_hosterr, show j < s.params.w / 32 from not_le.mp hj]

/-- P has the field lock, the other registers the curve lock (10_state.md R29). -/
theorem State.configLocked_eq (s : State) (r : ConfigReg) :
    s.configLocked r = if r = .p then s.flocked else s.clocked := by
  cases r <;> rfl

theorem configSlot_of_ne_p {r : ConfigReg} (h : r ≠ .p) : 0x140 ≤ configSlot r := by
  cases r with
  | p => exact absurd rfl h
  | _ => decide

/-- The offsets of the locked registers: P under the field lock, BITSIZE and A to N under the curve lock (10_state.md
R29, R33; 20_memory.md R63). -/
theorem State.lockedAt_iff {s : State} {o : Nat} {pl : Place} (ho : o % 4 = 0) (hpl : locate s.params o = some pl) :
    s.LockedAt pl ↔
      (s.flocked = true ∧ 0x100 ≤ o ∧ o < 0x140 ∧ o % 0x40 < 4 * (s.params.w / 32)) ∨
      (s.clocked = true ∧ (o = 0x02C ∨ (0x140 ≤ o ∧ o < 0x280 ∧ o % 0x40 < 4 * (s.params.w / 32)))) := by
  by_cases hslot : 0x100 ≤ o ∧ o < 0x280
  · obtain ⟨r, j, hj, hoj⟩ := exists_configSlot ho hslot.1 hslot.2
    obtain ⟨_, _, hplace⟩ := accessPlace_some (accessPlace_configSlot s.params r hj)
    cases (hoj ▸ hplace).symm.trans hpl
    have haligned : configSlot r % 0x40 = 0 := by cases r <;> rfl
    have hword : o % 0x40 < 4 * (s.params.w / 32) ↔ j < s.params.w / 32 := by omega
    have hbit : o ≠ 0x02C := by omega
    by_cases hr : r = .p
    · subst hr
      have hlt : o < 0x140 := by simp only [configSlot] at hoj; omega
      simp [State.LockedAt, State.configLocked_eq, hword, hbit, hslot, hlt, not_le.mpr hlt, and_comm]
    · have hge : 0x140 ≤ o := (configSlot_of_ne_p hr).trans (by omega)
      simp [State.LockedAt, State.configLocked_eq, hr, hword, hbit, hslot, hge, not_lt.mpr hge, and_comm]
  · by_cases hbit : o = 0x02C
    · subst hbit
      cases hpl
      simp [State.LockedAt]
    · have hnot : ¬ s.LockedAt pl := by
        cases pl with
        | bitsize => exact absurd (locate_bitsize hpl) hbit
        | config r j =>
          obtain ⟨hj, rfl⟩ := locate_config ho hpl
          exact absurd (by cases r <;> simp only [configSlot] <;> omega) hslot
        | _ => exact id
      simp only [hnot, false_iff]
      rintro (⟨_, h⟩ | ⟨_, h⟩) <;> omega

/-- Settles O52: a read sets HOSTERR when it is refused; a write when it is refused, dropped while busy, or taken at a
locked register. -/
theorem hosterrIsSetByTheseAccessesOnly : Obligations.HosterrIsSetByTheseAccessesOnly := by
  intro s o w v _ hh
  constructor
  · rw [← accessPlace_eq_none_iff]
    rcases s.hostRead_cases o w with ⟨hnone, h⟩ | ⟨pl, hpl, ⟨h, _⟩ | ⟨h, _⟩⟩ <;> rw [h]
    · simp [hnone]
    · simp [hpl, hh]
    · simp [hpl, hh]
  · rw [← accessPlace_eq_none_iff]
    rcases s.hostWrite_cases o w v with ⟨hnone, h⟩ | ⟨pl, hpl, hw⟩
    · rw [h]; simp [hnone]
    · obtain ⟨rfl, ho, hplace⟩ := accessPlace_some hpl
      have hne : o ≠ 0x00C ↔ pl ≠ .status := by
        constructor
        · rintro h rfl; exact h (locate_status hplace)
        · rintro h rfl; cases hplace; exact h rfl
      rw [← State.lockedAt_iff ho hplace, hpl, hne]
      rcases hw with ⟨hb, hs, h⟩ | ⟨hb, h⟩ <;> rw [h]
      · simp [hb, hs]
      · rw [State.answer_hosterr, State.storeAt_hosterr_iff hh]
        rcases hb with hb | hb <;> simp [hb]

/-! ### Slots of words -/

/-- A written slot word gives its bits, and the other bits of the register stay (20_memory.md R66). -/
theorem testBit_slotWrite (c : Params) (v : Elem) (j : Nat) (w : Word32) (b : Nat) :
    (slotWrite c v j w).testBit b =
      if j < c.w / 32 ∧ 32 * j ≤ b ∧ b < 32 * j + 32 then w.getLsbD (b - 32 * j) else v.testBit b := by
  unfold slotWrite Params.slotWords
  by_cases hj : j < c.w / 32
  · simp only [hj, if_true, true_and, Nat.testBit_or, Nat.testBit_shiftLeft, Nat.testBit_shiftRight,
      Nat.testBit_mod_two_pow, BitVec.testBit_toNat]
    rcases lt_or_ge b (32 * j) with hlow | hge
    · simp [hlow, show ¬ 32 * (j + 1) ≤ b by omega, not_le.mpr hlow]
    · rcases lt_or_ge b (32 * j + 32) with hmid | hhigh
      · simp [hge, hmid, show ¬ 32 * (j + 1) ≤ b by omega]
      · have hsum : 32 * (j + 1) + (b - 32 * (j + 1)) = b := by omega
        simp [hge, not_lt.mpr hge, not_lt.mpr hhigh, hsum, show 32 * (j + 1) ≤ b by omega,
          show 32 ≤ b - 32 * j by omega]
  · simp [hj]

theorem State.setConfig_config (s : State) (r : ConfigReg) : s.setConfig r (s.config r) = s := by
  cases r <;> rfl

theorem State.config_answer (s : State) (d : Word32) (r : ConfigReg) : (s.answer d).config r = s.config r := by
  cases r <;> rfl

/-- An unlocked configuration register takes the word at any place of its slot; the upper words leave it as it is
(20_memory.md R66). -/
theorem State.storeAt_config_unlocked {s : State} {r : ConfigReg} (h : s.configLocked r = false) {o j : Nat}
    {v : Word32} : s.storeAt o (.config r j) v = s.setConfig r (slotWrite s.params (s.config r) j v) := by
  simp only [State.storeAt, h]
  by_cases hj : s.params.slotWords ≤ j
  · rw [if_pos hj, slotWrite, if_neg (not_lt.mpr hj), State.setConfig_config]
  · rw [if_neg hj]; rfl

/-- The upper words of a slot take no write, locked or not (20_memory.md R66; log 10). -/
theorem State.storeAt_config_upper {s : State} {j : Nat} (h : s.params.w / 32 ≤ j) (o : Nat) (r : ConfigReg)
    (v : Word32) : s.storeAt o (.config r j) v = s :=
  if_pos h

/-- Settles O58: a slot word is read and written at its place, bit by bit. -/
theorem wideRegistersAreSlotsOfWords : Obligations.WideRegistersAreSlotsOfWords := by
  intro s v j hb hj
  refine ⟨fun i => ⟨State.hostRead_reply_idle hb (accessPlace_fieldSlot _ i hj), ?field⟩,
    fun r => ⟨State.hostRead_reply_idle hb (accessPlace_configSlot _ r hj), fun hopen => ?config,
      fun _ hup => ?upper⟩⟩
  case field =>
    refine ⟨_, 0#32, State.hostWrite_idle hb (accessPlace_fieldSlot _ i hj) v, rfl, fun k hk => ?_, fun b => ?_⟩
    · exact State.x_setX_other s _ hk
    · exact (congrArg (Nat.testBit · b) (State.x_setX_same s i _)).trans (testBit_slotWrite _ _ _ _ _)
  case config =>
    refine ⟨_, 0#32, State.hostWrite_idle hb (accessPlace_configSlot _ r hj) v, ?_, fun b => ?_⟩ <;>
      rw [State.storeAt_config_unlocked hopen, State.config_answer, State.config_setConfig, if_pos rfl]
    · rfl
    · exact testBit_slotWrite _ _ _ _ _
  case upper =>
    rw [State.hostWrite_idle hb (accessPlace_configSlot _ r hj), State.storeAt_config_upper hup]
    exact ⟨0#32, rfl⟩

/-! ### Words of the byte memory -/

/-- Lane k of a word is the byte at its offset (20_memory.md R65, R67). -/
theorem Memory.extractLsb'_readWord (m : Memory) (o : Nat) {k : Nat} (hk : k < 4) :
    (m.readWord o).extractLsb' (8 * k) 8 = m.read (o + k) := by
  interval_cases k <;>
    simp (disch := omega) only [Memory.readWord, BitVec.extractLsb'_append_eq_of_add_le,
      BitVec.extractLsb'_append_eq_of_le, Nat.reduceMul, Nat.reduceSub, BitVec.extractLsb'_eq_self, Nat.add_zero]

theorem Memory.read_writeWord {m : Memory} (hm : m.wf) (o : Nat) (v : Word32) {k : Nat} (hk : k < 4) :
    (m.writeWord o v).read (o + k) = v.extractLsb' (8 * k) 8 := by
  rw [← Memory.extractLsb'_readWord _ _ hk, Memory.readWord_writeWord hm]

theorem Memory.read_writeWord_outside {m : Memory} (hm : m.wf) {o a : Nat} (v : Word32) (h : ¬ (o ≤ a ∧ a < o + 4)) :
    (m.writeWord o v).read a = m.read a :=
  Memory.read_writeBytes_outside hm h

/-- Settles O59: the word at an offset of the byte memory is read and written there, lane by lane. -/
theorem buffersAndCommandsAreWindowWords : Obligations.BuffersAndCommandsAreWindowWords := by
  intro s o v hb hm ho hregion
  obtain ⟨pl, hpl, hmem⟩ := accessPlace_memory ho ((memoryOffset_iff s.params o).mpr hregion)
  have hread : s.stored o pl = s.mem.readWord o := by rcases hmem with rfl | rfl | rfl <;> rfl
  have hwrite : s.storeAt o pl v = { s with mem := s.mem.writeWord o v } := by
    rcases hmem with rfl | rfl | rfl <;> rfl
  refine ⟨⟨_, State.hostRead_reply_idle hb hpl, fun k hk => ?_⟩, _, 0#32, State.hostWrite_idle hb hpl v, ?_⟩
  · rw [hread, Memory.extractLsb'_readWord _ _ hk]
  · rw [hwrite]
    exact ⟨rfl, fun k hk => Memory.read_writeWord hm o v hk, fun a ha => Memory.read_writeWord_outside hm v ha,
      fun i hi => hi ▸ Memory.readWord_writeWord hm o v⟩

/-! ### Reads -/

/-- Only STATUS shows BUSY. -/
theorem State.stored_of_ne_status (s : State) (o : Nat) {pl : Place} (h : pl ≠ .status) (busy : Bool) :
    State.stored { s with busy := busy } o pl = s.stored o pl := by
  cases pl with
  | status => exact absurd rfl h
  | _ => rfl

/-- A read of a register that the engine does not write is the same while busy and while idle (20_memory.md R73). -/
theorem State.hostRead_reply_as_idle {s : State} {o : Nat} {pl : Place} (hpl : accessPlace s.params o 4 = some pl)
    (hspec : unspecifiedWhileBusy s.params pl = false) :
    (s.hostRead o 4).reply = (State.hostRead { s with busy := false } o 4).reply := by
  have hne : pl ≠ .status := by rintro rfl; cases hspec
  rw [State.hostRead_reply hpl (by rw [hspec, Bool.and_false]),
    State.hostRead_reply_idle (s := { s with busy := false }) rfl hpl, State.stored_of_ne_status s o hne false]

/-- CMDMEM stands at its offsets, since BUF and STR end below them (00_scope.md R6). -/
theorem accessPlace_cmd {c : Params} (hc : c.allowed = true) {o : Nat} (ho : o % 4 = 0) (hlo : 0xC00 ≤ o)
    (hhi : o < 0xD00) : accessPlace c o 4 = some .cmd := by
  obtain ⟨_, _, _, _, hbuf, _, _, _, hstr⟩ := c.allowed_iff.mp hc
  rw [accessPlace, if_pos ⟨rfl, ho⟩]
  unfold locate bufBase strBase cmdBase
  repeat rw [if_neg (by omega)]
  rw [if_pos (by omega)]

theorem State.hostRead_status_busy {s : State} (hb : s.busy = true) :
    (s.hostRead 0x00C 4).reply = some ⟨s.statusWord ((Config.freeRead s.draws).getLsbD 0), false⟩ := by
  have hpl : accessPlace s.params 0x00C 4 = some .status := rfl
  simp only [State.hostRead, hpl, State.readWord, hb]
  rfl

/-- Settles O60: a performed read only answers and may count a draw; while busy it shows the stored word of what the
engine does not write, and STATUS bit by bit. -/
theorem readsHaveNoSideEffects : Obligations.ReadsHaveNoSideEffects := by
  refine ⟨fun s o w _ hmapped => ?performed, fun s o hc _ ho hoffset => ?asStored, fun s hb => ?status⟩
  case performed =>
    rcases s.hostRead_cases o w with ⟨hnone, _⟩ | ⟨pl, _, ⟨h, _⟩ | ⟨h, _⟩⟩
    · exact absurd (accessPlace_eq_none_iff.mp hnone) hmapped
    · exact ⟨_, s.draws, h⟩
    · exact ⟨_, _, h⟩
  case asStored =>
    rcases hoffset with hcontrol | ⟨hlo, hhi⟩ | ⟨hlo, hhi⟩
    · have hplace : ∀ k ∈ [0x000, 0x004, 0x008, 0x010, 0x014, 0x01C, 0x020, 0x024, 0x02C, 0x030],
          ∃ pl, accessPlace s.params k 4 = some pl ∧ unspecifiedWhileBusy s.params pl = false := by
        simp only [List.forall_mem_cons]
        exact ⟨⟨.id, rfl, rfl⟩, ⟨.param, rfl, rfl⟩, ⟨.ctrl, rfl, rfl⟩, ⟨.cfg, rfl, rfl⟩, ⟨.entry, rfl, rfl⟩,
          ⟨.errcode, rfl, rfl⟩, ⟨.errpc, rfl, rfl⟩, ⟨.errcmd, rfl, rfl⟩, ⟨.bitsize, rfl, rfl⟩, ⟨.b58n, rfl, rfl⟩, nofun⟩
      obtain ⟨pl, hpl, hspec⟩ := hplace o hcontrol
      exact State.hostRead_reply_as_idle hpl hspec
    · obtain ⟨r, j, hj, rfl⟩ := exists_configSlot ho hlo hhi
      exact State.hostRead_reply_as_idle (accessPlace_configSlot s.params r hj) rfl
    · exact State.hostRead_reply_as_idle (accessPlace_cmd hc ho hlo hhi) rfl
  case status =>
    obtain ⟨_, _, hbusy, hdone, herr, hhosterr, _, hirq, hreserved⟩ :=
      statusClearsByOnesAndShowsIrq s 0#32 ((Config.freeRead s.draws).getLsbD 0)
    refine ⟨_, State.hostRead_status_busy hb, hbusy.trans hb, hdone, herr, hhosterr, hirq, hreserved, fun hinv => ?_⟩
    obtain ⟨hd, he, _⟩ := hinv.running hb
    exact ⟨hdone.trans hd, herr.trans he⟩

/-! ### The agenda -/

/-- A step takes the turn listed first, which the agenda no longer lists (log 1). -/
theorem step_of_agenda {s : State} {t : Turn} {rest : List Turn} (h : s.agenda = t :: rest) :
    step s = takeTurn engineStep t { s with agenda := rest } := by
  rw [step, h]

/-- Settles O6: the turn's own definition, by whether its offset lies in the window. -/
theorem stepTakesTheListedTurn : Obligations.StepTakesTheListedTurn := by
  intro s rest o w v
  refine ⟨fun h ho => ?_, fun h ho => ?_, fun h ho => ?_, fun h ho => ?_, fun h => step_of_agenda h⟩ <;>
    rw [step_of_agenda h, takeTurn]
  · exact if_pos ho
  · exact if_pos ho
  · exact if_neg ho
  · exact if_neg ho

end Sys2Proof.Machine
end

section
/-! ## Encoding

The decoder and the encoder against each other and against the opcode map (30_encoding.md R91 to R100). The round trip
rests on how each kind of field is read from a word and written into one; the comparison with the opcode map on how a
row's mask tests the bits a format reserves. -/

namespace Sys2Proof

/-! ### The parts of a word -/

theorem opcodeOf_encode (i : Instr) : opcodeOf (encode i) = i.opcode := opcodeOf_append _ _

theorem word_eq_iff {v w : Word32} :
    v = w ↔ opcodeOf v = opcodeOf w ∧ v.extractLsb' 0 26 = w.extractLsb' 0 26 := by
  have hparts (u : Word32) : opcodeOf u ++ u.extractLsb' 0 26 = u :=
    BitVec.extractLsb'_append_extractLsb' (w := 6)
  exact ⟨fun h => h ▸ ⟨rfl, rfl⟩, fun ⟨hop, hf⟩ => by rw [← hparts v, hop, hf, hparts]⟩

theorem encode_eq_of_parts {w : Word32} {i : Instr} (hop : (opcodeOf w).toNat = i.opcode.toNat)
    (hf : i.fieldBits = w.extractLsb' 0 26) : encode i = w := by
  rw [word_eq_iff, opcodeOf_encode, extract_encode i (by decide), BitVec.extractLsb'_eq_self]
  exact ⟨BitVec.eq_of_toNat_eq hop.symm, hf⟩

/-! ### The fields of a word: written, then read -/

theorem fregAt_eq_toFin (w : Word32) (lo : Nat) : fregAt w lo = (w.extractLsb' lo 4).toFin := rfl

theorem pregAt_eq_toFin (w : Word32) (lo : Nat) : pregAt w lo = (w.extractLsb' lo 3).toFin := rfl

theorem toFin_fregBits (r : FReg) : (fregBits r).toFin = r := Fin.ext (Nat.mod_eq_of_lt r.isLt)

theorem toFin_pregBits (q : PReg) : (pregBits q).toFin = q := Fin.ext (Nat.mod_eq_of_lt q.isLt)

theorem endian_of_endianBit (e : Endian) : (if endianBit e = 1#1 then Endian.little else .big) = e := by
  cases e <;> rfl

theorem beq_one_of_ofBool (neg : Bool) : (BitVec.ofBool neg == 1#1) = neg := by cases neg <;> rfl

theorem selOf_selBits (sel : Sel) : selOf (selBits sel).toNat = .ok sel := by cases sel <;> rfl

/-! ### The fields of a word: read, then written -/

theorem fregBits_fregAt (w : Word32) (lo : Nat) : fregBits (fregAt w lo) = w.extractLsb' lo 4 :=
  BitVec.eq_of_toFin_eq (toFin_fregBits _)

theorem pregBits_pregAt (w : Word32) (lo : Nat) : pregBits (pregAt w lo) = w.extractLsb' lo 3 :=
  BitVec.eq_of_toFin_eq (toFin_pregBits _)

theorem endianBit_endianAt (w : Word32) : endianBit (endianAt w) = w.extractLsb' 8 1 := by
  rcases BitVec.eq_zero_or_eq_one (w.extractLsb' 8 1) with h | h <;> simp [endianAt, endianBit, h]

theorem ofBool_of_beq_one (b : BitVec 1) : BitVec.ofBool (b == 1#1) = b := by
  rcases BitVec.eq_zero_or_eq_one b with rfl | rfl <;> rfl

theorem selBits_of_selOf {b : BitVec 4} {sel : Sel} (h : selOf b.toNat = .ok sel) : selBits sel = b := by
  revert b; cases sel <;> decide

/-! ### The arms of the decoder -/

theorem selOf_cases (n : Nat) : (∃ sel, selOf n = .ok sel) ∨ selOf n = .error .reservedSelector := by
  unfold selOf
  split <;> simp

theorem selOf_map_eq_ok {n : Nat} {mk : Sel → Instr} {i : Instr} (h : (selOf n).map mk = .ok i) :
    ∃ sel, selOf n = .ok sel ∧ mk sel = i := by
  rcases selOf_cases n with ⟨sel, hsel⟩ | hsel <;> rw [hsel] at h <;> cases h
  exact ⟨sel, hsel, rfl⟩

theorem ite_error_eq_ok_iff {p : Prop} [Decidable p] {d : Except Illegal Instr} {e : Illegal} {i : Instr} :
    (if p then d else .error e) = .ok i ↔ p ∧ d = .ok i := by
  by_cases h : p <;> simp [h]

theorem ifReservedZero_eq_ok_iff {zero : Bool} {i j : Instr} :
    ifReservedZero zero i = .ok j ↔ zero = true ∧ i = j := by
  rw [ifReservedZero, ite_error_eq_ok_iff, Except.ok.injEq]

theorem decodeFold_eq_ok_iff {w : Word32} {mk : FReg → FReg → Count → Instr} {i : Instr} :
    decodeFold w mk = .ok i ↔ w.extractLsb' 0 14 = 0#14 ∧ windowFits (fregAt w 18) (fregAt w 14) ∧
      mk (fregAt w 22) (fregAt w 18) (fregAt w 14) = i := by
  rw [decodeFold, ite_error_eq_ok_iff, ite_error_eq_ok_iff, Except.ok.injEq]

theorem decodeFold_encode {i : Instr} {rd rs : FReg} {cnt : Count} (mk : FReg → FReg → Count → Instr)
    (hi : i.fieldBits = fregBits rd ++ fregBits rs ++ fregBits cnt ++ 0#14) (hfit : windowFits rs cnt) :
    decodeFold (encode i) mk = .ok (mk rd rs cnt) := by
  simp (disch := omega) only [decodeFold, extract_encode, hi, fregAt_eq_toFin, toFin_fregBits,
    BitVec.extractLsb'_append_eq_of_add_le, BitVec.extractLsb'_append_eq_of_le, BitVec.extractLsb'_eq_self,
    Nat.reduceSub, if_true, if_pos hfit]

/-! ### The round trip -/

/-- Settles O10, command by command: its opcode selects its arm, and the arm reads each field where the encoder put
it. A folding command's window is the only constraint its types do not say (R97). -/
theorem decodeOfEncodeIsTheCommand : Obligations.DecodeOfEncodeIsTheCommand := by
  intro i hwf
  rw [decode, opcodeOf_encode]
  cases i with
  | faddn rd rs cnt => exact decodeFold_encode _ rfl (of_decide_eq_true hwf)
  | fsubn rd rs cnt => exact decodeFold_encode _ rfl (of_decide_eq_true hwf)
  | fmuln rd rs cnt => exact decodeFold_encode _ rfl (of_decide_eq_true hwf)
  | _ =>
    simp (disch := omega) only [Instr.opcode, BitVec.reduceToNat, extract_encode, Instr.fieldBits,
      BitVec.extractLsb'_append_eq_of_add_le, BitVec.extractLsb'_append_eq_of_le, BitVec.extractLsb'_eq_self,
      BitVec.extractLsb'_zero, Nat.reduceSub, beq_self_eq_true, Bool.and_self, ifReservedZero, if_true,
      fregAt_eq_toFin, toFin_fregBits, pregAt_eq_toFin, toFin_pregBits, endianAt, endian_of_endianBit,
      beq_one_of_ofBool, selOf_selBits, Except.map]

/-- Settles O11, by the arm the opcode selects: its fields and its reserved zeros, joined again, are bits 25..0 of the
word. -/
theorem encodeOfDecodeIsTheWord : Obligations.EncodeOfDecodeIsTheWord := by
  intro w i h
  unfold decode at h
  split at h
  case h_5 hop => -- FLDC
    obtain ⟨hzero, h⟩ := ite_error_eq_ok_iff.mp h
    obtain ⟨sel, hsel, rfl⟩ := selOf_map_eq_ok h
    refine ⟨encode_eq_of_parts hop ?_, rfl⟩
    simp only [Instr.fieldBits, fregBits_fregAt, selBits_of_selOf hsel, ← hzero,
      BitVec.extractLsb'_append_extractLsb'_eq_extractLsb']
  case h_14 hop | h_15 hop | h_16 hop => -- the folding commands
    obtain ⟨hzero, hfit, rfl⟩ := decodeFold_eq_ok_iff.mp h
    refine ⟨encode_eq_of_parts hop ?_, decide_eq_true hfit⟩
    simp only [Instr.fieldBits, fregBits_fregAt, ← hzero, BitVec.extractLsb'_append_extractLsb'_eq_extractLsb']
  case h_26 => cases h -- an unassigned opcode
  all_goals
    rename_i hop
    obtain ⟨hzero, rfl⟩ := ifReservedZero_eq_ok_iff.mp h
    simp only [Bool.and_eq_true, beq_iff_eq] at hzero
    refine ⟨encode_eq_of_parts hop ?_, rfl⟩
    simp only [Instr.fieldBits, fregBits_fregAt, pregBits_pregAt, endianBit_endianAt, ofBool_of_beq_one, ← hzero,
      BitVec.extractLsb'_append_extractLsb'_eq_extractLsb']

/-! ### The rows of the opcode map -/

/-- A row's opcode: bits 31..26 of its match (R96). -/
def OpcodeRow.opcode (r : OpcodeRow) : BitVec 6 := opcodeOf r.bits

/-- A row's reserved-zero bits: what its mask covers below the opcode (R96). -/
def OpcodeRow.reserved (r : OpcodeRow) : BitVec 26 := r.mask.extractLsb' 0 26

/-- R98: the opcodes of the rows differ. -/
theorem opcodeTable_opcodes_nodup : (opcodeTable.map OpcodeRow.opcode).Nodup := by decide

theorem opcodeTable_opcodes : opcodeTable.map (·.opcode.toNat) =
    [0x01, 0x02, 0x03, 0x04, 0x05, 0x06, 0x07, 0x08, 0x09, 0x0A, 0x0B, 0x0C, 0x0D, 0x10, 0x11, 0x12,
     0x18, 0x19, 0x1A, 0x1B, 0x1C, 0x20, 0x21, 0x28, 0x29] := by decide

theorem opcodeTable_masks :
    ∀ r ∈ opcodeTable, opcodeOf r.mask = BitVec.allOnes 6 ∧ r.bits.extractLsb' 0 26 = 0#26 := by decide

theorem OpcodeRow.selects_iff {r : OpcodeRow} (hr : r ∈ opcodeTable) (w : Word32) :
    r.selects w ↔ opcodeOf w = r.opcode ∧ w.extractLsb' 0 26 &&& r.reserved = 0#26 := by
  obtain ⟨hmask, hbits⟩ := opcodeTable_masks r hr
  have hop : opcodeOf (w &&& r.mask) = opcodeOf w := by
    rw [opcodeOf, BitVec.extractLsb'_and, ← opcodeOf, ← opcodeOf, hmask, BitVec.and_allOnes]
  rw [OpcodeRow.selects, word_eq_iff, hop, hbits, BitVec.extractLsb'_and, OpcodeRow.opcode, OpcodeRow.reserved]

theorem OpcodeRow.opcode_of_selects {r : OpcodeRow} (hr : r ∈ opcodeTable) {w : Word32} (h : r.selects w) :
    opcodeOf w = r.opcode :=
  ((OpcodeRow.selects_iff hr w).mp h).1

/-! ### Reserved-zero bits, by mask and by range -/

/-- Ones at bits `lo+len-1..lo`. -/
def onesAt (lo len : Nat) : BitVec 26 := (BitVec.allOnes len).setWidth 26 <<< lo

section
variable {w : Word32} {lo len lo' len' : Nat}

theorem getLsbD_and_onesAt (x : BitVec 26) {j : Nat} (hj : j < 26) :
    (x &&& onesAt lo len).getLsbD j = (x.getLsbD j && decide (lo ≤ j ∧ j < lo + len)) := by
  rw [Bool.eq_iff_iff]
  simp [onesAt, hj]
  omega

theorem and_onesAt_eq_zero_iff (h : lo + len ≤ 26 := by decide) :
    w.extractLsb' 0 26 &&& onesAt lo len = 0#26 ↔ w.extractLsb' lo len = 0#len := by
  constructor <;> intro hz <;> apply BitVec.eq_of_getLsbD_eq <;> intro j hj
  · have hin : lo + j < 26 := by omega
    have hbit := getLsbD_and_onesAt (lo := lo) (len := len) (w.extractLsb' 0 26) hin
    simpa [hz, hin, hj] using hbit
  · rw [getLsbD_and_onesAt _ hj]
    by_cases hin : lo ≤ j ∧ j < lo + len
    · have hbit := congrArg (·.getLsbD (j - lo)) hz
      have hlen : j - lo < len := by omega
      have hsub : lo + (j - lo) = j := by omega
      simpa [hlen, hsub, hin, hj] using hbit
    · simp [hin]

theorem beq_zero_iff {m : BitVec 26} (hm : m = onesAt lo len) (h : lo + len ≤ 26 := by decide) :
    (w.extractLsb' lo len == 0#len) = true ↔ w.extractLsb' 0 26 &&& m = 0#26 := by
  rw [beq_iff_eq, hm, and_onesAt_eq_zero_iff h]

theorem beq_zero_and_iff {m : BitVec 26} (hm : m = onesAt lo len ||| onesAt lo' len')
    (h : lo + len ≤ 26 := by decide) (h' : lo' + len' ≤ 26 := by decide) :
    (w.extractLsb' lo len == 0#len && w.extractLsb' lo' len' == 0#len') = true ↔
      w.extractLsb' 0 26 &&& m = 0#26 := by
  rw [Bool.and_eq_true, beq_zero_iff rfl h, beq_zero_iff rfl h', hm, BitVec.and_or_distrib_left,
    BitVec.or_eq_zero_iff]

end

/-! ### Each arm of the decoder follows its row -/

/-- `d` answers the word `w` as the row `r` of w's opcode says: a command is the row's, and the answer is "reserved
bit" exactly when the row does not select w (R96, R100). -/
structure FollowsRow (w : Word32) (d : Except Illegal Instr) (r : OpcodeRow) : Prop where
  listed : r ∈ opcodeTable
  opcode : opcodeOf w = r.opcode
  named : ∀ i, d = .ok i → i.mnemonic = r.mnemonic
  assigned : d ≠ .error .unassignedOpcode
  reserved : d = .error .reservedBit ↔ ¬ r.selects w

theorem FollowsRow.selects {w : Word32} {d : Except Illegal Instr} {r : OpcodeRow} (h : FollowsRow w d r)
    {i : Instr} (hd : d = .ok i) : r.selects w := by
  by_contra hsel
  cases hd.symm.trans (h.reserved.mpr hsel)

section
variable {w : Word32} (k : Nat) (hk : k < opcodeTable.length)
  (hop : (opcodeOf w).toNat = opcodeTable[k].opcode.toNat)
include hop

/-- Behind the test of the reserved bits, an arm gives its row's command or breaks a constraint of R97. -/
theorem followsRow_ite {p : Prop} [Decidable p] {d : Except Illegal Instr}
    (hp : p ↔ w.extractLsb' 0 26 &&& opcodeTable[k].reserved = 0#26)
    (hd : (∃ i, d = .ok i ∧ i.mnemonic = opcodeTable[k].mnemonic) ∨ d = .error .reservedSelector ∨
      d = .error .windowPastF15) :
    ∃ r, FollowsRow w (if p then d else .error .reservedBit) r := by
  have hopcode : opcodeOf w = opcodeTable[k].opcode := BitVec.eq_of_toNat_eq hop
  have hselects : opcodeTable[k].selects w ↔ p := by
    rw [OpcodeRow.selects_iff (List.getElem_mem hk), ← hp, and_iff_right hopcode]
  clear hp -- the row speaks through `hselects` only
  refine ⟨_, List.getElem_mem hk, hopcode, ?_, ?_, ?_⟩
  all_goals rcases hd with ⟨i, rfl, hname⟩ | rfl | rfl <;> by_cases h : p <;> simp [*]

theorem ifReservedZero_followsRow {zero : Bool} {i : Instr}
    (hzero : zero = true ↔ w.extractLsb' 0 26 &&& opcodeTable[k].reserved = 0#26)
    (hname : i.mnemonic = opcodeTable[k].mnemonic) : ∃ r, FollowsRow w (ifReservedZero zero i) r :=
  followsRow_ite k hk hop hzero (.inl ⟨i, rfl, hname⟩)

theorem decodeFold_followsRow {mk : FReg → FReg → Count → Instr} (hm : opcodeTable[k].reserved = onesAt 0 14)
    (hname : ∀ rd rs cnt, (mk rd rs cnt).mnemonic = opcodeTable[k].mnemonic) :
    ∃ r, FollowsRow w (decodeFold w mk) r := by
  refine followsRow_ite k hk hop (by rw [hm, and_onesAt_eq_zero_iff]) ?_
  split
  · exact .inl ⟨_, rfl, hname _ _ _⟩
  · exact .inr (.inr rfl)

end

/-- What the decoder can do, by the opcode: an unassigned one is illegal, an assigned one follows its row. -/
theorem decode_followsRow (w : Word32) :
    (decode w = .error .unassignedOpcode ∧ ∀ r ∈ opcodeTable, opcodeOf w ≠ r.opcode) ∨
    ∃ r, FollowsRow w (decode w) r := by
  unfold decode
  split
  case h_26 => -- an unassigned opcode
    refine .inl ⟨rfl, fun r hr hop => ?_⟩
    have hmem : (opcodeOf w).toNat ∈ opcodeTable.map (·.opcode.toNat) :=
      List.mem_map.mpr ⟨r, hr, congrArg _ hop.symm⟩
    rw [opcodeTable_opcodes] at hmem
    simp only [List.mem_cons, List.not_mem_nil, or_false] at hmem
    tauto
  all_goals right; rename_i hop
  · exact ifReservedZero_followsRow 0 (by decide) hop (beq_zero_iff rfl) rfl
  · exact ifReservedZero_followsRow 1 (by decide) hop (beq_zero_iff rfl) rfl
  · exact ifReservedZero_followsRow 2 (by decide) hop (beq_zero_iff rfl) rfl
  · exact ifReservedZero_followsRow 3 (by decide) hop (beq_zero_iff rfl) rfl
  · refine followsRow_ite 4 (by decide) hop (and_onesAt_eq_zero_iff (lo := 4) (len := 18)).symm ?_
    rcases selOf_cases (w.extractLsb' 0 4).toNat with ⟨sel, hsel⟩ | hsel <;> rw [hsel]
    · exact .inl ⟨_, rfl, rfl⟩
    · exact .inr (.inl rfl)
  · exact ifReservedZero_followsRow 5 (by decide) hop (beq_zero_iff rfl) rfl
  · exact ifReservedZero_followsRow 6 (by decide) hop (beq_zero_iff rfl) rfl
  · exact ifReservedZero_followsRow 7 (by decide) hop (beq_zero_iff rfl) rfl
  · exact ifReservedZero_followsRow 8 (by decide) hop (beq_zero_iff rfl) rfl
  · exact ifReservedZero_followsRow 9 (by decide) hop (beq_zero_iff rfl) rfl
  · exact ifReservedZero_followsRow 10 (by decide) hop (beq_zero_iff rfl) rfl
  · exact ifReservedZero_followsRow 11 (by decide) hop (beq_zero_iff rfl) rfl
  · exact ifReservedZero_followsRow 12 (by decide) hop (beq_zero_iff rfl) rfl
  · exact decodeFold_followsRow 13 (by decide) hop rfl fun _ _ _ => rfl
  · exact decodeFold_followsRow 14 (by decide) hop rfl fun _ _ _ => rfl
  · exact decodeFold_followsRow 15 (by decide) hop rfl fun _ _ _ => rfl
  · exact ifReservedZero_followsRow 16 (by decide) hop (beq_zero_iff rfl) rfl
  · exact ifReservedZero_followsRow 17 (by decide) hop (beq_zero_iff rfl) rfl
  · exact ifReservedZero_followsRow 18 (by decide) hop (beq_zero_iff rfl) rfl
  · exact ifReservedZero_followsRow 19 (by decide) hop (beq_zero_and_iff rfl) rfl
  · exact ifReservedZero_followsRow 20 (by decide) hop (beq_zero_and_iff rfl) rfl
  · exact ifReservedZero_followsRow 21 (by decide) hop (beq_zero_and_iff rfl) rfl
  · exact ifReservedZero_followsRow 22 (by decide) hop (beq_zero_and_iff rfl) rfl
  · exact ifReservedZero_followsRow 23 (by decide) hop (beq_zero_iff rfl) rfl
  · exact ifReservedZero_followsRow 24 (by decide) hop (beq_zero_iff rfl) rfl

/-- Settles O12: each arm follows its row; a row selects only words of its own opcode, and no two rows share one. -/
theorem decoderAgreesWithTheOpcodeMap : Obligations.DecoderAgreesWithTheOpcodeMap := by
  refine ⟨fun w i hi => ?legal, fun w => ⟨fun herr r hr hsel => ?illegal, fun hnone => ?unselected⟩, ?disjoint⟩
  case legal =>
    rcases decode_followsRow w with ⟨hun, _⟩ | ⟨r, hrow⟩
    · cases hi.symm.trans hun
    · exact ⟨r, hrow.listed, hrow.selects hi, (hrow.named i hi).symm⟩
  case illegal =>
    have hop := OpcodeRow.opcode_of_selects hr hsel
    rcases decode_followsRow w with ⟨_, hun⟩ | ⟨q, hrow⟩
    · exact hun r hr hop
    · obtain rfl : r = q :=
        List.inj_on_of_nodup_map opcodeTable_opcodes_nodup hr hrow.listed (hop.symm.trans hrow.opcode)
      exact hrow.reserved.mp (herr.resolve_left hrow.assigned) hsel
  case unselected =>
    rcases decode_followsRow w with ⟨hun, _⟩ | ⟨r, hrow⟩
    · exact .inl hun
    · exact .inr (hrow.reserved.mpr (hnone r hrow.listed))
  case disjoint =>
    have hopcodes : opcodeTable.Pairwise (fun r q => r.opcode ≠ q.opcode) :=
      List.pairwise_map.mp opcodeTable_opcodes_nodup
    refine hopcodes.imp_of_mem fun hr hq hne w ⟨hselr, hselq⟩ => hne ?_
    rw [← OpcodeRow.opcode_of_selects hr hselr, OpcodeRow.opcode_of_selects hq hselq]

/-! ### Fixed words -/

theorem decode_of_encode_eq {w : Word32} {i : Instr} (hw : encode i = w) (hwf : i.wellFormed = true) :
    decode w = .ok i :=
  hw ▸ decodeOfEncodeIsTheCommand i hwf

/-- Settles O9: each legal word is the encoding of its command, by O10; the three illegal ones are evaluated. -/
theorem wordsOfEachFamilyDecode : Obligations.WordsOfEachFamilyDecode :=
  ⟨decode_of_encode_eq rfl rfl, decode_of_encode_eq rfl rfl, decode_of_encode_eq rfl rfl,
    decode_of_encode_eq rfl rfl, decode_of_encode_eq rfl rfl, decode_of_encode_eq rfl rfl,
    decode_of_encode_eq rfl rfl, decode_of_encode_eq rfl rfl, decode_of_encode_eq rfl rfl,
    decode_of_encode_eq rfl rfl, decode_of_encode_eq rfl rfl, decode_of_encode_eq rfl rfl,
    by decide, by decide, by decide⟩

namespace Machine

/-! ### Illegal words in a run -/

theorem engineStep_of_illegal {s : State} {r : Illegal} (hb : s.busy = true) (hd : decode s.fetch = .error r) :
    engineStep s = .next (s.stopError .illegalCommand) := by
  rw [engineStep, if_pos hb, hd]

theorem engineStep_of_idle {s : State} (hb : s.busy = false) : engineStep s = .next s := by
  rw [engineStep, hb]; rfl

theorem step_of_agenda_nil {s : State} (h : s.agenda = []) : step s = engineStep s := by
  rw [step, h]

/-- Settles O5: the engine's step on an illegal word and on idle, whether its turn is listed or no turn is. -/
theorem illegalWordStopsAndIdleEngineWaits : Obligations.IllegalWordStopsAndIdleEngineWaits := by
  refine ⟨fun s r hb hd => ⟨fun ha => ?_, fun rest ha => ?_⟩, rfl, fun s hb => ⟨fun ha => ?_, fun rest ha => ?_⟩⟩
  · exact (step_of_agenda_nil ha).trans (engineStep_of_illegal hb hd)
  · exact (step_of_agenda ha).trans (engineStep_of_illegal (s := { s with agenda := rest }) hb hd)
  · exact (step_of_agenda_nil ha).trans (engineStep_of_idle hb)
  · exact (step_of_agenda ha).trans (engineStep_of_idle (s := { s with agenda := rest }) hb)

end Machine

end Sys2Proof
end

section
/-! ## The sequencer

What a command's end does to a run (40_sequencer.md R121 to R123), the sequencer and data-movement commands (R124 to
R129), START (R120), and how every run ends (R131, R132). -/

namespace Sys2Proof.Machine

/-! ### The end of a command -/

/-- Settles O13, by the two cases of the advance; a 6-bit index below 63 has room for one more. -/
theorem advanceOrOverrun : Obligations.AdvanceOrOverrun := by
  intro s
  rcases s.advance_cases with ⟨hpc, hadv⟩ | ⟨hpc, hadv⟩
  · refine ⟨fun _ => ?_, fun h => absurd hpc h⟩
    rw [hadv, State.stopError, State.fetch, hpc]
    rfl
  · exact ⟨fun h => absurd h hpc, fun _ => ⟨hadv, by bv_omega⟩⟩

/-- After a command the run has stopped with an error, or it goes on at the next index (R121, R123). -/
theorem State.advance_progress (s : State) :
    (s.advance.busy = false ∧ s.advance.err = true) ∨
    (s.advance.busy = s.busy ∧ s.advance.pc.toNat = s.pc.toNat + 1) := by
  obtain ⟨hover, hnext⟩ := advanceOrOverrun s
  by_cases hpc : s.pc = 63#6
  · rw [hover hpc]
    exact .inl ⟨rfl, rfl⟩
  · obtain ⟨hadv, hsucc⟩ := hnext hpc
    rw [hadv]
    exact .inr ⟨rfl, hsucc⟩

theorem exec_of_effectOf_ok {i : Instr} {s u : State} (hi : i ≠ .halt) (h : effectOf i s = .ok u) :
    exec i s = .next u.advance := by
  rw [exec_eq_retire hi, h, retire_ok]

theorem exec_of_effectOf_error {i : Instr} {s : State} {e : ErrKind} (hi : i ≠ .halt) (h : effectOf i s = .error e) :
    exec i s = .next (s.stopError e) := by
  rw [exec_eq_retire hi, h, retire_error]

/-- Every command answers a next state (60_exceptions.md R236). -/
theorem exec_answers (i : Instr) (s : State) : ∃ t, exec i s = .next t := by
  by_cases hi : i = .halt
  · exact ⟨s.stopDone, hi ▸ rfl⟩
  · exact ⟨_, exec_eq_retire hi s⟩

/-! ### The sequencer and data-movement commands -/

/-- Settles O15: HALT is the end of a run, and each of the others has an effect in every state. -/
theorem haltNopMoveAndImmediateComplete : Obligations.HaltNopMoveAndImmediateComplete := by
  intro s rd rs1 imm16
  exact ⟨rfl, exec_of_effectOf_ok (i := .nop) nofun rfl, exec_of_effectOf_ok (i := .fmov rd rs1) nofun rfl,
    exec_of_effectOf_ok (i := .fldi rd imm16) nofun rfl⟩

theorem exec_fldc_locked {s : State} (rd : FReg) (sel : Sel) (h : s.selLock sel = true) :
    exec (.fldc rd sel) s = .next (s.setX rd (s.selValue sel)).advance :=
  exec_of_effectOf_ok nofun (if_pos h)

theorem exec_fldc_unlocked {s : State} {sel : Sel} (h : s.selLock sel = false) (rd : FReg) :
    exec (.fldc rd sel) s = .next (s.stopError .notConfigured) :=
  exec_of_effectOf_error nofun (if_neg (by simp [h]))

/-- The selectors of P, P - 1 and P - 2 need the field lock (R126). -/
theorem State.selLock_field (s : State) {sel : Sel} (h : sel ∈ [Sel.p, .pm1, .pm2]) : s.selLock sel = s.flocked := by
  cases sel with
  | p | pm1 | pm2 => rfl
  | a | b | gx | gy | n | bitsize => simp at h

/-- The selectors of the curve's registers need the curve lock (R126). -/
theorem State.selLock_curve (s : State) {sel : Sel} (h : sel ∈ [Sel.a, .b, .gx, .gy, .n, .bitsize]) :
    s.selLock sel = s.clocked := by
  cases sel with
  | p | pm1 | pm2 => simp at h
  | a | b | gx | gy | n | bitsize => rfl

/-- Settles O16: FLDC with its selector's lock held and without it, each selector's lock and value being the
definition's. -/
theorem fldcLoadsTheSelectedValue : Obligations.FldcLoadsTheSelectedValue := by
  intro s rd
  have locked := exec_fldc_locked (s := s) rd
  refine ⟨locked .p, fun hf _ => ⟨locked .pm1 hf, locked .pm2 hf⟩, fun hc => ?_, fun hf sel hsel => ?_,
    fun hc sel hsel => ?_⟩
  · exact ⟨locked .a hc, locked .b hc, locked .gx hc, locked .gy hc, locked .n hc, locked .bitsize hc⟩
  · exact exec_fldc_unlocked ((s.selLock_field hsel).trans hf) rd
  · exact exec_fldc_unlocked ((s.selLock_curve hsel).trans hc) rd

/-- Settles O17: PINF writes the identity to its point register and PFIN clears its tag. -/
theorem pinfAndPfinComplete : Obligations.PinfAndPfinComplete := by
  intro s q
  refine ⟨⟨s.setPoint q .inf, ?_, rfl, s.x_setPoint_inf q, fun k => s.tag_setPoint q k .inf⟩,
    ⟨s.setTag q false, ?_, rfl, fun k => s.tag_setTag q k false⟩⟩
  · exact exec_of_effectOf_ok (i := .pinf q) nofun rfl
  · exact exec_of_effectOf_ok (i := .pfin q) nofun rfl

/-! ### START -/

theorem State.storeAt_ctrl_start {v : Word32} (h : v.getLsbD 0 = true) (s : State) (o : Nat) :
    s.storeAt o .ctrl v = (s.setCtrl v).start := by
  rw [State.storeAt, if_pos h]

/-- Settles O49: a write to CTRL is taken while idle, where its bit 0 starts the run, and dropped while busy. -/
theorem startWriteStartsTheRun : Obligations.StartWriteStartsTheRun := by
  intro s v hv
  refine ⟨fun hb => ⟨0#32, ?_⟩, fun hb => ⟨0#32, ?_⟩⟩
  · rw [State.hostWrite_idle (pl := .ctrl) hb rfl, State.storeAt_ctrl_start hv]
    rfl
  · exact State.hostWrite_busy (pl := .ctrl) hb rfl nofun v

/-! ### The engine's step on a command -/

theorem engineStep_of_decode {s : State} {i : Instr} (hb : s.busy = true) (hd : decode s.fetch = .ok i) :
    engineStep s = exec i s := by
  rw [engineStep, if_pos hb, hd]

/-- Settles O4: the engine's step on a legal word, whether its turn is listed or no turn is; a word decodes to
well-formed commands only, by O11. -/
theorem stepRunsTheDecodedCommand : Obligations.StepRunsTheDecodedCommand := by
  intro s i hb hd
  refine ⟨(encodeOfDecodeIsTheWord _ i hd).2, fun ha => ?_, fun rest ha => ?_⟩
  · exact (step_of_agenda_nil ha).trans (engineStep_of_decode hb hd)
  · exact (step_of_agenda ha).trans (engineStep_of_decode (s := { s with agenda := rest }) hb hd)

/-! ### Every run ends -/

/-- A run is over, and left its mark: DONE by HALT, ERR by an error (R132). -/
def State.RunOver (s : State) : Prop := s.busy = false ∧ (s.done = true ∨ s.err = true)

theorem State.runOver_stopDone (s : State) : s.stopDone.RunOver := ⟨rfl, .inl rfl⟩

theorem State.runOver_stopError (s : State) (e : ErrKind) : (s.stopError e).RunOver := ⟨rfl, .inr rfl⟩

/-- A command ends the run, or leaves it in progress at the next index. -/
theorem exec_progress {i : Instr} {s t : State} (hb : s.busy = true) (h : exec i s = .next t) :
    t.RunOver ∨ (t.busy = true ∧ t.pc.toNat = s.pc.toNat + 1) := by
  rcases exec_cases h with ⟨_, rfl⟩ | ⟨e, _, rfl⟩ | ⟨u, hu, rfl⟩
  · exact .inl s.runOver_stopDone
  · exact .inl (s.runOver_stopError e)
  · have hwrites := effectOf_writes hu
    have hbusy : u.busy = true := by rw [hwrites]; exact hb
    have hpc : u.pc = s.pc := by rw [hwrites]
    rcases u.advance_progress with ⟨hstop, herr⟩ | ⟨hgo, hnext⟩
    · exact .inl ⟨hstop, .inr herr⟩
    · exact .inr ⟨hgo.trans hbusy, hpc ▸ hnext⟩

/-- A step of a run with no turn listed: it answers, lists none, and ends the run or goes on at the next index. -/
theorem step_progress {s : State} (ha : s.agenda = []) (hb : s.busy = true) :
    ∃ t, step s = .next t ∧ t.agenda = [] ∧ (t.RunOver ∨ (t.busy = true ∧ t.pc.toNat = s.pc.toNat + 1)) := by
  rw [step_of_agenda_nil ha]
  cases hd : decode s.fetch with
  | error r => exact ⟨_, engineStep_of_illegal hb hd, ha, .inl (s.runOver_stopError _)⟩
  | ok i =>
    obtain ⟨t, ht⟩ := exec_answers i s
    have hagenda : t.agenda = [] := by rw [exec_engineWrites ht]; exact ha
    exact ⟨t, (engineStep_of_decode hb hd).trans ht, hagenda, exec_progress hb ht⟩

theorem run_succ_of_step {M : Host.Core} {s t : M.State} (h : M.step s = .next t) (k : Nat) :
    M.run (k + 1) s = M.run k t := by
  rw [Host.Core.run, h]

/-- With no turn listed an idle machine stays as it is (60_exceptions.md R256). -/
theorem run_of_idle {s : State} (ha : s.agenda = []) (hb : s.busy = false) (k : Nat) :
    Host.Core.run core k s = .next s := by
  have hstep : step s = .next s := (step_of_agenda_nil ha).trans (engineStep_of_idle hb)
  induction k with
  | zero => rfl
  | succ k ih => exact (run_succ_of_step (M := core) hstep k).trans ih

/-- The bound of R131: every step of a run ends it or raises the index, which stays below 64. -/
theorem run_ends {k : Nat} {s : State} (h : s.Inv) (ha : s.agenda = []) (hb : s.busy = true)
    (hk : 64 ≤ s.pc.toNat + k) : ∃ t, Host.Core.run core k s = .next t ∧ t.Inv ∧ t.RunOver := by
  induction k generalizing s with
  | zero => exact absurd s.pc.isLt (by omega)
  | succ k ih =>
    obtain ⟨t, hstep, hat, hprogress⟩ := step_progress ha hb
    have hinv : t.Inv := everyStepKeepsTheInvariant s t h hstep
    have hfirst : Host.Core.run core (k + 1) s = Host.Core.run core k t := run_succ_of_step (M := core) hstep k
    rcases hprogress with hover | ⟨hbt, hpc⟩
    · exact ⟨t, hfirst.trans (run_of_idle hat hover.1 k), hinv, hover⟩
    · obtain ⟨u, hrun, hu⟩ := ih hinv hat hbt (by omega)
      exact ⟨u, hfirst.trans hrun, hu⟩

/-- A run that is over ended in exactly one of two ways (R132). -/
theorem State.Inv.ended_one_way {s : State} (h : s.Inv) (hover : s.RunOver) :
    (s.done = true ∧ s.err = false ∧ s.errcode = 0#8) ∨ (s.done = false ∧ s.err = true ∧ s.errcode ≠ 0#8) := by
  obtain ⟨_, hdone | herr⟩ := hover
  · exact .inl ⟨hdone, Bool.eq_false_iff.mpr fun herr => h.ended ⟨hdone, herr⟩, h.doneClean hdone⟩
  · exact .inr ⟨Bool.eq_false_iff.mpr fun hdone => h.ended ⟨hdone, herr⟩, herr, h.errCoded herr⟩

/-- Settles O8, by `run_ends` at 64 - PC steps. -/
theorem everyRunEnds : Obligations.EveryRunEnds := by
  intro s h ha hb
  obtain ⟨t, hrun, hinv, hover⟩ := run_ends (k := 64 - s.pc.toNat) h ha hb (by omega)
  exact ⟨t, hrun, hover.1, hinv.ended_one_way hover⟩

end Sys2Proof.Machine
end

section
/-! ## The integer codec

Byte strings and integers in either byte order (41_intcodec.md R140, R141, R145), and what TOBYTES and FROMBYTES do with
them (R142 to R144). -/

namespace Sys2Proof.Machine

/-! ### Byte strings, least significant byte first -/

theorem intLe_cons (v : Byte) (l : List Byte) : intLe (v :: l) = intLe l * 256 + v.toNat := by
  simp [intLe, intBe, List.foldl_append]

theorem intLe_lt (l : List Byte) : intLe l < 256 ^ l.length := by
  simpa [intLe] using intBe_lt l.reverse

theorem intLe_leBytes {n k : Nat} (h : n < 256 ^ k) : intLe (leBytes n k) = n := by
  induction k generalizing n with
  | zero =>
    obtain rfl : n = 0 := by simpa using h
    rfl
  | succ k ih =>
    have hrest : n / 256 < 256 ^ k := Nat.div_lt_of_lt_mul (pow_succ' 256 k ▸ h)
    rw [leBytes, intLe_cons, ih hrest, BitVec.toNat_ofNat]
    omega

theorem leBytes_intLe (l : List Byte) : leBytes (intLe l) l.length = l := by
  induction l with
  | nil => rfl
  | cons v l ih =>
    have hv : v.toNat < 256 := v.isLt
    have hrest : (intLe l * 256 + v.toNat) / 256 = intLe l := by omega
    have hfirst : (intLe l * 256 + v.toNat) % 256 = v.toNat := by omega
    rw [intLe_cons, List.length_cons, leBytes, hrest, hfirst, ih, BitVec.ofNat_toNat, BitVec.setWidth_eq]

theorem toNat_getElem_leBytes (n : Nat) {k j : Nat} (h : j < (leBytes n k).length) :
    (leBytes n k)[j].toNat = n / 256 ^ j % 256 := by
  induction k generalizing n j with
  | zero => simp at h
  | succ k ih =>
    cases j with
    | zero => simp [leBytes]
    | succ j => simp [leBytes, ih, Nat.div_div_eq_div_mul, pow_succ']

/-- The bytes least significant first, as a sum of weighted bytes. -/
theorem intLe_map_range (f : Nat → Byte) (k : Nat) :
    intLe ((List.range k).map f) = ((List.range k).map fun j => (f j).toNat * 256 ^ j).sum := by
  induction k generalizing f with
  | zero => rfl
  | succ k ih =>
    have hrest := ih (fun j => f (j + 1))
    rw [List.range_succ_eq_map, List.map_cons, List.map_map, intLe_cons]
    simp only [Function.comp_def, Nat.succ_eq_add_one, hrest, List.map_cons, List.map_map, List.sum_cons, pow_succ,
      ← mul_assoc, List.sum_map_mul_right, pow_zero, mul_one]
    omega

/-! ### The two byte orders -/

/-- The power of 256 that byte `j` of a string of `k` bytes stands for (R140). -/
def bytePlace (e : Endian) (k j : Nat) : Nat :=
  match e with
  | .big => k - 1 - j
  | .little => j

/-- Settles O38: the big-endian bytes are defined as the little-endian ones reversed. -/
theorem endiannessReversesTheBytes : Obligations.EndiannessReversesTheBytes := by
  intro n size
  unfold toBytes
  split
  · rfl
  · simp [beBytes]

theorem toBytes_little {n k : Nat} (h : n < 256 ^ k) : toBytes n k .little = some (leBytes n k) :=
  if_neg (Nat.not_lt.mpr ((lt_pow_iff_byteLen_le n k).mp h))

theorem toBytes_big {n k : Nat} (h : n < 256 ^ k) : toBytes n k .big = some (leBytes n k).reverse :=
  if_neg (Nat.not_lt.mpr ((lt_pow_iff_byteLen_le n k).mp h))

/-- A value that `k` bytes do not hold overflows in both orders. -/
theorem toBytes_overflow {n k : Nat} (h : 256 ^ k ≤ n) (e : Endian) : toBytes n k e = none :=
  if_pos (Nat.lt_of_not_le fun hle => h.not_gt ((lt_pow_iff_byteLen_le n k).mpr hle))

theorem fromBytes_big (l : List Byte) : fromBytes l .big = intLe l.reverse := by
  rw [intLe, List.reverse_reverse, fromBytes]

/-- A value that `k` bytes hold has a byte string of that length: its bytes are the value's digits in base 256, and it
reads as the value. -/
theorem exists_toBytes {n k : Nat} (h : n < 256 ^ k) (e : Endian) :
    ∃ r, toBytes n k e = some r ∧ fromBytes r e = n ∧
      ∀ (j : Nat) (hj : j < r.length), r[j].toNat = n / 256 ^ bytePlace e k j % 256 := by
  cases e with
  | big =>
    refine ⟨_, toBytes_big h, by rw [fromBytes_big, List.reverse_reverse, intLe_leBytes h], fun j hj => ?_⟩
    rw [List.getElem_reverse, toNat_getElem_leBytes, length_leBytes, bytePlace]
  | little => exact ⟨_, toBytes_little h, intLe_leBytes h, fun j hj => toNat_getElem_leBytes n hj⟩

/-- The bytes of a byte string's value are the byte string. -/
theorem toBytes_fromBytes (l : List Byte) (e : Endian) : toBytes (fromBytes l e) l.length e = some l := by
  cases e with
  | big =>
    have hbytes := leBytes_intLe l.reverse
    have hfits := intLe_lt l.reverse
    rw [List.length_reverse] at hbytes hfits
    rw [fromBytes_big, toBytes_big hfits, hbytes, List.reverse_reverse]
  | little => rw [fromBytes, toBytes_little (intLe_lt l), leBytes_intLe]

theorem reverse_map_range {α : Type} (f : Nat → α) (k : Nat) :
    ((List.range k).map f).reverse = (List.range k).map fun j => f (k - 1 - j) := by
  simp [List.range_eq_range', ← List.map_reverse, List.reverse_range', Function.comp_def]

/-- A byte string's value as a sum of weighted bytes (00_scope.md R14). -/
theorem fromBytes_map_range (f : Nat → Byte) (k : Nat) (e : Endian) :
    fromBytes ((List.range k).map f) e = ((List.range k).map fun j => (f j).toNat * 256 ^ bytePlace e k j).sum := by
  cases e with
  | little => exact intLe_map_range f k
  | big =>
    rw [fromBytes_big, reverse_map_range, intLe_map_range, ← List.sum_reverse, reverse_map_range]
    refine congrArg List.sum (List.map_congr_left fun j hj => ?_)
    have hj : j < k := List.mem_range.mp hj
    rw [bytePlace, show k - 1 - (k - 1 - j) = j by omega]

/-! ### TOBYTES -/

section
variable {s : State} {rs : FReg} {size : BitVec 8} {e : Endian}

theorem exec_tobytes_stores {r : List Byte} (hk : size.toNat ≤ s.params.bufBytes)
    (hr : toBytes (s.x rs) size.toNat e = some r) :
    exec (.tobytes rs size e) s = .next { s.writeBuf r with blen := size }.advance := by
  refine exec_of_effectOf_ok nofun ?_
  rw [effectOf, codecStore, if_neg (Nat.not_lt.mpr hk), hr]

theorem exec_tobytes_bufferBound (hk : s.params.bufBytes < size.toNat) :
    exec (.tobytes rs size e) s = .next (s.stopError .bufferBound) :=
  exec_of_effectOf_error nofun (if_pos hk)

theorem exec_tobytes_overflow (hk : size.toNat ≤ s.params.bufBytes) (hn : 256 ^ size.toNat ≤ s.x rs) :
    exec (.tobytes rs size e) s = .next (s.stopError .overflow) := by
  refine exec_of_effectOf_error nofun ?_
  rw [effectOf, codecStore, if_neg (Nat.not_lt.mpr hk), toBytes_overflow hn]

end

theorem Memory.read_writeBytes_inside {m : Memory} (hm : m.wf) (o : Nat) {r : List Byte} {j : Nat} (h : j < r.length) :
    (m.writeBytes o r).read (o + j) = r[j] := by
  rw [Memory.read_writeBytes hm, if_pos (by omega), Nat.add_sub_cancel_left, List.getD_eq_getElem _ _ h]

/-- Settles O35: the bytes of the register stand in BUF as they were written, and a write of `size` bytes changes no
other. -/
theorem tobytesCompletes : Obligations.TobytesCompletes := by
  intro s rs size e hm
  refine ⟨fun hk hn => ?_, exec_tobytes_bufferBound, exec_tobytes_overflow⟩
  obtain ⟨r, hr, -, hdigit⟩ := exists_toBytes hn e
  have hlen := length_toBytes hr
  refine ⟨_, exec_tobytes_stores hk hr, rfl, fun j hj => ?_, fun o ho => ?_⟩
  · rw [← hlen] at hj
    rw [State.writeBuf_mem, Memory.read_writeBytes_inside hm bufBase hj, hdigit j hj]
    cases e <;> rfl
  · exact Memory.read_writeBytes_outside hm (hlen ▸ ho)

/-! ### FROMBYTES -/

section
variable {s : State} {e : Endian}

theorem exec_frombytes_loads (rd : FReg) {n : Nat} (hk : s.blen.toNat ≤ s.params.bufBytes)
    (hvalue : fromBytes (s.bufBytes s.blen.toNat) e = n) (hn : n < 2 ^ s.params.w) :
    exec (.frombytes rd e) s = .next (s.setX rd n).advance := by
  subst hvalue
  refine exec_of_effectOf_ok nofun ?_
  rw [effectOf, codecLoad, if_neg (Nat.not_lt.mpr hk), if_neg (Nat.not_le.mpr hn)]

theorem exec_frombytes_bufferBound (rd : FReg) (hk : s.params.bufBytes < s.blen.toNat) :
    exec (.frombytes rd e) s = .next (s.stopError .bufferBound) :=
  exec_of_effectOf_error nofun (if_pos hk)

theorem exec_frombytes_overflow (rd : FReg) {n : Nat} (hk : s.blen.toNat ≤ s.params.bufBytes)
    (hvalue : fromBytes (s.bufBytes s.blen.toNat) e = n) (hn : 2 ^ s.params.w ≤ n) :
    exec (.frombytes rd e) s = .next (s.stopError .overflow) := by
  subst hvalue
  refine exec_of_effectOf_error nofun ?_
  rw [effectOf, codecLoad, if_neg (Nat.not_lt.mpr hk), if_pos hn]

end

/-- Settles O36: the value of BUF's bytes is their weighted sum, and FROMBYTES tests and loads that value. -/
theorem frombytesCompletes : Obligations.FrombytesCompletes := by
  intro s rd e k n
  have hvalue : fromBytes (s.bufBytes k) e = n := by
    rw [State.bufBytes, Memory.readBytes, fromBytes_map_range]
    cases e <;> rfl
  exact ⟨fun hk => exec_frombytes_loads rd hk hvalue, exec_frombytes_bufferBound rd,
    fun hk => exec_frombytes_overflow rd hk hvalue⟩

/-! ### The round trip -/

theorem State.bufBytes_advance (s : State) (k : Nat) : s.advance.bufBytes k = s.bufBytes k := by
  rw [State.bufBytes, State.advance_mem, State.bufBytes]

theorem State.x_advance (s : State) (i : FReg) : s.advance.x i = s.x i := by
  rw [State.x, State.advance_f, State.x]

theorem State.bufBytes_writeBuf {s : State} (hm : s.mem.wf) {r : List Byte} {k : Nat} (hr : r.length = k) :
    (s.writeBuf r).bufBytes k = r := by
  subst hr
  exact Memory.readBytes_writeBytes hm bufBase r

/-- The register's value comes back, and fits W bits as it did before. -/
theorem exec_frombytes_after_tobytes {s : State} (h : s.Inv) (rs rd : FReg) {size : BitVec 8} (e : Endian)
    (hk : size.toNat ≤ s.params.bufBytes) (hn : s.x rs < 256 ^ size.toNat) :
    ∃ t u : State, exec (.tobytes rs size e) s = .next t ∧ exec (.frombytes rd e) t = .next u ∧
      u = (t.setX rd (s.x rs)).advance := by
  obtain ⟨r, hr, hvalue, -⟩ := exists_toBytes hn e
  obtain ⟨t, ht⟩ : ∃ t, t = ({ s.writeBuf r with blen := size } : State).advance := ⟨_, rfl⟩
  have hparams : t.params = s.params := by rw [ht, State.advance_params, State.writeBuf_params]
  have hblen : t.blen = size := by rw [ht, State.advance_blen]
  have hbytes : t.bufBytes size.toNat = r := by
    rw [ht, State.bufBytes_advance]
    exact State.bufBytes_writeBuf h.memoryForm (length_toBytes hr)
  refine ⟨t, _, ht ▸ exec_tobytes_stores hk hr, exec_frombytes_loads rd ?_ ?_ ?_, rfl⟩
  · rwa [hblen, hparams]
  · rw [hblen, hbytes, hvalue]
  · exact hparams ▸ h.fieldWidth rs

/-- The byte string comes back: it is the one string of its length and value. -/
theorem exec_tobytes_after_frombytes {s : State} (hm : s.mem.wf) (rd : FReg) (e : Endian)
    (hk : s.blen.toNat ≤ s.params.bufBytes) (hn : fromBytes (s.bufBytes s.blen.toNat) e < 2 ^ s.params.w) :
    ∃ t u : State, exec (.frombytes rd e) s = .next t ∧ exec (.tobytes rd s.blen e) t = .next u ∧
      u.blen = s.blen ∧ u.bufBytes s.blen.toNat = s.bufBytes s.blen.toNat ∧ u = { t with mem := u.mem }.advance := by
  obtain ⟨t, ht⟩ : ∃ t, t = (s.setX rd (fromBytes (s.bufBytes s.blen.toNat) e)).advance := ⟨_, rfl⟩
  have hparams : t.params = s.params := by rw [ht, State.advance_params, State.setX_params]
  have hblen : t.blen = s.blen := by rw [ht, State.advance_blen, State.setX_blen]
  have hmem : t.mem = s.mem := by rw [ht, State.advance_mem, State.setX_mem]
  have hx : t.x rd = fromBytes (s.bufBytes s.blen.toNat) e := by rw [ht, State.x_advance, State.x_setX_same]
  have hlen := s.length_bufBytes s.blen.toNat
  have hbytes := toBytes_fromBytes (s.bufBytes s.blen.toNat) e
  rw [hlen, ← hx] at hbytes
  refine ⟨t, _, ht ▸ exec_frombytes_loads rd hk rfl hn, exec_tobytes_stores (hparams ▸ hk) hbytes,
    State.advance_blen _, ?_, ?_⟩
  · rw [State.bufBytes_advance]
    exact State.bufBytes_writeBuf (hmem ▸ hm) hlen
  · rw [State.advance_mem, ← hblen]
    rfl

/-- Settles O37, from the two orders of the commands. -/
theorem codecRoundTrip : Obligations.CodecRoundTrip :=
  ⟨fun _ rs rd _ e h => exec_frombytes_after_tobytes h rs rd e,
    fun _ rd e h => exec_tobytes_after_frombytes h.memoryForm rd e⟩

end Sys2Proof.Machine
end

section
/-! ## The prime field

What each field command writes to its destination on valid operands (42_field.md R150 to R160), the bound of every
result (R161) and the two identities of R163. -/

namespace Sys2Proof.Machine

/-! ### The effects on valid operands -/

section
variable {s : State} {rd rs1 rs2 : FReg}

theorem fieldBinary_of_valid {own : Nat → Nat → Option ErrKind} (op : Nat → Nat → Nat) (hf : s.flocked = true)
    (hx : s.x rs1 < s.p) (hy : s.x rs2 < s.p) (hown : own (s.x rs1) (s.x rs2) = none) :
    fieldBinary rd rs1 rs2 own op s = .ok (s.setX rd (op (s.x rs1) (s.x rs2))) := by
  simp [fieldBinary, State.valid, hf, hx, hy, hown]

theorem fieldInverse_of_valid (hf : s.flocked = true) (hx : s.x rs1 < s.p) (h0 : s.x rs1 ≠ 0) :
    fieldInverse rd rs1 s = .ok (s.setX rd (powmod (s.x rs1) (s.p - 2) s.p)) := by
  simp [fieldInverse, State.valid, hf, hx, h0]

theorem fieldPower_of_valid (neg : Bool) (hf : s.flocked = true) (hx : s.x rs1 < s.p) (h0 : s.x rs1 ≠ 0) :
    fieldPower rd rs1 rs2 neg s =
      .ok (s.setX rd (powmod (s.x rs1) (reducedExponent s.p (signedExponent neg (s.x rs2))) s.p)) := by
  simp [fieldPower, State.valid, hf, hx, h0]

theorem fieldPower_of_zero (neg : Bool) (hf : s.flocked = true) (hx : s.x rs1 < s.p) (h0 : s.x rs1 = 0) :
    fieldPower rd rs1 rs2 neg s =
      if 0 < signedExponent neg (s.x rs2) then .ok (s.setX rd 0) else .error .undefinedExponent := by
  have hp : 0 < s.p := h0 ▸ hx
  simp [fieldPower, State.valid, hf, h0, hp]

theorem fieldFold_of_valid {rs : FReg} {cnt : Count} (op : Nat → Nat → Nat) (hfit : windowFits rs cnt)
    (hf : s.flocked = true) (hcnt : 2 ≤ cnt.val) (hv : ∀ v ∈ s.window rs cnt, v < s.p) :
    fieldFold rd rs cnt op s = .ok (s.setX rd (foldMod op (s.window rs cnt))) := by
  have hall : (s.window rs cnt).all s.valid = true := List.all_eq_true.mpr fun v h => decide_eq_true (hv v h)
  rw [fieldFold, if_neg (not_not.mpr hfit), if_neg (by simp [hf]), if_neg (Nat.not_lt.mpr hcnt),
    if_neg (by simp [hall])]

end

/-! ### FADD, FSUB, FMUL, FDIV, FINV -/

/-- Settles O19: the three commands have no error of their own. -/
theorem faddFsubFmulComplete : Obligations.FaddFsubFmulComplete := by
  intro s rd rs1 rs2 hf hx hy
  have effect := fun op => fieldBinary_of_valid (rd := rd) (own := noError) op hf hx hy rfl
  exact ⟨exec_of_effectOf_ok (i := .fadd rd rs1 rs2) nofun (effect (addMod s.p)),
    exec_of_effectOf_ok (i := .fsub rd rs1 rs2) nofun (effect (subMod s.p)),
    exec_of_effectOf_ok (i := .fmul rd rs1 rs2) nofun (effect (mulMod s.p))⟩

theorem divMod_eq (p a b : Nat) : divMod p a b = a * (b ^ (p - 2) % p) % p := by
  rw [divMod, mulMod, powmod_eq]

/-- Settles O20: the power is the one of `powmod_eq`, whatever P is. -/
theorem fdivFinvComplete : Obligations.FdivFinvComplete := by
  intro s rd rs1 rs2 hf hx hy h0
  rw [← divMod_eq, ← powmod_eq]
  exact ⟨exec_of_effectOf_ok (i := .fdiv rd rs1 rs2) nofun (fieldBinary_of_valid _ hf hx hy (if_neg h0)),
    exec_of_effectOf_ok (i := .finv rd rs2) nofun (fieldInverse_of_valid hf hy h0)⟩

/-! ### FEXP -/

/-- Settles O21: a nonzero base has every power; the zero base only those with a positive exponent. -/
theorem fexpCompletes : Obligations.FexpCompletes := by
  intro s rd rs1 rs2 neg hf hx base e
  refine ⟨fun h0 => ?_, fun h0 he => ?_, fun h0 he => ?_⟩
  · rw [← powmod_eq]
    exact exec_of_effectOf_ok nofun (fieldPower_of_valid neg hf hx h0)
  · exact exec_of_effectOf_ok nofun ((fieldPower_of_zero neg hf hx h0).trans (if_pos he))
  · exact exec_of_effectOf_error nofun ((fieldPower_of_zero neg hf hx h0).trans (if_neg he.not_gt))

/-! ### The folds

Reducing after each step gives the residue of the exact result (R151), which is the only value below P congruent to
it. -/

theorem foldl_addMod_modEq (p : Nat) (vs : List Nat) (a : Nat) : vs.foldl (addMod p) a ≡ a + vs.sum [MOD p] := by
  induction vs generalizing a with
  | nil => rfl
  | cons v vs ih =>
    calc vs.foldl (addMod p) (addMod p a v)
        ≡ addMod p a v + vs.sum [MOD p] := ih _
      _ ≡ a + v + vs.sum [MOD p] := (Nat.mod_modEq _ _).add_right _
      _ = a + (v :: vs).sum := by rw [List.sum_cons, add_assoc]

theorem foldl_mulMod_modEq (p : Nat) (vs : List Nat) (a : Nat) : vs.foldl (mulMod p) a ≡ a * vs.prod [MOD p] := by
  induction vs generalizing a with
  | nil => rw [List.prod_nil, mul_one]; rfl
  | cons v vs ih =>
    calc vs.foldl (mulMod p) (mulMod p a v)
        ≡ mulMod p a v * vs.prod [MOD p] := ih _
      _ ≡ a * v * vs.prod [MOD p] := (Nat.mod_modEq _ _).mul_right _
      _ = a * (v :: vs).prod := by rw [List.prod_cons, mul_assoc]

/-- A difference is reduced to a natural number without loss when P is not 0. -/
theorem natCast_subMod {p : Nat} (hp : 0 < p) (a b : Nat) : (subMod p a b : Int) = ((a : Int) - b) % p :=
  Int.toNat_of_nonneg (Int.emod_nonneg _ (by omega))

theorem foldl_subMod_modEq {p : Nat} (hp : 0 < p) (vs : List Nat) (a : Nat) :
    ((vs.foldl (subMod p) a : Nat) : Int) ≡ (a : Int) - (vs.sum : Int) [ZMOD p] := by
  induction vs generalizing a with
  | nil => rw [List.sum_nil, Nat.cast_zero, sub_zero]; rfl
  | cons v vs ih =>
    have hstep : (subMod p a v : Int) ≡ (a : Int) - v [ZMOD p] := natCast_subMod hp a v ▸ Int.mod_modEq _ _
    calc ((vs.foldl (subMod p) (subMod p a v) : Nat) : Int)
        ≡ (subMod p a v : Int) - (vs.sum : Int) [ZMOD p] := ih _
      _ ≡ (a : Int) - v - (vs.sum : Int) [ZMOD p] := hstep.sub_right _
      _ = (a : Int) - ((v :: vs).sum : Int) := by rw [List.sum_cons, Nat.cast_add, sub_sub]

section
variable {p : Nat} {vs : List Nat}

theorem foldMod_addMod (hp : 0 < p) (hv : ∀ v ∈ vs, v < p) : foldMod (addMod p) vs = vs.sum % p := by
  have hlt := foldMod_lt hp (addMod_lt hp) hv
  cases vs with
  | nil => rfl
  | cons v vs => exact (Nat.mod_eq_of_modEq (foldl_addMod_modEq p vs v).symm hlt).symm

theorem foldMod_mulMod (hp : 0 < p) (hne : vs ≠ []) (hv : ∀ v ∈ vs, v < p) : foldMod (mulMod p) vs = vs.prod % p := by
  have hlt := foldMod_lt hp (mulMod_lt hp) hv
  cases vs with
  | nil => exact absurd rfl hne
  | cons v vs =>
    rw [List.prod_cons]
    exact (Nat.mod_eq_of_modEq (foldl_mulMod_modEq p vs v).symm hlt).symm

theorem foldMod_subMod (hp : 0 < p) (hv : ∀ v ∈ vs, v < p) :
    foldMod (subMod p) vs = (((vs.headD 0 : Int) - (vs.tail.sum : Int)) % (p : Int)).toNat := by
  have hlt := foldMod_lt hp (subMod_lt hp) hv
  cases vs with
  | nil => rfl
  | cons v vs =>
    have hres : (foldMod (subMod p) (v :: vs) : Int) = ((v : Int) - (vs.sum : Int)) % p :=
      (Int.emod_eq_of_lt (Int.natCast_nonneg _) (Int.ofNat_lt.mpr hlt)).symm.trans (foldl_subMod_modEq hp vs v)
    exact (Int.toNat_natCast _).symm.trans (congrArg Int.toNat hres)

end

/-- A window that ends at or before F15 is read from the register file by index. -/
theorem State.window_eq (s : State) {rs : FReg} {cnt : Count} (h : rs.val + cnt.val ≤ 16) :
    s.window rs cnt = (List.range cnt.val).map (fun j => s.f.toList.getD (rs.val + j) 0) := by
  refine List.map_congr_left fun j hj => ?_
  have hj : rs.val + j < 16 := by have := List.mem_range.mp hj; omega
  simp [State.x, Nat.mod_eq_of_lt hj, hj]

/-- A window of two or more registers that are all below P is not empty, and P is not 0. -/
theorem State.window_valid {s : State} {rs : FReg} {cnt : Count} (hcnt : 2 ≤ cnt.val)
    (hv : ∀ v ∈ s.window rs cnt, v < s.p) : s.window rs cnt ≠ [] ∧ 0 < s.p := by
  have hne : s.window rs cnt ≠ [] := by
    refine List.ne_nil_of_length_pos ?_
    rw [State.window, List.length_map, List.length_range]
    omega
  exact ⟨hne, Nat.zero_lt_of_lt (hv _ (List.head_mem hne))⟩

/-- Settles O22: the window is the list of the registers' values, and each fold of it is the exact result reduced
once. -/
theorem foldsCompleteAndReduceOnce : Obligations.FoldsCompleteAndReduceOnce := by
  intro s rd rs cnt vs hfit hcnt hf hvs hv
  obtain rfl : vs = s.window rs cnt := hvs.trans (s.window_eq (by omega)).symm
  obtain ⟨hne, hp⟩ := State.window_valid hcnt hv
  have effect := fun op => fieldFold_of_valid (rd := rd) op (fun _ => hfit) hf hcnt hv
  rw [← foldMod_addMod hp hv, ← foldMod_subMod hp hv, ← foldMod_mulMod hp hne hv]
  exact ⟨exec_of_effectOf_ok (i := .faddn rd rs cnt) nofun (effect (addMod s.p)),
    exec_of_effectOf_ok (i := .fsubn rd rs cnt) nofun (effect (subMod s.p)),
    exec_of_effectOf_ok (i := .fmuln rd rs cnt) nofun (effect (mulMod s.p))⟩

/-! ### The bound of every result -/

/-- What a field command's effect can be: an error of its own, or one write of a field element to its destination
(R161). -/
def FieldEffect (s : State) (rd : FReg) (r : Except ErrKind State) : Prop :=
  (∃ e : ErrKind, e ≠ .commandOverrun ∧ r = .error e) ∨ ∃ v < s.p, r = .ok (s.setX rd v)

theorem FieldEffect.of_cases {s : State} {rd : FReg} {r : Except ErrKind State} (herr : r ≠ .error .commandOverrun)
    (hok : ∀ u, r = .ok u → ∃ v < s.p, u = s.setX rd v) : FieldEffect s rd r := by
  cases r with
  | error e => exact .inl ⟨e, fun he => herr (congrArg _ he), rfl⟩
  | ok u =>
    obtain ⟨v, hv, rfl⟩ := hok u rfl
    exact .inr ⟨v, hv, rfl⟩

section
variable {s : State} {rd rs1 rs2 : FReg}

theorem fieldBinary_fieldEffect {own : Nat → Nat → Option ErrKind} {op : Nat → Nat → Nat}
    (hown : ∀ a b, own a b ≠ some .commandOverrun) (hop : 0 < s.p → ∀ a b, op a b < s.p) :
    FieldEffect s rd (fieldBinary rd rs1 rs2 own op s) := by
  refine .of_cases ?_ fun u hu => ?_
  · unfold fieldBinary
    repeat' split
    case h_1 e he => exact fun h => hown _ _ (he.trans (congrArg some (Except.error.inj h)))
    all_goals nofun
  · obtain ⟨_, hx, _, _, rfl⟩ := fieldBinary_ok hu
    exact ⟨_, hop (Nat.zero_lt_of_lt hx) _ _, rfl⟩

theorem fieldInverse_fieldEffect : FieldEffect s rd (fieldInverse rd rs1 s) := by
  refine .of_cases ?_ fun u hu => ?_
  · unfold fieldInverse
    repeat' split
    all_goals nofun
  · obtain ⟨_, hx, _, rfl⟩ := fieldInverse_ok hu
    exact ⟨_, powmod_lt (Nat.zero_lt_of_lt hx) _ _, rfl⟩

theorem fieldPower_fieldEffect {neg : Bool} : FieldEffect s rd (fieldPower rd rs1 rs2 neg s) := by
  refine .of_cases ?_ fun u hu => fieldPower_below hu
  unfold fieldPower
  repeat' split
  all_goals nofun

theorem fieldFold_fieldEffect {cnt : Count} {op : Nat → Nat → Nat} (hop : 0 < s.p → ∀ a b, op a b < s.p) :
    FieldEffect s rd (fieldFold rd rs1 cnt op s) := by
  refine .of_cases ?_ fun u hu => ?_
  · unfold fieldFold
    repeat' split
    all_goals nofun
  · obtain ⟨_, _, hcnt, hv, rfl⟩ := fieldFold_ok hu
    obtain ⟨_, hp⟩ := State.window_valid hcnt hv
    exact ⟨_, foldMod_lt hp (hop hp) hv, rfl⟩

end

theorem noError_ne_commandOverrun (a b : Nat) : noError a b ≠ some .commandOverrun := nofun

theorem zeroDivisor_ne_commandOverrun (a b : Nat) : zeroDivisor a b ≠ some .commandOverrun := by
  unfold zeroDivisor
  split <;> nofun

theorem FieldEffect.retire_below {s t : State} {rd : FReg} {r : Except ErrKind State} (h : FieldEffect s rd r)
    (ht : retire s r = .next t) :
    (∀ q : FReg, q ≠ rd → t.x q = s.x q) ∧
      (t.x rd < s.p ∨ ∃ e : ErrKind, e ≠ .commandOverrun ∧ t = s.stopError e) := by
  rcases h with ⟨e, he, rfl⟩ | ⟨v, hv, rfl⟩
  · obtain rfl : s.stopError e = t := Host.Outcome.next.inj ht
    exact ⟨fun _ _ => rfl, .inr ⟨e, he, rfl⟩⟩
  · obtain rfl : (s.setX rd v).advance = t := Host.Outcome.next.inj ht
    simp only [State.x_advance, State.x_setX_same]
    exact ⟨fun q hq => s.x_setX_other v hq, .inl hv⟩

/-- Settles O24: each of the nine commands ends a field effect. -/
theorem fieldResultsLieBelowP : Obligations.FieldResultsLieBelowP := by
  intro s t rd rs1 rs2 neg cnt i hi ht
  have heffect : i ≠ .halt ∧ FieldEffect s rd (effectOf i s) := by
    simp only [List.mem_cons, List.not_mem_nil, or_false] at hi
    rcases hi with rfl | rfl | rfl | rfl | rfl | rfl | rfl | rfl | rfl
    · exact ⟨nofun, fieldBinary_fieldEffect noError_ne_commandOverrun addMod_lt⟩
    · exact ⟨nofun, fieldBinary_fieldEffect noError_ne_commandOverrun subMod_lt⟩
    · exact ⟨nofun, fieldBinary_fieldEffect noError_ne_commandOverrun mulMod_lt⟩
    · exact ⟨nofun, fieldBinary_fieldEffect zeroDivisor_ne_commandOverrun divMod_lt⟩
    · exact ⟨nofun, fieldInverse_fieldEffect⟩
    · exact ⟨nofun, fieldPower_fieldEffect⟩
    · exact ⟨nofun, fieldFold_fieldEffect addMod_lt⟩
    · exact ⟨nofun, fieldFold_fieldEffect subMod_lt⟩
    · exact ⟨nofun, fieldFold_fieldEffect mulMod_lt⟩
  obtain ⟨hhalt, hfield⟩ := heffect
  exact hfield.retire_below (exec_eq_retire hhalt s ▸ ht)

/-! ### The two identities -/

/-- Fermat's little theorem: for a prime P the power of R155 is the inverse. -/
theorem mul_pow_sub_two_modEq_one {p b : Nat} (hp : p.Prime) (h0 : b ≠ 0) (hb : b < p) :
    b * b ^ (p - 2) ≡ 1 [MOD p] := by
  have hcoprime : b.Coprime p := (Nat.coprime_of_lt_prime h0 hb hp).symm
  have hexp : p - 2 + 1 = p - 1 := by have := hp.two_le; omega
  rw [← pow_succ', hexp, ← Nat.totient_prime hp]
  exact Nat.ModEq.pow_totient hcoprime

theorem divMod_mulMod {p a b : Nat} (hp : p.Prime) (ha : a < p) (h0 : b ≠ 0) (hb : b < p) :
    divMod p (mulMod p a b) b = a := by
  rw [divMod_eq]
  refine Nat.mod_eq_of_modEq ?_ ha
  calc mulMod p a b * (b ^ (p - 2) % p)
      ≡ a * b * b ^ (p - 2) [MOD p] := (Nat.mod_modEq _ _).mul (Nat.mod_modEq _ _)
    _ = a * (b * b ^ (p - 2)) := mul_assoc _ _ _
    _ ≡ a * 1 [MOD p] := (mul_pow_sub_two_modEq_one hp h0 hb).mul_left a
    _ = a := mul_one a

theorem addMod_subMod {p a b : Nat} (ha : a < p) : addMod p (subMod p a b) b = a := by
  have hp : 0 < p := Nat.zero_lt_of_lt ha
  refine Nat.mod_eq_of_modEq (Int.natCast_modEq_iff.mp ?_) ha
  rw [Nat.cast_add, natCast_subMod hp]
  simpa using (Int.mod_modEq ((a : Int) - b) p).add_right (b : Int)

/-- Two commands in a row that write `rt`: the second finds the first one's result in `rt`, and the field and every
other register as they were. -/
theorem exec_twice_x {s : State} {i j : Instr} {rt rb : FReg} {v w : Nat} (hne : rt ≠ rb)
    (hi : exec i s = .next (s.setX rt v).advance)
    (hj : ∀ u : State, u.flocked = s.flocked → u.p = s.p → u.x rt = v → u.x rb = s.x rb →
      exec j u = .next (u.setX rt w).advance) :
    ∃ u t : State, exec i s = .next u ∧ exec j u = .next t ∧ t.x rt = w := by
  have hrt : (s.setX rt v).advance.x rt = v := by rw [State.x_advance, State.x_setX_same]
  have hrb : (s.setX rt v).advance.x rb = s.x rb := by rw [State.x_advance, s.x_setX_other v hne.symm]
  refine ⟨_, _, hi, hj _ (State.advance_flocked _) (State.advance_p _) hrt hrb, ?_⟩
  rw [State.x_advance, State.x_setX_same]

/-- Settles O25: the first command's result is a valid operand of the second, and the two operations cancel. -/
theorem fieldInverseAndAdditiveIdentity : Obligations.FieldInverseAndAdditiveIdentity := by
  intro s rt ra rb hf _ _ ha hb hne
  have hp : 0 < s.p := Nat.zero_lt_of_lt ha
  obtain ⟨_, hsub, hmul⟩ := faddFsubFmulComplete s rt ra rb hf ha hb
  refine ⟨fun hprime h0 => exec_twice_x hne hmul fun u hfu hpu ht hbu => ?_,
    exec_twice_x hne hsub fun u hfu hpu ht hbu => ?_⟩
  · have hcancel := divMod_mulMod hprime ha h0 hb
    have hdiv := (fdivFinvComplete u rt rt rb (hfu.trans hf) (by rw [ht, hpu]; exact mulMod_lt hp _ _)
      (by rwa [hbu, hpu]) (by rwa [hbu])).1
    rwa [← divMod_eq, ht, hbu, hpu, ← mulMod, hcancel] at hdiv
  · have hcancel := addMod_subMod (b := s.x rb) ha
    have hadd := (faddFsubFmulComplete u rt rt rb (hfu.trans hf) (by rw [ht, hpu]; exact subMod_lt hp _ _)
      (by rwa [hbu, hpu])).1
    rwa [ht, hbu, hpu, ← subMod, ← addMod, hcancel] at hadd

end Sys2Proof.Machine
end

section
/-! ## The group law

ADD and SMUL (43_curve.md R181, R186) against the library's Weierstrass curve over the prime field: the formulas of
R181 are the library's, read in `ZMod P`, so ADD is the group's addition on nonsingular points (R17) and keeps the curve
equation on every curve. -/

namespace Sys2Proof.Machine

/-! ### The field's operations, read in `ZMod P` -/

theorem cast_addMod (p a b : Nat) : (addMod p a b : ZMod p) = a + b := by
  rw [addMod, ZMod.natCast_mod, Nat.cast_add]

theorem cast_mulMod (p a b : Nat) : (mulMod p a b : ZMod p) = a * b := by
  rw [mulMod, ZMod.natCast_mod, Nat.cast_mul]

theorem cast_subMod {p : Nat} (hp : 0 < p) (a b : Nat) : (subMod p a b : ZMod p) = a - b := by
  rw [← Int.cast_natCast (subMod p a b), natCast_subMod hp, ZMod.intCast_mod, Int.cast_sub, Int.cast_natCast,
    Int.cast_natCast]

/-- The field division of R155 is the field's, by a nonzero divisor. -/
theorem cast_divMod {p : Nat} [Fact p.Prime] (a : Nat) {b : Nat} (hb : (b : ZMod p) ≠ 0) :
    (divMod p a b : ZMod p) = a / b := by
  have hexp : p - 2 + 1 = p - 1 := by have := (Fact.out : p.Prime).two_le; omega
  have hinv : (b : ZMod p) ^ (p - 2) * b = 1 := by rw [← pow_succ, hexp, ZMod.pow_card_sub_one_eq_one hb]
  rw [divMod_eq, ZMod.natCast_mod, Nat.cast_mul, ZMod.natCast_mod, Nat.cast_pow, eq_inv_of_mul_eq_one_left hinv,
    div_eq_mul_inv]

theorem cast_inj_of_lt {p x y : Nat} (hx : x < p) (hy : y < p) : (x : ZMod p) = y ↔ x = y :=
  (CharP.natCast_injOn_Iio (ZMod p) p).eq_iff hx hy

theorem cast_eq_zero_of_lt {p y : Nat} (hy : y < p) : (y : ZMod p) = 0 ↔ y = 0 := by
  rw [← cast_inj_of_lt hy (Nat.zero_lt_of_lt hy), Nat.cast_zero]

/-- Cases 3 and 5 of ADD after the slope, as field elements. -/
theorem exists_chord {p : Nat} (hp : 0 < p) (s x1 y1 x2 : Nat) :
    ∃ x3 y3, chord p s x1 y1 x2 = .fin x3 y3 ∧ x3 < p ∧ y3 < p ∧
      (x3 : ZMod p) = s ^ 2 - x1 - x2 ∧ (y3 : ZMod p) = s * (x1 - x3) - y1 := by
  refine ⟨_, _, rfl, subMod_lt hp _ _, subMod_lt hp _ _, ?_, ?_⟩
  · rw [cast_subMod hp, cast_subMod hp, cast_mulMod, pow_two]
  · rw [cast_subMod hp, cast_mulMod, cast_subMod hp]

/-! ### The divisors (R183) -/

/-- The divisor of case 3: the difference of two field elements is 0 only where they are equal. -/
theorem subMod_ne_zero {p x1 x2 : Nat} (h1 : x1 < p) (h2 : x2 < p) (hx : x1 ≠ x2) : subMod p x2 x1 ≠ 0 := by
  intro h
  have hz : (x2 : ZMod p) - x1 = 0 := by rw [← cast_subMod (Nat.zero_lt_of_lt h1), h, Nat.cast_zero]
  exact hx ((cast_inj_of_lt h1 h2).mp (sub_eq_zero.mp hz).symm)

/-- The divisor of case 5: an odd P that divides 2y divides y. -/
theorem mulMod_two_ne_zero {p y : Nat} (hp : p % 2 = 1) (h0 : 1 ≤ y) (hy : y < p) : mulMod p 2 y ≠ 0 := by
  intro h
  have hcoprime : p.Coprime 2 := Nat.coprime_two_right.mpr (Nat.odd_iff.mpr hp)
  have hdvd : p ∣ y := hcoprime.dvd_of_dvd_mul_left (Nat.dvd_of_mod_eq_zero h)
  exact absurd (Nat.le_of_dvd h0 hdvd) (Nat.not_le.mpr hy)

theorem cast_mulMod_two_ne_zero {p y : Nat} [Fact p.Prime] (h2 : p ≠ 2) (hy : y < p) (h0 : y ≠ 0) :
    (mulMod p 2 y : ZMod p) ≠ 0 := by
  have hodd : p % 2 = 1 := (Fact.out : p.Prime).eq_two_or_odd.resolve_left h2
  exact mt (cast_eq_zero_of_lt (mulMod_lt (Nat.zero_lt_of_lt hy) _ _)).mp
    (mulMod_two_ne_zero hodd (Nat.one_le_iff_ne_zero.mpr h0) hy)

/-! ### The cases of ADD on two finite points -/

theorem pointAdd_secant (p a : Nat) {x1 x2 : Nat} (hx : x1 ≠ x2) (y1 y2 : Nat) :
    pointAdd p a (.fin x1 y1) (.fin x2 y2) = chord p (divMod p (subMod p y2 y1) (subMod p x2 x1)) x1 y1 x2 :=
  if_pos hx

theorem pointAdd_vertical (p a x : Nat) {y1 y2 : Nat} (hy : y1 ≠ y2 ∨ y1 = 0) :
    pointAdd p a (.fin x y1) (.fin x y2) = .inf :=
  (if_neg (not_not.mpr rfl)).trans (if_pos hy)

theorem pointAdd_tangent (p a x : Nat) {y : Nat} (h0 : y ≠ 0) : pointAdd p a (.fin x y) (.fin x y) =
    chord p (divMod p (addMod p (mulMod p (3 * x) x) a) (mulMod p 2 y)) x y x :=
  (if_neg (not_not.mpr rfl)).trans (if_neg (by simp [h0]))

/-! ### The two slopes -/

section
variable {p x1 y1 x2 y2 : Nat} [Fact p.Prime]

/-- The slope of case 3. -/
theorem cast_secant (h1 : x1 < p) (h2 : x2 < p) (hx : x1 ≠ x2) :
    (divMod p (subMod p y2 y1) (subMod p x2 x1) : ZMod p) = (y1 - y2) / (x1 - x2) := by
  have hp : 0 < p := Nat.zero_lt_of_lt h1
  have hd : (subMod p x2 x1 : ZMod p) ≠ 0 :=
    mt (cast_eq_zero_of_lt (subMod_lt hp _ _)).mp (subMod_ne_zero h1 h2 hx)
  rw [cast_divMod _ hd, cast_subMod hp, cast_subMod hp, ← neg_sub (x1 : ZMod p), ← neg_sub (y1 : ZMod p),
    neg_div_neg_eq]

/-- The slope of case 5. -/
theorem cast_tangent (h2 : p ≠ 2) (a : Nat) (hy : y1 < p) (h0 : y1 ≠ 0) :
    (divMod p (addMod p (mulMod p (3 * x1) x1) a) (mulMod p 2 y1) : ZMod p) = (3 * x1 ^ 2 + a) / (2 * y1) := by
  rw [cast_divMod _ (cast_mulMod_two_ne_zero h2 hy h0), cast_addMod, cast_mulMod, cast_mulMod, Nat.cast_mul,
    Nat.cast_ofNat, Nat.cast_ofNat, mul_assoc, ← pow_two]

/-! ### Commutativity -/

/-- The secant's slope does not depend on the order of its points. -/
theorem secant_comm (h1 : x1 < p) (h2 : x2 < p) (hx : x1 ≠ x2) :
    divMod p (subMod p y1 y2) (subMod p x1 x2) = divMod p (subMod p y2 y1) (subMod p x2 x1) := by
  have hp : 0 < p := Nat.zero_lt_of_lt h1
  rw [← cast_inj_of_lt (divMod_lt hp _ _) (divMod_lt hp _ _), cast_secant h2 h1 hx.symm, cast_secant h1 h2 hx,
    ← neg_sub (x1 : ZMod p), ← neg_sub (y1 : ZMod p), neg_div_neg_eq]

/-- A line through two points gives one third point, whichever of the two it is drawn from. -/
theorem chord_comm (hp : 0 < p) {s : Nat} (hline : (s : ZMod p) * (x1 - x2) = y1 - y2) :
    chord p s x2 y2 x1 = chord p s x1 y1 x2 := by
  obtain ⟨x3, y3, hc, hx3, hy3, hx, hy⟩ := exists_chord hp s x1 y1 x2
  obtain ⟨x4, y4, hd, hx4, hy4, hx', hy'⟩ := exists_chord hp s x2 y2 x1
  have hxx : x4 = x3 := (cast_inj_of_lt hx4 hx3).mp (by rw [hx, hx']; ring)
  have hyy : y4 = y3 := (cast_inj_of_lt hy4 hy3).mp (by rw [hy, hy', hxx]; linear_combination -hline)
  rw [hc, hd, hxx, hyy]

/-- ADD is commutative on pairs of field elements, on the curve or not (R190). -/
theorem pointAdd_comm (a : Nat) {u v : Point} (hu : u.Below p) (hv : v.Below p) :
    pointAdd p a u v = pointAdd p a v u := by
  match u, v with
  | .inf, .inf | .inf, .fin _ _ | .fin _ _, .inf => rfl
  | .fin x1 y1, .fin x2 y2 =>
    obtain ⟨h1, -⟩ := hu
    obtain ⟨h2, -⟩ := hv
    by_cases hx : x1 = x2
    · subst hx
      by_cases hy : y1 = y2
      · rw [hy]
      · rw [pointAdd_vertical p a x1 (.inl hy), pointAdd_vertical p a x1 (.inl (Ne.symm hy))]
    · have hd : (x1 - x2 : ZMod p) ≠ 0 := sub_ne_zero.mpr fun h => hx ((cast_inj_of_lt h1 h2).mp h)
      rw [pointAdd_secant p a hx, pointAdd_secant p a (Ne.symm hx), secant_comm h1 h2 hx]
      refine (chord_comm (Nat.zero_lt_of_lt h1) ?_).symm
      rw [cast_secant h1 h2 hx, div_mul_cancel₀ _ hd]

end

/-! ### The library's formulas -/

section
variable {p a b x1 y1 x2 y2 : Nat} [Fact p.Prime]

theorem shortCurve_equation_iff (p a b x y : Nat) :
    (shortCurve p a b).toAffine.Equation (x : ZMod p) (y : ZMod p) ↔ curveEq p a b x y = true := by
  rw [curveEq_iff, ← ZMod.intCast_zmod_eq_zero_iff_dvd, WeierstrassCurve.Affine.equation_iff']
  simp [shortCurve]

theorem shortCurve_negY (p a b : Nat) (x y : ZMod p) : (shortCurve p a b).toAffine.negY x y = -y := by
  simp [WeierstrassCurve.Affine.negY, shortCurve]

/-- A point value with the coordinates that the library's formulas give for the sum of two points. -/
def LibrarySum (p a b x1 y1 x2 y2 : Nat) [Fact p.Prime] (w : Point) : Prop :=
  ∃ x3 y3, w = .fin x3 y3 ∧ x3 < p ∧ y3 < p ∧
    (x3 : ZMod p) = (shortCurve p a b).toAffine.addX x1 x2 ((shortCurve p a b).toAffine.slope x1 x2 y1 y2) ∧
    (y3 : ZMod p) = (shortCurve p a b).toAffine.addY x1 x2 y1 ((shortCurve p a b).toAffine.slope x1 x2 y1 y2)

/-- A chord with the library's slope ends at the library's sum. -/
theorem chord_librarySum {s : Nat}
    (hs : (s : ZMod p) = (shortCurve p a b).toAffine.slope (x1 : ZMod p) x2 y1 y2) :
    LibrarySum p a b x1 y1 x2 y2 (chord p s x1 y1 x2) := by
  obtain ⟨x3, y3, hc, hx3, hy3, hx, hy⟩ := exists_chord (Fact.out : p.Prime).pos s x1 y1 x2
  have haddX : (x3 : ZMod p) = (shortCurve p a b).toAffine.addX x1 x2 s := by
    simp [hx, WeierstrassCurve.Affine.addX, shortCurve]
  refine ⟨x3, y3, hc, hx3, hy3, hs ▸ haddX, hs ▸ ?_⟩
  rw [WeierstrassCurve.Affine.addY, shortCurve_negY, WeierstrassCurve.Affine.negAddY, ← haddX, hy]
  ring

/-- What ADD of two pairs of field elements on the curve gives: the identity where the two are each other's negatives,
and the library's sum elsewhere. -/
theorem pointAdd_fin_cases (h2 : p ≠ 2) (hu : (Point.fin x1 y1).Below p) (hv : (Point.fin x2 y2).Below p)
    (hU : (shortCurve p a b).toAffine.Equation (x1 : ZMod p) y1)
    (hV : (shortCurve p a b).toAffine.Equation (x2 : ZMod p) y2) :
    ((x1 : ZMod p) = x2 ∧ (y1 : ZMod p) = (shortCurve p a b).toAffine.negY x2 y2 ∧
      pointAdd p a (.fin x1 y1) (.fin x2 y2) = .inf) ∨
    (¬((x1 : ZMod p) = x2 ∧ (y1 : ZMod p) = (shortCurve p a b).toAffine.negY x2 y2) ∧
      LibrarySum p a b x1 y1 x2 y2 (pointAdd p a (.fin x1 y1) (.fin x2 y2))) := by
  obtain ⟨hx1, hy1⟩ := hu
  obtain ⟨hx2, hy2⟩ := hv
  by_cases hx : x1 = x2
  · subst hx
    by_cases hy : y1 ≠ y2 ∨ y1 = 0
    · refine .inl ⟨rfl, ?_, pointAdd_vertical p a x1 hy⟩
      rcases WeierstrassCurve.Affine.Y_eq_of_X_eq hU hV rfl with hyy | hyy
      · have hyy : y1 = y2 := (cast_inj_of_lt hy1 hy2).mp hyy
        obtain rfl : y1 = 0 := hy.resolve_left (absurd hyy)
        rw [shortCurve_negY, ← hyy, Nat.cast_zero, neg_zero]
      · exact hyy
    · obtain ⟨rfl, h0⟩ : y1 = y2 ∧ y1 ≠ 0 := by simpa using hy
      have hneg : (y1 : ZMod p) ≠ (shortCurve p a b).toAffine.negY x1 y1 := by
        rw [shortCurve_negY, ne_eq, eq_neg_iff_add_eq_zero, ← two_mul]
        simpa only [cast_mulMod, Nat.cast_ofNat] using cast_mulMod_two_ne_zero h2 hy1 h0
      refine .inr ⟨fun h => hneg h.2, ?_⟩
      rw [pointAdd_tangent p a x1 h0]
      refine chord_librarySum ?_
      rw [cast_tangent h2 a hy1 h0, WeierstrassCurve.Affine.slope_of_Y_ne rfl hneg, shortCurve_negY, sub_neg_eq_add,
        ← two_mul]
      simp [shortCurve]
  · have hcast : (x1 : ZMod p) ≠ x2 := mt (cast_inj_of_lt hx1 hx2).mp hx
    refine .inr ⟨fun h => hcast h.1, ?_⟩
    rw [pointAdd_secant p a hx]
    refine chord_librarySum ?_
    rw [cast_secant hx1 hx2 hx, WeierstrassCurve.Affine.slope_of_X_ne hcast]

end

/-! ### The group of nonsingular points -/

/-- Settles O31: the identity is neutral on both sides, and two finite points are added as `pointAdd_fin_cases`
says. -/
theorem pointAddIsTheGroupLaw : Obligations.PointAddIsTheGroupLaw := by
  intro p a b _ h2 u v U V hu hv
  match u, v with
  | .inf, v =>
    obtain rfl : U = 0 := hu
    rw [zero_add]
    cases v <;> exact hv
  | .fin x1 y1, .inf =>
    obtain rfl : V = 0 := hv
    rwa [add_zero]
  | .fin x1 y1, .fin x2 y2 =>
    obtain ⟨hx1, hy1, hU, rfl⟩ := hu
    obtain ⟨hx2, hy2, hV, rfl⟩ := hv
    rcases pointAdd_fin_cases h2 ⟨hx1, hy1⟩ ⟨hx2, hy2⟩ hU.left hV.left with
      ⟨hx, hy, hadd⟩ | ⟨hne, x3, y3, hadd, hx3, hy3, hx, hy⟩
    · rw [hadd, WeierstrassCurve.Affine.Point.add_of_Y_eq hx hy]
      rfl
    · rw [hadd, WeierstrassCurve.Affine.Point.add_some hne]
      have hsum := WeierstrassCurve.Affine.nonsingular_add hU hV hne
      rw [← hx, ← hy] at hsum
      exact ⟨hx3, hy3, hsum, by simp only [hx, hy]⟩

/-- The invariant of double-and-add: what is accumulated plus the bits not yet scanned times the doubled point. -/
theorem scalarLoop_represents {p a b : Nat} [Fact p.Prime] (h2 : p ≠ 2) {c k : Nat} {r d : Point}
    {R D : (shortCurve p a b).toAffine.Point} (hk : k < 2 ^ c) (hr : Represents p a b r R) (hd : Represents p a b d D) :
    Represents p a b (scalarLoop p a c k r d) (R + k • D) := by
  induction c generalizing k r d R D with
  | zero =>
    obtain rfl : k = 0 := by omega
    rwa [zero_nsmul, add_zero]
  | succ c ih =>
    have hhalf : k / 2 < 2 ^ c := by omega
    have hdouble : Represents p a b (pointDouble p a d) (D + D) := pointAddIsTheGroupLaw p a b h2 d d D D hd hd
    rcases Nat.mod_two_eq_zero_or_one k with hbit | hbit
    · have hsplit : R + k • D = R + (k / 2) • (D + D) := by
        rw [← two_nsmul, ← mul_nsmul, show 2 * (k / 2) = k by omega]
      rw [hsplit, scalarLoop, if_neg (by omega)]
      exact ih hhalf hr hdouble
    · have hsplit : R + k • D = R + D + (k / 2) • (D + D) := by
        rw [← two_nsmul, ← mul_nsmul, add_assoc, ← succ_nsmul', show 2 * (k / 2) + 1 = k by omega]
      rw [hsplit, scalarLoop, if_pos hbit]
      exact ih hhalf (pointAddIsTheGroupLaw p a b h2 r d R D hr hd) hdouble

/-- Settles O32: the reduced scalar fits the loop's passes, and the loop starts from the identity. -/
theorem scalarMulIsTheGroupMultiple : Obligations.ScalarMulIsTheGroupMultiple := by
  intro p a b n bits k _ h2 hn hbits u U hu
  have hk : k % n < 2 ^ bits := (Nat.mod_lt k hn).trans_le hbits
  cases u with
  | inf =>
    obtain rfl : U = 0 := hu
    rw [nsmul_zero]
    rfl
  | fin x y =>
    rw [← zero_add ((k % n) • U)]
    exact scalarLoop_represents h2 hk (r := .inf) rfl hu

/-! ### The corner cases of SMUL -/

/-- With no bit left to scan the loop only doubles. -/
theorem scalarLoop_zero (p a c : Nat) (r d : Point) : scalarLoop p a c 0 r d = r := by
  induction c generalizing d with
  | zero => rfl
  | succ c ih => exact ih (pointDouble p a d)

/-- Settles O33: SMUL sees the scalar only through its remainder, which is 0 for a multiple of N and 1 for 1. -/
theorem scalarCornerCases : Obligations.ScalarCornerCases := by
  intro p a n bits k u
  cases u with
  | inf => exact ⟨fun _ _ => rfl, fun _ _ => rfl, rfl⟩
  | fin x y =>
    refine ⟨fun _ hk => ?_, fun hn hbits => ?_, ?_⟩
    · rw [scalarMul, Nat.mod_eq_zero_of_dvd hk, scalarLoop_zero]
    · obtain ⟨c, rfl⟩ := Nat.exists_eq_succ_of_ne_zero (Nat.one_le_iff_ne_zero.mp hbits)
      rw [scalarMul, Nat.mod_eq_of_lt hn]
      exact scalarLoop_zero p a c (.fin x y) _
    · rw [scalarMul, scalarMul, Nat.add_mod_right]

/-! ### The curve equation -/

/-- A point value on the curve, with coordinates below P: the operands that the checks of R180 let through. -/
def Point.OnCurve (p a b : Nat) : Point → Prop
  | .inf => True
  | .fin x y => x < p ∧ y < p ∧ curveEq p a b x y = true

theorem State.onCurve_iff (s : State) (pt : Point) :
    pt.OnCurve s.p s.a s.b ↔ s.inRange pt = true ∧ s.onCurve pt = true := by
  rw [s.inRange_iff]
  cases pt with
  | inf => exact ⟨fun _ => ⟨trivial, rfl⟩, fun _ => trivial⟩
  | fin x y => exact and_assoc.symm

section
variable {p a b : Nat} [Fact p.Prime]

/-- ADD keeps the curve equation, at singular points too (R181). -/
theorem pointAdd_onCurve (h2 : p ≠ 2) {u v : Point} (hu : u.OnCurve p a b) (hv : v.OnCurve p a b) :
    (pointAdd p a u v).OnCurve p a b := by
  match u, v with
  | .inf, .inf | .inf, .fin _ _ => exact hv
  | .fin _ _, .inf => exact hu
  | .fin x1 y1, .fin x2 y2 =>
    obtain ⟨hx1, hy1, hue⟩ := hu
    obtain ⟨hx2, hy2, hve⟩ := hv
    have hU := (shortCurve_equation_iff p a b x1 y1).mpr hue
    have hV := (shortCurve_equation_iff p a b x2 y2).mpr hve
    rcases pointAdd_fin_cases h2 ⟨hx1, hy1⟩ ⟨hx2, hy2⟩ hU hV with
      ⟨-, -, hadd⟩ | ⟨hne, x3, y3, hadd, hx3, hy3, hx, hy⟩
    · rw [hadd]
      trivial
    · have hsum := WeierstrassCurve.Affine.equation_add hU hV hne
      rw [← hx, ← hy, shortCurve_equation_iff] at hsum
      rw [hadd]
      exact ⟨hx3, hy3, hsum⟩

theorem scalarLoop_onCurve (h2 : p ≠ 2) {c k : Nat} {r d : Point} (hr : r.OnCurve p a b) (hd : d.OnCurve p a b) :
    (scalarLoop p a c k r d).OnCurve p a b := by
  induction c generalizing k r d with
  | zero => exact hr
  | succ c ih =>
    refine ih ?_ (pointAdd_onCurve h2 hd hd)
    split
    · exact pointAdd_onCurve h2 hr hd
    · exact hr

theorem scalarMul_onCurve (h2 : p ≠ 2) {n bits k : Nat} {u : Point} (hu : u.OnCurve p a b) :
    (scalarMul p a n bits u k).OnCurve p a b := by
  cases u with
  | inf => exact hu
  | fin x y => exact scalarLoop_onCurve h2 (r := .inf) trivial hu

end

end Sys2Proof.Machine
end

section
/-! ## The curve commands

What the point commands and ECCHK do on checked operands (43_curve.md R184 to R189), their errors and the order of these
(R180, 60_exceptions.md R233), and where their results lie (R181, R183, R190). -/

namespace Sys2Proof.Machine

/-! ### The checks of R180 -/

section
variable {s : State} {pts : List Point}

theorem State.checkPoints_unlocked (hc : s.clocked = false) (pts : List Point) :
    s.checkPoints pts = .error .notConfigured :=
  if_pos (by simp [hc])

theorem State.checkPoints_outOfRange (hc : s.clocked = true) (h : ∃ pt ∈ pts, s.inRange pt = false) :
    s.checkPoints pts = .error .invalidFieldElement := by
  rw [State.checkPoints, if_neg (by simp [hc]), if_pos (by simpa using h)]

theorem State.checkPoints_offCurve (hc : s.clocked = true) (hr : ∀ pt ∈ pts, s.inRange pt = true)
    (h : ∃ pt ∈ pts, s.onCurve pt = false) : s.checkPoints pts = .error .notOnCurve := by
  rw [State.checkPoints, if_neg (by simp [hc]), if_neg (by simpa using hr), if_pos (by simpa using h)]

theorem State.checkPoints_checked (hc : s.clocked = true) (hr : ∀ pt ∈ pts, s.inRange pt = true)
    (h : ∀ pt ∈ pts, s.onCurve pt = true) : s.checkPoints pts = .ok () := by
  rw [State.checkPoints, if_neg (by simp [hc]), if_neg (by simpa using hr), if_neg (by simpa using h)]

/-- The checks do not depend on the order of two operands. -/
theorem State.checkPoints_swap (s : State) (u v : Point) : s.checkPoints [u, v] = s.checkPoints [v, u] := by
  have hall : ∀ f : Point → Bool, [u, v].all f = [v, u].all f := fun f => by simp [Bool.and_comm]
  rw [State.checkPoints, State.checkPoints, hall, hall]

theorem curveWrite_of_ok {qd : PReg} (r : Point) (h : s.checkPoints pts = .ok ()) :
    curveWrite qd pts r s = .ok (s.setPoint qd r) := by
  rw [curveWrite, h]

theorem curveWrite_of_error {qd : PReg} (r : Point) {e : ErrKind} (h : s.checkPoints pts = .error e) :
    curveWrite qd pts r s = .error e := by
  rw [curveWrite, h]

end

/-! ### The commands -/

/-- A point command on operands that pass the checks. -/
theorem exec_of_curveWrite_ok {i : Instr} {s : State} {qd : PReg} {pts : List Point} {r : Point} (hi : i ≠ .halt)
    (heffect : effectOf i s = curveWrite qd pts r s) (h : s.checkPoints pts = .ok ()) :
    exec i s = .next (s.setPoint qd r).advance :=
  exec_of_effectOf_ok hi (heffect.trans (curveWrite_of_ok r h))

/-- A point command on operands that fail the checks. -/
theorem exec_of_curveWrite_error {i : Instr} {s : State} {qd : PReg} {pts : List Point} {r : Point} {e : ErrKind}
    (hi : i ≠ .halt) (heffect : effectOf i s = curveWrite qd pts r s) (h : s.checkPoints pts = .error e) :
    exec i s = .next (s.stopError e) :=
  exec_of_effectOf_error hi (heffect.trans (curveWrite_of_error r h))

theorem exec_ecchk_unlocked {s : State} (hc : s.clocked = false) (qa : PReg) :
    exec (.ecchk qa) s = .next (s.stopError .notConfigured) :=
  exec_of_effectOf_error nofun (if_pos (by simp [hc]))

theorem exec_ecchk_outOfRange {s : State} {qa : PReg} (hc : s.clocked = true) (hr : s.inRange (s.point qa) = false) :
    exec (.ecchk qa) s = .next (s.stopError .invalidFieldElement) :=
  exec_of_effectOf_error nofun ((if_neg (by simp [hc])).trans (if_pos (by simp [hr])))

theorem exec_ecchk_inRange {s : State} {qa : PReg} (hc : s.clocked = true) (hr : s.inRange (s.point qa) = true) :
    exec (.ecchk qa) s = .next (s.setOnc (s.onCurve (s.point qa))).advance :=
  exec_of_effectOf_ok nofun ((if_neg (by simp [hc])).trans (if_neg (by simp [hr])))

/-- Settles O26: each command's operands pass the checks, and ECMULG has none. -/
theorem pointCommandsComplete : Obligations.PointCommandsComplete := by
  intro s qd qa qb rs hc
  refine ⟨fun hra hca => ?_, exec_of_curveWrite_ok nofun rfl (State.checkPoints_checked hc nofun nofun)⟩
  have hone : s.checkPoints [s.point qa] = .ok () := State.checkPoints_checked hc (by simpa) (by simpa)
  have hdbl := exec_of_curveWrite_ok (i := .ecdbl qd qa) nofun rfl hone
  have hadd : ∀ q, s.inRange (s.point q) = true → s.onCurve (s.point q) = true →
      exec (.ecadd qd qa q) s = .next (s.setPoint qd (pointAdd s.p s.a (s.point qa) (s.point q))).advance :=
    fun q hr ho => exec_of_curveWrite_ok nofun rfl
      (State.checkPoints_checked hc (by simp [hra, hr]) (by simp [hca, ho]))
  exact ⟨hadd qb, hdbl, hdbl.trans (hadd qa hra hca).symm, exec_of_curveWrite_ok nofun rfl hone⟩

/-- Settles O27: an error of the checks is the error of every command that makes them; ECCHK makes the first two
itself. -/
theorem curveErrorsInOrder : Obligations.CurveErrorsInOrder := by
  intro s qd qa qb rs
  have hsingle : ∀ e, s.checkPoints [s.point qa] = .error e →
      exec (.ecdbl qd qa) s = .next (s.stopError e) ∧ exec (.ecmul qd qa rs) s = .next (s.stopError e) :=
    fun e h => ⟨exec_of_curveWrite_error nofun rfl h, exec_of_curveWrite_error nofun rfl h⟩
  simp only [List.forall_mem_cons, List.not_mem_nil, false_implies, implies_true, and_true]
  refine ⟨fun hc => ?_, fun hc hr => ?_, fun hc hr => ?_, fun hc hra hrb ho => ?_, fun hc hr ho => ?_⟩
  · obtain ⟨hdbl, hmul⟩ := hsingle _ (State.checkPoints_unlocked hc _)
    exact ⟨exec_of_curveWrite_error nofun rfl (State.checkPoints_unlocked hc _), hdbl, hmul,
      exec_of_curveWrite_error nofun rfl (State.checkPoints_unlocked hc _), exec_ecchk_unlocked hc qa⟩
  · exact exec_of_curveWrite_error nofun rfl (State.checkPoints_outOfRange hc (by simpa))
  · obtain ⟨hdbl, hmul⟩ := hsingle _ (State.checkPoints_outOfRange hc (by simpa))
    exact ⟨hdbl, hmul, exec_ecchk_outOfRange hc hr⟩
  · exact exec_of_curveWrite_error nofun rfl (State.checkPoints_offCurve hc (by simp [hra, hrb]) (by simpa))
  · exact hsingle _ (State.checkPoints_offCurve hc (by simpa) (by simpa))

/-- Settles O28: the flag is the on-curve test, which is the divisibility of R18. -/
theorem ecchkSetsOnc : Obligations.EcchkSetsOnc := by
  intro s qa hc
  refine ⟨fun hpt => ?_, fun u v hpt hu hv => ?_⟩
  · rw [exec_ecchk_inRange hc (by rw [hpt]; rfl), hpt]
    rfl
  · have honc : s.onCurve (.fin u v) = decide ((s.p : Int) ∣ (v : Int) ^ 2 - ((u : Int) ^ 3 + s.a * u + s.b)) := by
      rw [Bool.eq_iff_iff, decide_eq_true_iff]
      exact curveEq_iff s.p s.a s.b u v
    have hr : s.inRange (s.point qa) = true := by rw [hpt, s.inRange_iff]; exact ⟨hu, hv⟩
    rw [exec_ecchk_inRange hc hr, hpt, honc]
    rfl

/-! ### Commutativity -/

/-- Settles O29: the checks take the operands in either order, and ADD is commutative on those they let through. -/
theorem ecaddCommutes : Obligations.EcaddCommutes := by
  intro s qd qa qb hp
  have : Fact s.p.Prime := ⟨hp⟩
  have hswap := s.checkPoints_swap (s.point qa) (s.point qb)
  suffices heffect : effectOf (.ecadd qd qa qb) s = effectOf (.ecadd qd qb qa) s by
    rw [exec_eq_retire (i := .ecadd qd qa qb) nofun, heffect, exec_eq_retire (i := .ecadd qd qb qa) nofun]
  rw [effectOf, effectOf]
  cases hcheck : s.checkPoints [s.point qa, s.point qb] with
  | error e => rw [curveWrite_of_error _ hcheck, curveWrite_of_error _ (hswap.symm.trans hcheck)]
  | ok =>
    obtain ⟨-, hrange, -⟩ := State.checkPoints_ok hcheck
    have hcomm : s.add (s.point qa) (s.point qb) = s.add (s.point qb) (s.point qa) :=
      pointAdd_comm s.a ((s.inRange_iff _).mp (hrange _ (by simp))) ((s.inRange_iff _).mp (hrange _ (by simp)))
    rw [curveWrite_of_ok _ hcheck, curveWrite_of_ok _ (hswap.symm.trans hcheck), hcomm]

/-! ### The results -/

theorem State.point_advance (s : State) (q : PReg) : s.advance.point q = s.point q := by
  have htag : s.advance.tag q = s.tag q := by rw [State.tag, State.advance_ptag, State.tag]
  simp only [State.point, htag, State.x_advance]

/-- A point on the curve, once written, is read back as one. -/
theorem State.onCurve_setPoint_advance (s : State) (qd : PReg) {r : Point} (h : r.OnCurve s.p s.a s.b) :
    (s.setPoint qd r).advance.inRange ((s.setPoint qd r).advance.point qd) = true ∧
      (s.setPoint qd r).advance.onCurve ((s.setPoint qd r).advance.point qd) = true := by
  rw [← State.onCurve_iff, State.point_advance, State.point_setPoint_same]
  simpa using h

/-- Settles O30: the results are on the curve by `pointAdd_onCurve` and `scalarMul_onCurve`; ECMULG's operand is the
generator, which the curve lock checked. -/
theorem pointResultsStayOnTheCurve : Obligations.PointResultsStayOnTheCurve := by
  intro s qd qa qb rs hc hp h2
  have : Fact s.p.Prime := ⟨hp⟩
  simp only [List.forall_mem_cons, List.not_mem_nil, false_implies, implies_true, and_true]
  refine ⟨fun hra hca hrb hcb => ?_, fun hinv => ?_⟩
  · have ha := (s.onCurve_iff _).mpr ⟨hra, hca⟩
    have hb := (s.onCurve_iff _).mpr ⟨hrb, hcb⟩
    obtain ⟨hpoint, -⟩ := pointCommandsComplete s qd qa qb rs hc
    obtain ⟨hadd, hdbl, -, hmul⟩ := hpoint hra hca
    exact ⟨⟨_, hadd hrb hcb, s.onCurve_setPoint_advance qd (pointAdd_onCurve h2 ha hb)⟩,
      ⟨_, hdbl, s.onCurve_setPoint_advance qd (pointAdd_onCurve h2 ha ha)⟩,
      ⟨_, hmul, s.onCurve_setPoint_advance qd (scalarMul_onCurve h2 ha)⟩⟩
  · obtain ⟨-, -, -, hgx, hgy, heq, -⟩ := s.curveLockPasses_iff.mp (hinv.curveLock hc)
    have hg : (Point.fin s.gx s.gy).OnCurve s.p s.a s.b := ⟨hgx, hgy, (curveEq_iff _ _ _ _ _).mpr heq⟩
    obtain ⟨-, hmulg⟩ := pointCommandsComplete s qd qa qb rs hc
    exact ⟨_, hmulg, s.onCurve_setPoint_advance qd (scalarMul_onCurve h2 hg)⟩

/-! ### No division by zero -/

theorem curveWrite_error {s : State} {qd : PReg} {pts : List Point} {r : Point} {e : ErrKind}
    (h : curveWrite qd pts r s = .error e) : e = .notConfigured ∨ e = .invalidFieldElement ∨ e = .notOnCurve := by
  cases hcheck : s.checkPoints pts with
  | error e' =>
    obtain rfl : e' = e := Except.error.inj ((curveWrite_of_error r hcheck).symm.trans h)
    exact State.checkPoints_error hcheck
  | ok => exact nomatch (curveWrite_of_ok r hcheck).symm.trans h

theorem curveCheck_error {s : State} {qa : PReg} {e : ErrKind} (h : curveCheck qa s = .error e) :
    e = .notConfigured ∨ e = .invalidFieldElement := by
  unfold curveCheck at h
  repeat' split at h
  · exact .inl (Except.error.inj h).symm
  · exact .inr (Except.error.inj h).symm
  · cases h

/-- The errors a curve command's effect can have (R180): none is DivisionByZero. -/
theorem effectOf_curve_ne_divisionByZero {i : Instr} {s : State} {e : ErrKind}
    (hi : i.mnemonic ∈ ["ECADD", "ECDBL", "ECMUL", "ECMULG", "ECCHK"]) (h : effectOf i s = .error e) :
    e ≠ .divisionByZero := by
  have hpoint : e = .notConfigured ∨ e = .invalidFieldElement ∨ e = .notOnCurve → e ≠ .divisionByZero := by
    rintro (rfl | rfl | rfl) <;> nofun
  cases i with
  | ecadd => exact hpoint (curveWrite_error h)
  | ecdbl => exact hpoint (curveWrite_error h)
  | ecmul => exact hpoint (curveWrite_error h)
  | ecmulg => exact hpoint (curveWrite_error h)
  | ecchk => exact hpoint ((curveCheck_error h).imp_right .inl)
  | _ => simp [Instr.mnemonic] at hi

theorem ErrKind.code_ne_of_ne_divisionByZero {e : ErrKind} (h : e ≠ .divisionByZero) : e.code ≠ 0x03#8 := by
  cases e with
  | divisionByZero => exact absurd rfl h
  | _ => decide

/-- The advance raises no error but CommandOverrun. -/
theorem State.advance_eq_of_err {s : State} (h0 : s.err = false) (h : s.advance.err = true) :
    s.advance = s.stopError .commandOverrun := by
  rcases s.advance_cases with ⟨-, hadv⟩ | ⟨-, hadv⟩
  · exact hadv
  · rw [hadv] at h
    exact absurd h (by simp [h0])

/-- A curve command that stops a run records another error than DivisionByZero. -/
theorem exec_curve_errcode {i : Instr} {s t : State}
    (hi : i.mnemonic ∈ ["ECADD", "ECDBL", "ECMUL", "ECMULG", "ECCHK"]) (h0 : s.err = false)
    (h : exec i s = .next t) (herr : t.err = true) : t.errcode ≠ 0x03#8 := by
  rcases exec_cases h with ⟨rfl, rfl⟩ | ⟨e, he, rfl⟩ | ⟨u, hu, rfl⟩
  · simp [Instr.mnemonic] at hi
  · exact ErrKind.code_ne_of_ne_divisionByZero (effectOf_curve_ne_divisionByZero hi he)
  · have hu0 : u.err = false := by rw [effectOf_writes hu]; exact h0
    rw [State.advance_eq_of_err hu0 herr]
    exact ErrKind.code_ne_of_ne_divisionByZero (e := .commandOverrun) nofun

/-- Settles O34: the recorded error and the two divisors, each by its lemma. -/
theorem noCurveCommandDividesByZero : Obligations.NoCurveCommandDividesByZero :=
  ⟨fun _ _ _ hi h0 h herr => exec_curve_errcode hi h0 h herr, fun _ _ _ => subMod_ne_zero,
    fun _ _ => mulMod_two_ne_zero⟩

end Sys2Proof.Machine
end

section
/-! ## The Base58 radix conversion

The alphabet as a numbering of the 58 digits (44_base58.md R210), the symbols of a byte string as the digits of its value
(R211, R212), the value of a string of symbols (R213 to R215), and that the second undoes the first. -/

namespace Sys2Proof.Machine

/-! ### The alphabet -/

theorem positionFrom_eq (c : Byte) (l : List Byte) (d : Nat) : positionFrom c l d = (l.idxOf? c).map (· + d) := by
  induction l generalizing d with
  | nil => rfl
  | cons v l ih =>
    rw [positionFrom, List.idxOf?_cons]
    by_cases h : v = c
    · simp [h]
    · simp [h, ih, Function.comp_def, Nat.add_comm, Nat.add_left_comm]

/-- The digit of a byte is its first position in the alphabet. -/
theorem digitOf_eq (c : Byte) : digitOf c = alphabet.idxOf? c := by simp [digitOf, positionFrom_eq]

theorem alphabet_nodup : alphabet.Nodup := by decide

theorem getElem?_alphabet {d : Nat} (h : d < 58) : alphabet[d]? = some (symbolOf d) := by
  have hd : d < alphabet.length := h
  rw [symbolOf, List.getD_eq_getElem _ _ hd, List.getElem?_eq_getElem hd]

/-- No symbol stands twice in the alphabet, so a byte's digit is its only position there (R210). -/
theorem digitOf_eq_some_iff (c : Byte) (d : Nat) : digitOf c = some d ↔ alphabet[d]? = some c := by
  rw [digitOf_eq, List.idxOf?_eq_some_iff, List.getElem?_eq_some_iff]
  refine exists_congr fun hd => and_iff_left_of_imp fun hc j hj heq => ?_
  exact hj.ne (alphabet_nodup.getElem_inj_iff.mp (heq.trans hc.symm))

theorem digitOf_eq_none_iff (c : Byte) : digitOf c = none ↔ c ∉ alphabet := by
  rw [digitOf_eq, List.idxOf?_eq_none_iff]

theorem digitOf_symbolOf {d : Nat} (h : d < 58) : digitOf (symbolOf d) = some d :=
  (digitOf_eq_some_iff _ d).mpr (getElem?_alphabet h)

theorem symbolOf_mem {d : Nat} (h : d < 58) : symbolOf d ∈ alphabet := List.mem_of_getElem? (getElem?_alphabet h)

/-! ### The value of a string -/

theorem base58Value_concat (u : List Byte) (c : Byte) :
    base58Value (u ++ [c]) = base58Value u * 58 + (digitOf c).getD 0 := by
  rw [base58Value, List.foldl_append, ← base58Value, List.foldl_cons, List.foldl_nil]

/-- The value of a string from the values of its two parts. -/
theorem base58Value_append (u v : List Byte) :
    base58Value (u ++ v) = base58Value u * 58 ^ v.length + base58Value v := by
  induction v using List.reverseRecOn with
  | nil => simp [base58Value]
  | append_singleton v c ih =>
    rw [← List.append_assoc, base58Value_concat, base58Value_concat, ih, List.length_append, List.length_singleton,
      pow_succ]
    ring

theorem base58Value_cons (c : Byte) (v : List Byte) :
    base58Value (c :: v) = (digitOf c).getD 0 * 58 ^ v.length + base58Value v := by
  rw [← List.singleton_append, base58Value_append, ← List.nil_append [c], base58Value_concat]
  simp [base58Value]

/-- A leading symbol of digit 0 contributes nothing (R215). -/
theorem base58Value_cons_of_zero {c : Byte} (h : (digitOf c).getD 0 = 0) (v : List Byte) :
    base58Value (c :: v) = base58Value v := by
  rw [base58Value_cons, h, zero_mul, zero_add]

/-- A byte counts only through its digit. -/
theorem base58Value_congr {c c' : Byte} (h : (digitOf c).getD 0 = (digitOf c').getD 0) (u v : List Byte) :
    base58Value (u ++ c :: v) = base58Value (u ++ c' :: v) := by
  simp only [base58Value_append, base58Value_cons, List.length_cons, h]

/-- The symbols of a list of digits, most significant first, have the value that the digits have. -/
theorem base58Value_map_symbolOf {ds : List Nat} (h : ∀ d ∈ ds, d < 58) :
    base58Value (ds.map symbolOf) = Nat.ofDigits 58 ds.reverse := by
  induction ds with
  | nil => rfl
  | cons d ds ih =>
    obtain ⟨hd, hds⟩ := List.forall_mem_cons.mp h
    rw [List.map_cons, base58Value_cons, digitOf_symbolOf hd, ih hds, List.reverse_cons, Nat.ofDigits_append,
      Nat.ofDigits_singleton, List.length_map, List.length_reverse, Option.getD_some]
    ring

/-- The byte '1' has the digit 0. -/
theorem digitOf_one : digitOf 0x31#8 = some 0 := digitOf_symbolOf (d := 0) (by decide)

theorem base58Value_ones (z : Nat) (v : List Byte) : base58Value (List.replicate z 0x31#8 ++ v) = base58Value v := by
  induction z with
  | zero => rfl
  | succ z ih => rw [List.replicate_succ, List.cons_append, base58Value_cons_of_zero (by rw [digitOf_one]; rfl), ih]

/-- Settles O45, from the value's two recursions and the numbering of the alphabet. -/
theorem unrecognisedCharacterIsDigitZero : Obligations.UnrecognisedCharacterIsDigitZero := by
  refine ⟨rfl, base58Value_concat, digitOf_eq_some_iff, fun u v c hc => ?_⟩
  have hzero : (digitOf c).getD 0 = 0 := by rw [(digitOf_eq_none_iff c).mpr hc]; rfl
  have hone : (digitOf 0x31#8).getD 0 = 0 := by rw [digitOf_one]; rfl
  exact ⟨base58Value_congr (hzero.trans hone.symm) u v, base58Value_cons_of_zero hzero v,
    base58Value_cons_of_zero hone v⟩

/-! ### The symbols of a byte string -/

/-- Leading zero bytes do not change the value. -/
theorem intBe_drop_zeros (l : List Byte) : intBe (l.drop (l.takeWhile (· == 0#8)).length) = intBe l := by
  induction l with
  | nil => rfl
  | cons v l ih =>
    by_cases h : v = 0#8
    · subst h
      rw [List.takeWhile_cons_of_pos (by decide), List.length_cons, List.drop_succ_cons, ih]
      rfl
    · rw [List.takeWhile_cons_of_neg (by simpa using h)]
      rfl

/-- The loop of step 5 gives the symbols of the base 58 digits, when its bound is large enough. -/
theorem base58Digits_eq {k n : Nat} (h : n < 2 ^ k) : base58Digits k n = (Nat.digits 58 n).map symbolOf := by
  induction k generalizing n with
  | zero =>
    obtain rfl : n = 0 := by omega
    rw [base58Digits, Nat.digits_zero, List.map_nil]
  | succ k ih =>
    rw [base58Digits]
    split
    · subst n; rw [Nat.digits_zero, List.map_nil]
    · rw [Nat.digits_def' (by decide) (Nat.pos_of_ne_zero ‹_›), List.map_cons, ih (by omega)]

theorem base58Symbols_eq (full : List Byte) :
    base58Symbols full = List.replicate (full.takeWhile (· == 0#8)).length 0x31#8 ++
      (Nat.digits 58 (intBe full)).reverse.map symbolOf := by
  rw [base58Symbols, intBe_drop_zeros, base58Digits_eq Nat.lt_log2_self, List.map_reverse]
  rfl

theorem digits_reverse_lt {n d : Nat} (h : d ∈ (Nat.digits 58 n).reverse) : d < 58 :=
  Nat.digits_lt_base (by decide) (List.mem_reverse.mp h)

theorem head?_digits_reverse (n : Nat) : (Nat.digits 58 n).reverse.head? ≠ some 0 := by
  rw [List.head?_reverse]
  by_cases h : n = 0
  · simp [h]
  · rw [List.getLast?_eq_some_getLast (Nat.digits_ne_nil_iff_ne_zero.mpr h)]
    exact fun heq => Nat.getLast_digit_ne_zero 58 h (Option.some.inj heq)

/-- Settles O41: the loop computes the library's digits. -/
theorem base58SymbolsAreTheRadixDigits : Obligations.Base58SymbolsAreTheRadixDigits := by
  refine ⟨by decide, fun d => getElem?_alphabet, fun full => ?_⟩
  refine ⟨_, base58Symbols_eq full, fun d => digits_reverse_lt, head?_digits_reverse _, ?_⟩
  rw [List.reverse_reverse, Nat.ofDigits_digits]

/-- Decoding's value of the symbols is the value of the bytes that were encoded. -/
theorem base58Value_base58Symbols (full : List Byte) : base58Value (base58Symbols full) = intBe full := by
  rw [base58Symbols_eq, base58Value_ones, base58Value_map_symbolOf fun d => digits_reverse_lt, List.reverse_reverse,
    Nat.ofDigits_digits]

theorem base58Symbols_mem_alphabet {full : List Byte} {c : Byte} (h : c ∈ base58Symbols full) : c ∈ alphabet := by
  rw [base58Symbols_eq, List.mem_append, List.mem_map] at h
  rcases h with hone | ⟨d, hd, rfl⟩
  · exact List.eq_of_mem_replicate hone ▸ symbolOf_mem (d := 0) (by decide)
  · exact symbolOf_mem (digits_reverse_lt hd)

end Sys2Proof.Machine
end

section
/-! ## The Base58Check commands

What B58ENC and B58DEC do with BUF and STR (44_base58.md R211 to R214), and that B58DEC undoes B58ENC (R216). -/

namespace Sys2Proof.Machine

/-! ### B58ENC -/

section
variable {s : State} (ver : BitVec 8)

theorem exec_b58enc_stores {r : List Byte} (hk : s.blen.toNat ≤ s.params.bufBytes)
    (hr : r = base58Symbols (base58Full Config.dsha256 ver (s.bufBytes s.blen.toNat))) :
    exec (.b58enc ver) s = .next { s.writeStr r with slen := BitVec.ofNat 8 r.length }.advance := by
  subst hr
  exact exec_of_effectOf_ok nofun (if_neg (Nat.not_lt.mpr hk))

theorem exec_b58enc_bufferBound (hk : s.params.bufBytes < s.blen.toNat) :
    exec (.b58enc ver) s = .next (s.stopError .bufferBound) :=
  exec_of_effectOf_error nofun (if_pos hk)

/-- The symbols of a payload that BUF holds fit STR (R212). -/
theorem length_base58Encode_le (hash : List Byte → Vector Byte 32) (hc : s.params.allowed = true)
    (hk : s.blen.toNat ≤ s.params.bufBytes) :
    (base58Symbols (base58Full hash ver (s.bufBytes s.blen.toNat))).length ≤ s.params.strBytes := by
  obtain ⟨_, _, _, _, _, _, hstr, _⟩ := s.params.allowed_iff.mp hc
  refine length_base58Symbols_le (le_trans ?_ hstr)
  rw [length_base58Full, State.length_bufBytes]
  exact Nat.pow_le_pow_right (by decide) (Nat.add_le_add_right hk 5)

end

/-- Settles O40: the symbols stand in STR as they were written, and no other byte changes. -/
theorem b58encCompletes : Obligations.B58encCompletes := by
  intro s ver hc hm
  refine ⟨fun hk => ⟨_, _, rfl, length_base58Encode_le ver _ hc hk, exec_b58enc_stores ver hk rfl, rfl,
    fun j hj => ?_, fun o ho => Memory.read_writeBytes_outside hm ho⟩, exec_b58enc_bufferBound ver⟩
  exact (Memory.read_writeBytes_inside hm strBase hj).trans (List.getD_eq_getElem _ _ hj).symm

/-! ### B58DEC -/

/-- The strict scan rejects exactly a string with an unrecognised byte (R214). -/
theorem State.strictScan_iff (s : State) (str : List Byte) :
    (s.strict58 && str.any fun c => (digitOf c).isNone) = true ↔ s.strict58 = true ∧ ∃ c ∈ str, c ∉ alphabet := by
  simp [digitOf_eq_none_iff]

section
variable {s : State} {hash : List Byte → Vector Byte 32} {full : List Byte}

theorem exec_b58dec_bufferBound (h : s.params.strBytes < s.slen.toNat ∨ s.params.bufBytes < s.b58n.toNat) :
    exec .b58dec s = .next (s.stopError .bufferBound) :=
  exec_of_effectOf_error nofun (if_pos h)

section
variable (hslen : s.slen.toNat ≤ s.params.strBytes) (hn : s.b58n.toNat ≤ s.params.bufBytes)
include hslen hn

theorem exec_b58dec_invalidCharacter (hstrict : s.strict58 = true)
    (hbad : ∃ c ∈ s.strBytes s.slen.toNat, c ∉ alphabet) : exec .b58dec s = .next (s.stopError .invalidCharacter) := by
  refine exec_of_effectOf_error nofun ?_
  rw [effectOf, base58Decode, if_neg (by omega), if_pos ((s.strictScan_iff _).mpr ⟨hstrict, hbad⟩)]

variable (hscan : s.strict58 = true → ∀ c ∈ s.strBytes s.slen.toNat, c ∈ alphabet)
include hscan

/-- A string that passes the bounds and the scan is converted to N + 5 bytes, and these are checked. -/
theorem base58Decode_of_scanned : base58Decode hash s =
    (toBytes (base58Value (s.strBytes s.slen.toNat)) (s.b58n.toNat + 5) .big).elim (.error .overflow)
      (base58Accept hash · s) := by
  have hgood : ¬ (s.strict58 && (s.strBytes s.slen.toNat).any fun c => (digitOf c).isNone) = true := by
    rw [s.strictScan_iff]
    rintro ⟨hstrict, c, hc, hbad⟩
    exact hbad (hscan hstrict c hc)
  rw [base58Decode, if_neg (by omega), if_neg hgood]
  cases toBytes (base58Value (s.strBytes s.slen.toNat)) (s.b58n.toNat + 5) .big <;> rfl

theorem exec_b58dec_overflow (h : 256 ^ (s.b58n.toNat + 5) ≤ base58Value (s.strBytes s.slen.toNat)) :
    exec .b58dec s = .next (s.stopError .overflow) := by
  refine exec_of_effectOf_error nofun ?_
  rw [effectOf, base58Decode_of_scanned hslen hn hscan, toBytes_overflow h]
  rfl

variable (hfull : full.length = s.b58n.toNat + 5) (hvalue : intBe full = base58Value (s.strBytes s.slen.toNat))
include hfull hvalue

/-- The bytes of the string's value are the one byte string of that length and value. -/
theorem base58Decode_eq_accept : base58Decode hash s = base58Accept hash full s := by
  have hbytes : toBytes (intBe full) full.length .big = some full := toBytes_fromBytes full .big
  rw [base58Decode_of_scanned hslen hn hscan, ← hvalue, ← hfull, hbytes]
  rfl

theorem exec_b58dec_checksumMismatch
    (h : checksum Config.dsha256 (full.take (s.b58n.toNat + 1)) ≠ full.drop (s.b58n.toNat + 1)) :
    exec .b58dec s = .next (s.stopError .checksumMismatch) := by
  refine exec_of_effectOf_error nofun ?_
  have hlen : full.length - 4 = s.b58n.toNat + 1 := by omega
  rw [effectOf, base58Decode_eq_accept hslen hn hscan hfull hvalue, base58Accept, hlen, if_pos h]

theorem exec_b58dec_stores
    (h : checksum Config.dsha256 (full.take (s.b58n.toNat + 1)) = full.drop (s.b58n.toNat + 1)) :
    exec .b58dec s = .next { s.writeBuf ((full.take (s.b58n.toNat + 1)).drop 1) with
      blen := s.b58n, b58ver := full.headD 0#8 }.advance := by
  refine exec_of_effectOf_ok nofun ?_
  have hlen : full.length - 4 = s.b58n.toNat + 1 := by omega
  have hver : (full.take (s.b58n.toNat + 1)).headD 0#8 = full.headD 0#8 := by
    cases full <;> rfl
  rw [effectOf, base58Decode_eq_accept hslen hn hscan hfull hvalue, base58Accept, hlen,
    if_neg (not_not_intro h), hver]

end
end

/-- Settles O43, one error after the other. -/
theorem b58decErrorsInOrder : Obligations.B58decErrorsInOrder := fun _ =>
  ⟨exec_b58dec_bufferBound, fun hslen hn =>
    ⟨exec_b58dec_invalidCharacter hslen hn, fun hscan =>
      ⟨exec_b58dec_overflow hslen hn hscan, fun _ => exec_b58dec_checksumMismatch hslen hn hscan⟩⟩⟩

/-- Settles O42: the payload stands in BUF as it was written, and no other byte changes. -/
theorem b58decCompletes : Obligations.B58decCompletes := by
  intro s full hm n str hslen hn hscan hfull hvalue hsum
  have hlen : ((full.take (n + 1)).drop 1).length = n := by
    rw [List.length_drop, List.length_take]
    omega
  refine ⟨_, exec_b58dec_stores hslen hn hscan hfull hvalue hsum, rfl, fun j hj => ?_, fun o ho => ?_⟩
  · have hpayload := Memory.read_writeBytes_inside hm bufBase (hlen.symm ▸ hj)
    rw [State.writeBuf_mem, hpayload, List.getElem_drop, List.getElem_take, List.getD_eq_getElem _ _ (by omega)]
  · exact Memory.read_writeBytes_outside hm (hlen.symm ▸ ho)

/-! ### The round trip -/

/-- The string that B58ENC encodes: version and payload, then the checksum of both (R211). -/
theorem base58Full_take (hash : List Byte → Vector Byte 32) (ver : Byte) (payload : List Byte) :
    (base58Full hash ver payload).take (payload.length + 1) = ver :: payload := List.take_left' rfl

theorem base58Full_drop (hash : List Byte → Vector Byte 32) (ver : Byte) (payload : List Byte) :
    (base58Full hash ver payload).drop (payload.length + 1) = checksum hash (ver :: payload) := List.drop_left' rfl

/-- B58DEC on the symbols of a payload: every symbol is recognised, the string's value is the value of the bytes that
were encoded, and these carry their own checksum. -/
theorem exec_b58dec_of_symbols {s : State} {ver len : BitVec 8} {payload : List Byte} (hb58n : s.b58n = len)
    (hslen : s.slen.toNat ≤ s.params.strBytes) (hn : len.toNat ≤ s.params.bufBytes)
    (hstr : s.strBytes s.slen.toNat = base58Symbols (base58Full Config.dsha256 ver payload))
    (hlen : payload.length = len.toNat) :
    exec .b58dec s = .next { s.writeBuf payload with blen := len, b58ver := ver }.advance := by
  subst hb58n
  have htake := base58Full_take Config.dsha256 ver payload
  have hdrop := base58Full_drop Config.dsha256 ver payload
  have hstores := exec_b58dec_stores (full := base58Full Config.dsha256 ver payload) hslen hn
    (fun _ c hc => base58Symbols_mem_alphabet (hstr ▸ hc)) (by rw [length_base58Full, hlen])
    (by rw [hstr, base58Value_base58Symbols]) (by rw [← hlen, htake, hdrop])
  rw [← hlen, htake] at hstores
  exact hstores

/-- B58ENC leaves its symbols in STR, from its start to SLEN. -/
theorem exec_b58enc_leaves_symbols {s : State} (h : s.Inv) (ver : BitVec 8) (hk : s.blen.toNat ≤ s.params.bufBytes) :
    ∃ t : State, exec (.b58enc ver) s = .next t ∧ t.mem.wf ∧ t.params = s.params ∧ t.b58n = s.b58n ∧ t.blen = s.blen ∧
      t.slen.toNat ≤ t.params.strBytes ∧
      t.strBytes t.slen.toNat = base58Symbols (base58Full Config.dsha256 ver (s.bufBytes s.blen.toNat)) := by
  have hfits := length_base58Encode_le ver Config.dsha256 h.parameters hk
  have hexec := exec_b58enc_stores ver hk rfl
  generalize base58Symbols (base58Full Config.dsha256 ver (s.bufBytes s.blen.toNat)) = r at hfits hexec ⊢
  obtain ⟨_, _, _, _, _, _, _, _, hbyte⟩ := s.params.allowed_iff.mp h.parameters
  have hslen : (BitVec.ofNat 8 r.length).toNat = r.length := by
    rw [BitVec.toNat_ofNat, Nat.mod_eq_of_lt (by omega)]
  refine ⟨_, hexec, ?_⟩
  simp only [State.advance_mem, State.advance_params, State.advance_b58n, State.advance_blen, State.advance_slen,
    State.writeStr_mem, State.writeStr_params, State.writeStr_b58n, State.writeStr_blen, State.strBytes, hslen]
  exact ⟨Memory.wf_writeBytes h.memoryForm strBase r, trivial, trivial, trivial, hfits,
    Memory.readBytes_writeBytes h.memoryForm strBase r⟩

/-- Settles O44: STR holds the symbols of the payload, so decoding writes back the bytes that BUF held. -/
theorem base58RoundTrip : Obligations.Base58RoundTrip := by
  intro s ver strict h hk hn
  obtain ⟨t, henc, hwf, hparams, hb58n, hblen, hslen, hstr⟩ := exec_b58enc_leaves_symbols h ver hk
  have hsame : t.b58n = t.blen := by rw [hb58n, hn, hblen]
  have hbound : t.blen.toNat ≤ t.params.bufBytes := by rw [hblen, hparams]; exact hk
  have hlen : (s.bufBytes s.blen.toNat).length = t.blen.toNat := by rw [State.length_bufBytes, hblen]
  refine ⟨t, _, henc, exec_b58dec_of_symbols hsame hslen hbound hstr hlen, ?_, ?_, fun j hj => ?_⟩
  · rw [State.advance_mem]
    rfl
  · rw [State.advance_blen]
    exact hblen
  · rw [State.advance_mem]
    refine (Memory.read_writeBytes_inside hwf bufBase (by rwa [hlen, hblen])).trans ?_
    exact Memory.getElem_readBytes ..

end Sys2Proof.Machine
end

section
/-! ## Errors

The stop on error and its codes (60_exceptions.md R230, R232, R236), that an error leaves nothing else written (R235),
that every command answers (R236), and the errors of the field commands in their order (R233). -/

namespace Sys2Proof.Machine

/-! ### The stop on error -/

/-- Settles O14: the record by its definition, the codes by their table. -/
theorem errorStopWritesTheRecord : Obligations.ErrorStopWritesTheRecord :=
  ⟨fun _ _ => rfl, rfl, rfl, rfl, rfl, rfl, rfl, rfl, rfl, rfl, rfl, rfl, rfl⟩

/-- Settles O46: HALT raises no error, an error of the command is a stop of the state as it was, and the advance raises
CommandOverrun only. -/
theorem errorsArePrecise : Obligations.ErrorsArePrecise := by
  intro i s t h0 h herr hcode
  rcases exec_cases h with ⟨_, rfl⟩ | ⟨e, _, rfl⟩ | ⟨u, hu, rfl⟩
  · exact absurd (h0.symm.trans herr) nofun
  · exact errorStopWritesTheRecord.1 s e
  · have hu0 : u.err = false := by rw [effectOf_writes hu]; exact h0
    rw [State.advance_eq_of_err hu0 herr] at hcode
    exact absurd rfl hcode

/-! ### Every command answers -/

theorem engineStep_answers (s : State) : ∃ t, engineStep s = .next t := by
  cases hb : s.busy with
  | false => exact ⟨s, engineStep_of_idle hb⟩
  | true =>
    cases hd : decode s.fetch with
    | error r => exact ⟨_, engineStep_of_illegal hb hd⟩
    | ok i =>
      obtain ⟨t, ht⟩ := exec_answers i s
      exact ⟨t, (engineStep_of_decode hb hd).trans ht⟩

/-- The outcomes of a step: a next state, or the fault of a host turn outside the window (20_memory.md R62). -/
theorem step_answers_or_faults (s : State) :
    (∃ t, step s = .next t) ∨
    (step s = .fault .outsideWindow ∧ ∃ o w rest, ¬ inWindow o ∧
      (s.agenda = .read o w :: rest ∨ ∃ v, s.agenda = .write o w v :: rest)) := by
  cases ha : s.agenda with
  | nil =>
    rw [step_of_agenda_nil ha]
    exact .inl (engineStep_answers s)
  | cons turn rest =>
    rw [step_of_agenda ha]
    cases turn with
    | engine => exact .inl (engineStep_answers _)
    | reset => exact .inl ⟨_, rfl⟩
    | read o w =>
      by_cases ho : inWindow o
      · exact .inl ⟨_, if_pos ho⟩
      · exact .inr ⟨if_neg ho, o, w, rest, ho, .inl rfl⟩
    | write o w v =>
      by_cases ho : inWindow o
      · exact .inl ⟨_, if_pos ho⟩
      · exact .inr ⟨if_neg ho, o, w, rest, ho, .inr ⟨v, rfl⟩⟩

/-- Settles O7, from the outcomes of a step. -/
theorem stepIsNeverRefused : Obligations.StepIsNeverRefused := by
  refine ⟨exec_answers, fun s r h => ?_, fun s r h => ?_⟩ <;>
    rcases step_answers_or_faults s with ⟨t, ht⟩ | ⟨hfault, houtside⟩
  · exact nomatch ht.symm.trans h
  · exact nomatch hfault.symm.trans h
  · exact nomatch ht.symm.trans h
  · exact houtside

/-! ### The failing checks of the field commands -/

section
variable {s : State} {rd rs1 rs2 : FReg} {own : Nat → Nat → Option ErrKind} {op : Nat → Nat → Nat}

theorem fieldBinary_unlocked (hf : s.flocked = false) : fieldBinary rd rs1 rs2 own op s = .error .notConfigured :=
  if_pos (by simp [hf])

theorem fieldBinary_invalid (hf : s.flocked = true) (h : s.p ≤ s.x rs1 ∨ s.p ≤ s.x rs2) :
    fieldBinary rd rs1 rs2 own op s = .error .invalidFieldElement := by
  have hbad : (!(s.valid (s.x rs1) && s.valid (s.x rs2))) = true := by simpa [State.valid, or_iff_not_imp_left] using h
  rw [fieldBinary, if_neg (by simp [hf]), if_pos hbad]

/-- FDIV by zero: the operands' checks come first, and 0 passes its own. -/
theorem fieldBinary_zeroDivisor (hf : s.flocked = true) (hx : s.x rs1 < s.p) (h0 : s.x rs2 = 0) :
    fieldBinary rd rs1 rs2 zeroDivisor op s = .error .divisionByZero := by
  have hp : 0 < s.p := Nat.zero_lt_of_lt hx
  simp [fieldBinary, State.valid, hf, hx, hp, h0, zeroDivisor]

theorem fieldInverse_unlocked (hf : s.flocked = false) : fieldInverse rd rs1 s = .error .notConfigured :=
  if_pos (by simp [hf])

theorem fieldInverse_invalid (hf : s.flocked = true) (hx : s.p ≤ s.x rs1) :
    fieldInverse rd rs1 s = .error .invalidFieldElement := by
  rw [fieldInverse, if_neg (by simp [hf]), if_pos (by simpa [State.valid] using hx)]

theorem fieldInverse_zero (hf : s.flocked = true) (hp : 0 < s.p) (h0 : s.x rs1 = 0) :
    fieldInverse rd rs1 s = .error .divisionByZero := by
  rw [fieldInverse, if_neg (by simp [hf]), if_neg (by simpa [State.valid, h0] using hp.ne'), if_pos h0]

theorem fieldPower_unlocked (hf : s.flocked = false) (neg : Bool) :
    fieldPower rd rs1 rs2 neg s = .error .notConfigured :=
  if_pos (by simp [hf])

theorem fieldPower_invalid (hf : s.flocked = true) (hx : s.p ≤ s.x rs1) (neg : Bool) :
    fieldPower rd rs1 rs2 neg s = .error .invalidFieldElement := by
  rw [fieldPower, if_neg (by simp [hf]), if_pos (by simpa [State.valid] using hx)]

end

section
variable {s : State} {rd rs : FReg} {cnt : Count} {op : Nat → Nat → Nat}

theorem windowFits_iff : windowFits rs cnt ↔ cnt.val < 2 ∨ rs.val + cnt.val ≤ 16 := by
  unfold windowFits
  omega

/-- Every register from F(rs) to F(rs+cnt-1) is read by the window. -/
theorem State.x_mem_window {j : FReg} (hlo : rs.val ≤ j.val) (hhi : j.val < rs.val + cnt.val) :
    s.x j ∈ s.window rs cnt := by
  have hj : Fin.ofNat 16 (rs.val + (j.val - rs.val)) = j :=
    Fin.ext (by rw [Nat.add_sub_cancel' hlo]; exact Nat.mod_eq_of_lt j.isLt)
  exact List.mem_map.mpr ⟨j.val - rs.val, List.mem_range.mpr (by omega), congrArg s.x hj⟩

theorem fieldFold_pastF15 (h : ¬ windowFits rs cnt) : fieldFold rd rs cnt op s = .error .illegalCommand := if_pos h

theorem fieldFold_unlocked (hfit : windowFits rs cnt) (hf : s.flocked = false) :
    fieldFold rd rs cnt op s = .error .notConfigured := by
  rw [fieldFold, if_neg (not_not.mpr hfit), if_pos (by simp [hf])]

theorem fieldFold_tooFew (hf : s.flocked = true) (hcnt : cnt.val < 2) :
    fieldFold rd rs cnt op s = .error .insufficientOperands := by
  rw [fieldFold, if_neg (not_not.mpr (windowFits_iff.mpr (.inl hcnt))), if_neg (by simp [hf]), if_pos hcnt]

theorem fieldFold_invalid (hf : s.flocked = true) (hcnt : 2 ≤ cnt.val) (hfit : rs.val + cnt.val ≤ 16)
    (h : ∃ v ∈ s.window rs cnt, s.p ≤ v) : fieldFold rd rs cnt op s = .error .invalidFieldElement := by
  have hbad : (!(s.window rs cnt).all s.valid) = true := by simpa [State.valid] using h
  rw [fieldFold, if_neg (not_not.mpr (windowFits_iff.mpr (.inr hfit))), if_neg (by simp [hf]),
    if_neg (Nat.not_lt.mpr hcnt), if_pos hbad]

end

/-! ### The errors in their order -/

section
variable {s : State} {e : ErrKind}

/-- An error that does not depend on the operation stops FADD, FSUB, FMUL and FDIV alike. -/
theorem exec_binary_of_error {rd rs1 rs2 : FReg} (h : ∀ own op, fieldBinary rd rs1 rs2 own op s = .error e) :
    ∀ i ∈ [Instr.fadd rd rs1 rs2, .fsub rd rs1 rs2, .fmul rd rs1 rs2, .fdiv rd rs1 rs2],
      exec i s = .next (s.stopError e) := by
  simp only [List.forall_mem_cons, List.not_mem_nil, false_implies, implies_true, and_true]
  exact ⟨exec_of_effectOf_error nofun (h noError (addMod s.p)), exec_of_effectOf_error nofun (h noError (subMod s.p)),
    exec_of_effectOf_error nofun (h noError (mulMod s.p)), exec_of_effectOf_error nofun (h zeroDivisor (divMod s.p))⟩

theorem exec_finv_fexp_of_error {rd rs1 rs2 : FReg} {neg : Bool} (hinv : fieldInverse rd rs1 s = .error e)
    (hexp : fieldPower rd rs1 rs2 neg s = .error e) :
    ∀ i ∈ [Instr.finv rd rs1, .fexp rd rs1 rs2 neg], exec i s = .next (s.stopError e) := by
  simp only [List.forall_mem_cons, List.not_mem_nil, false_implies, implies_true, and_true]
  exact ⟨exec_of_effectOf_error nofun hinv, exec_of_effectOf_error nofun hexp⟩

/-- An error that does not depend on the operation stops the three folds alike. -/
theorem exec_fold_of_error {rd rs : FReg} {cnt : Count} (h : ∀ op, fieldFold rd rs cnt op s = .error e) :
    ∀ i ∈ [Instr.faddn rd rs cnt, .fsubn rd rs cnt, .fmuln rd rs cnt], exec i s = .next (s.stopError e) := by
  simp only [List.forall_mem_cons, List.not_mem_nil, false_implies, implies_true, and_true]
  exact ⟨exec_of_effectOf_error nofun (h _), exec_of_effectOf_error nofun (h _), exec_of_effectOf_error nofun (h _)⟩

end

theorem fold_not_wellFormed {rd rs : FReg} {cnt : Count} (h : ¬ windowFits rs cnt) :
    ∀ i ∈ [Instr.faddn rd rs cnt, .fsubn rd rs cnt, .fmuln rd rs cnt], i.wellFormed = false := by
  simp only [List.forall_mem_cons, List.not_mem_nil, false_implies, implies_true, and_true]
  exact ⟨decide_eq_false h, decide_eq_false h, decide_eq_false h⟩

/-- Settles O23: each check fails alike for all commands that make it, once the checks before it have passed. -/
theorem fieldErrorsInOrder : Obligations.FieldErrorsInOrder := by
  intro s rd rs1 rs2 neg cnt
  refine ⟨fun hcnt hpast i hi => ?pastF15, fun hf => ⟨fun i hi => ?unlocked, fun hfit => ?unlockedFold⟩,
    fun hf hcnt => ?tooFew, fun hf hcnt hfit ⟨j, hlo, hhi, hj⟩ => ?invalidWindow, fun hf h => ?invalidOperands,
    fun hf hx => ?invalidOperand, fun hf hx h0 => ?zeroDivisor, fun hf hp h0 => ?zeroInverse⟩
  case pastF15 =>
    have hpast : ¬ windowFits rs1 cnt := by rw [windowFits_iff]; omega
    exact ⟨fold_not_wellFormed hpast i hi, exec_fold_of_error (fun _ => fieldFold_pastF15 hpast) i hi⟩
  case unlocked =>
    rcases List.mem_append (s := [Instr.fadd rd rs1 rs2, .fsub rd rs1 rs2, .fmul rd rs1 rs2, .fdiv rd rs1 rs2]).mp hi
      with hi | hi
    · exact exec_binary_of_error (fun _ _ => fieldBinary_unlocked hf) i hi
    · exact exec_finv_fexp_of_error (fieldInverse_unlocked hf) (fieldPower_unlocked hf neg) i hi
  case unlockedFold => exact exec_fold_of_error fun _ => fieldFold_unlocked (windowFits_iff.mpr hfit) hf
  case tooFew => exact exec_fold_of_error fun _ => fieldFold_tooFew hf hcnt
  case invalidWindow =>
    exact exec_fold_of_error fun _ => fieldFold_invalid hf hcnt hfit ⟨s.x j, State.x_mem_window hlo hhi, hj⟩
  case invalidOperands => exact exec_binary_of_error fun _ _ => fieldBinary_invalid hf h
  case invalidOperand => exact exec_finv_fexp_of_error (fieldInverse_invalid hf hx) (fieldPower_invalid hf hx neg)
  case zeroDivisor => exact exec_of_effectOf_error nofun (fieldBinary_zeroDivisor hf hx h0)
  case zeroInverse => exact exec_of_effectOf_error nofun (fieldInverse_zero hf hp h0)

end Sys2Proof.Machine
end
